-- ==== Sys2Proof/Word.lean ====
section
/-! DEFINITION. The words of the BPFE: bytes, byte sequences, the widths of its fields. -/

namespace Sys2Proof

/-- One byte (00_scope.md R14). -/
abbrev Byte := BitVec 8

/-- A finite sequence of 8-bit values (00_scope.md R14). -/
abbrev Bytes := List Byte

/-- A command word, a length or a status word on a channel (30_encoding.md R150). -/
abbrev Word32 := BitVec 32

/-- A counter or a CSR value (10_state.md R50, R61). -/
abbrev Word64 := BitVec 64

/-- The 32-byte shared secret (00_scope.md R8 `SECRET_LEN`; 10_state.md R54). -/
abbrev Secret := Vector Byte 32

/-- One AES block, one IV, one shift register: 16 bytes, byte 0 the oldest
(00_scope.md R9 `BLOCK_LEN`, `IV_LEN`; 10_state.md R55). -/
abbrev Block := Vector Byte 16

end Sys2Proof
end

