-- ==== Sys2Proof/Syntax.lean ====
section
/-! DEFINITION. The commands of the BPFE as syntax: one constructor per row of spec/opcode_table.json. -/

namespace Sys2Proof

/-- The ten CSRs (10_state.md R61). -/
inductive Csr where
  | id | state | fault | faultSeq | cmdSeq | sendCtr | recvCtr | compLevel | maxPlainLen | maxWireLen
  deriving DecidableEq, Repr

/-- The two cipher engines, selected by `sel` (30_encoding.md R153): `send` is sel = 0 (SR_S), `recv` is sel = 1
(SR_R). -/
inductive Engine where
  | send | recv
  deriving DecidableEq, Repr

/-- A command that decodes (30_encoding.md R150, R157): its opcode is the constructor, its operands are the field of
the command word the opcode uses (`csr` or `sel`) and `payload`, the byte sequence IN. The length L is the payload's
length. The layout of IN is 30_encoding.md R158; a payload of a length the command does not admit is a command all the
same, and ends with LENGTH_ERROR (R160). -/
inductive Instr where
  /-- 40_context.md R210. -/
  | nop (payload : Bytes)
  /-- 40_context.md R214: secret, IV_SEND, IV_RECV. -/
  | init (payload : Bytes)
  /-- 40_context.md R220. -/
  | dispose (payload : Bytes)
  /-- 40_context.md R230. -/
  | csrr (csr : Csr) (payload : Bytes)
  /-- 40_context.md R232: LE64 of the value. -/
  | csrw (csr : Csr) (payload : Bytes)
  /-- 41_checksum.md R270: LE64 of the counter, then the data. -/
  | tag (payload : Bytes)
  /-- 42_cipher.md R320: plaintext. -/
  | encrypt (sel : Engine) (payload : Bytes)
  /-- 42_cipher.md R321: ciphertext. -/
  | decrypt (sel : Engine) (payload : Bytes)
  /-- 43_compression.md R390: plaintext. -/
  | deflate (payload : Bytes)
  /-- 43_compression.md R391: compressed bytes. -/
  | inflate (payload : Bytes)
  /-- 44_packet.md R450: plaintext. -/
  | encode (payload : Bytes)
  /-- 44_packet.md R460: one wire unit. -/
  | decode (payload : Bytes)
  deriving DecidableEq, Repr

/-- IN, the payload of a command (20_memory.md R101). -/
def Instr.payload : Instr → Bytes
  | .nop p => p
  | .init p => p
  | .dispose p => p
  | .csrr _ p => p
  | .csrw _ p => p
  | .tag p => p
  | .encrypt _ p => p
  | .decrypt _ p => p
  | .deflate p => p
  | .inflate p => p
  | .encode p => p
  | .decode p => p

end Sys2Proof
end

