-- ==== Sys2Proof/WellFormed.lean ====
section
/-! DEFINITION. When a command is well formed: the one check that its syntax does not make by its types. -/

namespace Sys2Proof

/-- L is a 32-bit length, at most 2^32 - 1 (30_encoding.md R150, R152). The other constraints of 30_encoding.md R157,
a `csr` that names a CSR and a `sel` of 0 or 1, hold by the types `Csr` and `Engine`. -/
def Instr.wf (i : Instr) : Bool := decide (i.payload.length < 2 ^ 32)

end Sys2Proof
end

