-- ==== Sys2Proof/Decode.lean ====
section
/-! DEFINITION. Byte orders, the decoder (total on any bytes, rejecting by name) and the encoder (30_encoding.md). -/

namespace Sys2Proof

/-- The little-endian serialization of `v` in `n` bytes: byte i is `v[8i+7:8i]` (00_scope.md R14). -/
def leBytes : Nat → Nat → Bytes
  | 0, _ => []
  | n + 1, v => BitVec.ofNat 8 v :: leBytes n (v / 256)

/-- `LE16` (00_scope.md R14). -/
def le16 (v : BitVec 16) : Bytes := leBytes 2 v.toNat

/-- `LE32` (00_scope.md R14). -/
def le32 (v : Word32) : Bytes := leBytes 4 v.toNat

/-- `LE64` (00_scope.md R14). -/
def le64 (v : Word64) : Bytes := leBytes 8 v.toNat

/-- `fromLE`: the integer sum of `b[i] * 2^(8i)` (00_scope.md R14). -/
def fromLE : Bytes → Nat
  | [] => 0
  | b :: bs => b.toNat + 256 * fromLE bs

/-- The twelve defined opcodes (30_encoding.md R157). -/
inductive Opcode where
  | nop | init | dispose | csrr | csrw | tag | encrypt | decrypt | deflate | inflate | encode | decode
  deriving DecidableEq, Repr

/-- The opcode byte of each opcode (30_encoding.md R157). -/
def opcodeByte : Opcode → Byte
  | .nop => 0x00
  | .init => 0x01
  | .dispose => 0x02
  | .csrr => 0x08
  | .csrw => 0x09
  | .tag => 0x10
  | .encrypt => 0x20
  | .decrypt => 0x21
  | .deflate => 0x30
  | .inflate => 0x31
  | .encode => 0x40
  | .decode => 0x41

/-- All defined opcodes, in the table's order. -/
def opcodes : List Opcode :=
  [.nop, .init, .dispose, .csrr, .csrw, .tag, .encrypt, .decrypt, .deflate, .inflate, .encode, .decode]

/-- The opcode a byte selects; the other 244 values are reserved (30_encoding.md R156). -/
def opcodeOfByte (b : Byte) : Option Opcode := opcodes.find? fun o => opcodeByte o == b

/-- The number of each CSR (10_state.md R61). -/
def csrNumber : Csr → BitVec 12
  | .id => 0x000
  | .state => 0x001
  | .fault => 0x002
  | .faultSeq => 0x003
  | .cmdSeq => 0x004
  | .sendCtr => 0x010
  | .recvCtr => 0x011
  | .compLevel => 0x020
  | .maxPlainLen => 0x030
  | .maxWireLen => 0x031

/-- All CSRs, in the order of 10_state.md R61. -/
def csrs : List Csr :=
  [.id, .state, .fault, .faultSeq, .cmdSeq, .sendCtr, .recvCtr, .compLevel, .maxPlainLen, .maxWireLen]

/-- The CSR a number names; every other number is not a CSR (10_state.md R61). -/
def csrOfNumber (n : BitVec 12) : Option Csr := csrs.find? fun c => csrNumber c == n

/-- The engine a `sel` field selects; 2..15 are illegal (30_encoding.md R153). -/
def engineOfSel (n : BitVec 4) : Option Engine :=
  if n = 0 then some .send else if n = 1 then some .recv else none

/-- The `sel` field of each engine (30_encoding.md R153). -/
def selOfEngine : Engine → BitVec 4
  | .send => 0
  | .recv => 1

/-- The causes of ILLEGAL_COMMAND (30_encoding.md R162). Decoding gives the first four, CSRW the last two. -/
inductive IllegalCause where
  | opcode | reserved | sel | csr | readOnly | value
  deriving DecidableEq, Repr

/-- Field `opcode` = W[7:0] (30_encoding.md R153). -/
def fieldOpcode (w : Word32) : Byte := w.extractLsb' 0 8

/-- Field `sel` = W[11:8] (30_encoding.md R153). -/
def fieldSel (w : Word32) : BitVec 4 := w.extractLsb' 8 4

/-- Field `rsvd` = W[19:12] (30_encoding.md R153). -/
def fieldRsvd (w : Word32) : BitVec 8 := w.extractLsb' 12 8

/-- Field `csr` = W[31:20] (30_encoding.md R153). -/
def fieldCsr (w : Word32) : BitVec 12 := w.extractLsb' 20 12

/-- The rest of the decoding of an opcode that is neither CSRR, CSRW, ENCRYPT nor DECRYPT: `sel` and then `csr` must be
0 (30_encoding.md R159). -/
def decodePlain (w : Word32) (i : Instr) : Except IllegalCause Instr :=
  if fieldSel w ≠ 0 then .error .sel
  else if fieldCsr w ≠ 0 then .error .reserved
  else .ok i

/-- The rest of the decoding of CSRR and CSRW: `sel` must be 0, `csr` must name a CSR (30_encoding.md R159). -/
def decodeCsr (w : Word32) (make : Csr → Instr) : Except IllegalCause Instr :=
  if fieldSel w ≠ 0 then .error .sel
  else match csrOfNumber (fieldCsr w) with
    | none => .error .csr
    | some c => .ok (make c)

/-- The rest of the decoding of ENCRYPT and DECRYPT: `sel` must be 0 or 1, `csr` must be 0 (30_encoding.md R159). -/
def decodeSel (w : Word32) (make : Engine → Instr) : Except IllegalCause Instr :=
  match engineOfSel (fieldSel w) with
  | none => .error .sel
  | some e => if fieldCsr w ≠ 0 then .error .reserved else .ok (make e)

/-- `Decode(W)` (30_encoding.md R159), with the payload attached: the checks run in the order OPCODE, RESERVED (rsvd),
SEL, then CSR or RESERVED (csr), and the first that fails decides. The payload does not change the result. -/
def decodeWord (w : Word32) (payload : Bytes) : Except IllegalCause Instr :=
  match opcodeOfByte (fieldOpcode w) with
  | none => .error .opcode
  | some o =>
    if fieldRsvd w ≠ 0 then .error .reserved
    else match o with
      | .nop => decodePlain w (.nop payload)
      | .init => decodePlain w (.init payload)
      | .dispose => decodePlain w (.dispose payload)
      | .csrr => decodeCsr w (.csrr · payload)
      | .csrw => decodeCsr w (.csrw · payload)
      | .tag => decodePlain w (.tag payload)
      | .encrypt => decodeSel w (.encrypt · payload)
      | .decrypt => decodeSel w (.decrypt · payload)
      | .deflate => decodePlain w (.deflate payload)
      | .inflate => decodePlain w (.inflate payload)
      | .encode => decodePlain w (.encode payload)
      | .decode => decodePlain w (.decode payload)

/-- The command at the front of the channel's bytes, `LE32(W) ++ LE32(L) ++ IN`: W, IN and the bytes after it, or
nothing while the command has not arrived whole. Exactly L payload bytes are read, whatever the opcode
(30_encoding.md R152). -/
def splitCommand (bs : Bytes) : Option (Word32 × Bytes × Bytes) :=
  if bs.length < 8 then none
  else
    let w := BitVec.ofNat 32 (fromLE (bs.take 4))
    let l := fromLE ((bs.drop 4).take 4)
    let body := bs.drop 8
    if body.length < l then none else some (w, body.take l, body.drop l)

/-- What the channel's bytes hold at their front. -/
inductive Decoded where
  /-- No command has arrived whole. -/
  | incomplete
  /-- A whole command that decoding refuses, and the bytes after it. -/
  | illegal (cause : IllegalCause) (rest : Bytes)
  /-- A whole command that decodes, and the bytes after it. -/
  | command (i : Instr) (rest : Bytes)
  deriving DecidableEq, Repr

/-- The decoder, from bytes: take the command at the front (30_encoding.md R152) and decode its word (R159). -/
def decode (bs : Bytes) : Decoded :=
  match splitCommand bs with
  | none => .incomplete
  | some (w, payload, rest) =>
    match decodeWord w payload with
    | .error c => .illegal c rest
    | .ok i => .command i rest

/-- The opcode of a command (30_encoding.md R157). -/
def instrOpcode : Instr → Opcode
  | .nop _ => .nop
  | .init _ => .init
  | .dispose _ => .dispose
  | .csrr _ _ => .csrr
  | .csrw _ _ => .csrw
  | .tag _ => .tag
  | .encrypt _ _ => .encrypt
  | .decrypt _ _ => .decrypt
  | .deflate _ => .deflate
  | .inflate _ => .inflate
  | .encode _ => .encode
  | .decode _ => .decode

/-- The `sel` field of a command's word: 0 but for ENCRYPT and DECRYPT (30_encoding.md R153). -/
def instrSel : Instr → BitVec 4
  | .encrypt e _ => selOfEngine e
  | .decrypt e _ => selOfEngine e
  | .nop _ | .init _ | .dispose _ | .csrr _ _ | .csrw _ _ | .tag _ | .deflate _ | .inflate _ | .encode _
  | .decode _ => 0

/-- The `csr` field of a command's word: 0 but for CSRR and CSRW (30_encoding.md R153). -/
def instrCsr : Instr → BitVec 12
  | .csrr c _ => csrNumber c
  | .csrw c _ => csrNumber c
  | .nop _ | .init _ | .dispose _ | .tag _ | .encrypt _ _ | .decrypt _ _ | .deflate _ | .inflate _ | .encode _
  | .decode _ => 0

/-- The command word: `csr` in [31:20], `rsvd` = 0 in [19:12], `sel` in [11:8], `opcode` in [7:0]
(30_encoding.md R153, R157). -/
def encodeWord (i : Instr) : Word32 := instrCsr i ++ (0 : BitVec 8) ++ instrSel i ++ opcodeByte (instrOpcode i)

/-- The bytes of a command whose word is `w` and whose payload is `payload`: `LE32(W) ++ LE32(L) ++ IN`
(30_encoding.md R152). -/
def commandBytes (w : Word32) (payload : Bytes) : Bytes := le32 w ++ leBytes 4 payload.length ++ payload

/-- The encoder: the bytes of a command on the channel (30_encoding.md R152). -/
def encode (i : Instr) : Bytes := commandBytes (encodeWord i) i.payload

/-- The bytes of an instruction whose bits are `w`, numbered as spec/opcode_table.json numbers them: the command word
is bits 31..0, the length L bits 63..32, the payload the bits above, each little-endian as the channel carries it
(20_memory.md R105); every bit from `nbits` up is 0. So a row of 32 bits is the command with L = 0. -/
def layoutWord (nbits w : Nat) : Bytes :=
  let v := w % 2 ^ nbits
  leBytes (8 + v / 2 ^ 32 % 2 ^ 32) v

/-- What the decoder reads from an instruction whose bits are `w`. -/
def decodeTableWord (nbits w : Nat) : Option Instr :=
  match decode (layoutWord nbits w) with
  | .command i _ => some i
  | .illegal _ _ => none
  | .incomplete => none

end Sys2Proof
end

