-- ==== Sys2Proof/Config.lean ====
section
/-! DEFINITION. What the spec fixes for every BPFE, and the parameters it leaves open (00_scope.md R8 to R11).
A parameter left open is an opaque constant with no body: nothing can be proved of its value but its range. -/

namespace Sys2Proof.Config

/-- `SECRET_LEN` (00_scope.md R8). -/
def secretLen : Nat := 32

/-- `IV_LEN` (00_scope.md R9). -/
def ivLen : Nat := 16

/-- `TAG_LEN` (00_scope.md R8). -/
def tagLen : Nat := 8

/-- `INIT_LEN = SECRET_LEN + 2*IV_LEN` (00_scope.md R11). -/
def initLen : Nat := secretLen + 2 * ivLen

/-- `LE64_LEN` (00_scope.md R11). -/
def le64Len : Nat := 8

/-- `LEVEL_MAX` (00_scope.md R9). -/
def levelMax : Nat := 9

/-- `STORED_MAX`: the most bytes of one stored block (00_scope.md R9). -/
def storedMax : Nat := 65535

/-- `SYNC_MARKER` (00_scope.md R11). -/
def syncMarker : Bytes := [0x00, 0x00, 0x00, 0xFF, 0xFF]

/-- How far `MAX_PLAIN_LEN` stands above 2^22. 00_scope.md R10 admits every integer from 2^22 to the largest n with
`n <= 2^32 - 1 - 5*ceil(n/65535) - 13`, which is 4294639620: so every value below 4290445317 here, and no other.
DESIGN CHOICE (safe): the open parameter is an opaque constant; log entry 1. -/
opaque maxPlainExtra : Fin 4290445317

/-- `MAX_PLAIN_LEN` (00_scope.md R10). -/
def maxPlainLen : Nat := 2 ^ 22 + maxPlainExtra.val

/-- `DEFAULT_COMP_LEVEL`, an integer 0..9 (00_scope.md R10). DESIGN CHOICE (safe): opaque; log entry 2. -/
opaque defaultCompLevel : Fin 10

/-- What the implementation's compressor makes of a plaintext at a level of 1..9, before the check of
43_compression.md R372 (Machine/Compressor.lean `deflateLevel`). Every `DEFLATE_L` that R372 admits is one value of
this constant. DESIGN CHOICE (safe): opaque; log entry 3. -/
opaque compressor (level : BitVec 4) (plain : Bytes) : Bytes

end Sys2Proof.Config
end

