-- ==== Sys2Proof/Machine/State.lean ====
section
/-! DEFINITION. The state of the BPFE (10_state.md R50) with its two channels and its reset input (30_encoding.md R151),
the reasons a step can stop, and the state right after reset (10_state.md R76). -/

namespace Sys2Proof.Machine

/-- STATE (10_state.md R53): UNINIT = 0, READY = 1, FAULTED = 2, DISPOSED = 3. -/
inductive ConnState where
  | uninit | ready | faulted | disposed
  deriving DecidableEq, Repr

/-- A response as it leaves on `rsp_out`: the 32-bit status word R and the payload OUT; M is the payload's length
(30_encoding.md R150, R155). -/
structure Response where
  word : Word32
  out : Bytes
  deriving DecidableEq, Repr

/-- Everything the spec gives the machine. -/
structure State where
  /-- STATE (10_state.md R53). -/
  state : ConnState
  /-- SECRET, or absent (10_state.md R54). -/
  secret : Option Secret
  /-- SR_S, or absent (10_state.md R55). -/
  srS : Option Block
  /-- SR_R, or absent (10_state.md R55). -/
  srR : Option Block
  /-- SEND_CTR (10_state.md R56). -/
  sendCtr : Word64
  /-- RECV_CTR (10_state.md R57). -/
  recvCtr : Word64
  /-- FAULT_KIND (10_state.md R58). -/
  faultKind : Byte
  /-- FAULT_CAUSE (10_state.md R58). -/
  faultCause : Byte
  /-- FAULT_OPC (10_state.md R58). -/
  faultOpc : Byte
  /-- FAULT_SEQ (10_state.md R58). -/
  faultSeq : Word64
  /-- CMD_SEQ (10_state.md R59). -/
  cmdSeq : Word64
  /-- COMP_LEVEL, 4 bits (10_state.md R60). -/
  compLevel : BitVec 4
  /-- `cmd_in`: the bytes the host has submitted and the block has not consumed (30_encoding.md R151, R152). -/
  cmdIn : Bytes
  /-- `rsp_out`: the responses made and not yet taken by the host, oldest first (30_encoding.md R151; 20_memory.md
  R110). Those beyond `rspDepth` are held by the block (20_memory.md R120). -/
  rspOut : List Response
  /-- The model's own field: how many responses the channel takes before the host takes one; `none` is no bound.
  DESIGN CHOICE, log entry 4. -/
  rspDepth : Option Nat
  /-- `rst`: the level of the reset input (30_encoding.md R151; 70_reset_and_hazards.md R700). -/
  rst : Bool
  deriving DecidableEq, Repr

/-- Why the model's machine can stop. No fault of the spec is one of these: a fatal fault of 60_exceptions.md R600 is a
next state with a response. -/
inductive Fault where
  /-- Raised by `requireContext` (TAG, ENCRYPT, DECRYPT, ENCODE, DECODE) when STATE is READY, or FAULTED past the gate,
  and SECRET, SR_S or SR_R is absent. The invariant of 10_state.md R50 and the gate of 40_context.md R200 rule both
  out, so no run from reset reaches it. Safe: the model stops where no machine of the spec can be. Log entry 7. -/
  | contextAbsent
  deriving DecidableEq, Repr

/-- Why an instruction is refused by the model. -/
inductive Refusal where
  /-- Raised by an arm of `exec` that has no meaning yet. No arm of this model raises it. Safe. -/
  | notModelled (mnemonic : String)
  deriving DecidableEq, Repr

/-- The machine right after reset (10_state.md R76; 70_reset_and_hazards.md R700): every value is the spec's, but for
`rspDepth`, the model's own (log entry 4). -/
def State.reset : State where
  state := .uninit
  secret := none
  srS := none
  srR := none
  sendCtr := 0
  recvCtr := 0
  faultKind := 0
  faultCause := 0
  faultOpc := 0
  faultSeq := 0
  cmdSeq := 0
  compLevel := BitVec.ofNat 4 Config.defaultCompLevel.val
  cmdIn := []
  rspOut := []
  rspDepth := none
  rst := false

end Sys2Proof.Machine
end

