-- ==== Sys2Proof/Machine/Flags.lean ====
section
/-! DEFINITION. The codes that carry status: the status word of a response (30_encoding.md R155; 60_exceptions.md R601,
R602), the code of STATE, and `fault_o`. The BPFE has no condition codes and no arithmetic flags (10_state.md R71). -/

namespace Sys2Proof.Machine

/-- The outcomes of a command (60_exceptions.md R601). -/
inductive Status where
  | ok | engineFault | decodeFault | integrityFault | illegalCommand | lengthError | rejected
  deriving DecidableEq, Repr

/-- The status codes, bits [7:0] of the status word (60_exceptions.md R601). -/
def statusCode : Status → Byte
  | .ok => 0x00
  | .engineFault => 0x01
  | .decodeFault => 0x02
  | .integrityFault => 0x03
  | .illegalCommand => 0x10
  | .lengthError => 0x11
  | .rejected => 0x12

/-- The three kinds of fatal fault (60_exceptions.md R600). -/
inductive FaultKind where
  | engine | decode | integrity
  deriving DecidableEq, Repr

/-- The status a fatal fault ends its command with (60_exceptions.md R601). -/
def faultStatus : FaultKind → Status
  | .engine => .engineFault
  | .decode => .decodeFault
  | .integrity => .integrityFault

/-- FAULT_KIND: 1 EngineFault, 2 DecodeFault, 3 IntegrityFault (10_state.md R58; 60_exceptions.md R610). -/
def faultKindCode : FaultKind → Byte
  | .engine => 1
  | .decode => 2
  | .integrity => 3

/-- The cause codes of ILLEGAL_COMMAND (30_encoding.md R162). -/
def illegalCode : IllegalCause → Byte
  | .opcode => 1
  | .reserved => 2
  | .sel => 3
  | .csr => 4
  | .readOnly => 5
  | .value => 6

/-- The causes of EngineFault (60_exceptions.md R602). -/
inductive EngineCause where
  | noContext | disposed
  deriving DecidableEq, Repr

/-- The cause codes of EngineFault (60_exceptions.md R602). -/
def engineCode : EngineCause → Byte
  | .noContext => 1
  | .disposed => 2

/-- The causes of IntegrityFault (60_exceptions.md R602). -/
inductive IntegrityCause where
  | tagMismatch | shortUnit
  deriving DecidableEq, Repr

/-- The cause codes of IntegrityFault (60_exceptions.md R602). -/
def integrityCode : IntegrityCause → Byte
  | .tagMismatch => 1
  | .shortUnit => 2

/-- The causes of DecodeFault (43_compression.md R382). -/
inductive DecodeCause where
  | truncated | badBlockType | badStoredLen | badCounts | badCode | badSymbol | badDistance | trailingData | outputLimit
  deriving DecidableEq, Repr

/-- The cause codes of DecodeFault (43_compression.md R382). -/
def decodeCode : DecodeCause → Byte
  | .truncated => 1
  | .badBlockType => 2
  | .badStoredLen => 3
  | .badCounts => 4
  | .badCode => 5
  | .badSymbol => 6
  | .badDistance => 7
  | .trailingData => 8
  | .outputLimit => 9

/-- The status word R: status in [7:0], cause in [15:8], zero above (30_encoding.md R155). -/
def statusWord (st : Status) (cause : Byte) : Word32 := (cause ++ statusCode st).zeroExtend 32

/-- The 2-bit code of STATE (10_state.md R53). -/
def stateCode : ConnState → BitVec 2
  | .uninit => 0
  | .ready => 1
  | .faulted => 2
  | .disposed => 3

/-- `fault_o`: 1 exactly when STATE = FAULTED (60_exceptions.md R620). -/
def State.faultO (s : State) : Bool := s.state == .faulted

/-- The bytes of a response on the channel: `LE32(R) ++ LE32(M) ++ OUT` (30_encoding.md R152). -/
def Response.bytes (r : Response) : Bytes := le32 r.word ++ leBytes 4 r.out.length ++ r.out

end Sys2Proof.Machine
end

