-- ==== Sys2Proof/Machine/Operands.lean ====
section
/-! DEFINITION. The operands of the commands: how IN is split (30_encoding.md R158), which payload lengths a command
admits (R160), which commands run in FAULTED (60_exceptions.md R612), and what each CSR reads (10_state.md R61 to R70). -/

namespace Sys2Proof.Machine

/-- `STORED_BOUND(n) = n + 5*ceil(n/65535) + 5` (00_scope.md R12). -/
def storedBound (n : Nat) : Nat := n + 5 * ((65534 + n) / 65535) + 5

/-- `MAX_WIRE_LEN = STORED_BOUND(MAX_PLAIN_LEN) + TAG_LEN` (00_scope.md R12). -/
def maxWireLen : Nat := storedBound Config.maxPlainLen + Config.tagLen

/-- `n <= MAX_PLAIN_LEN`. The first test is implied by the second, since 2^22 <= `MAX_PLAIN_LEN` (00_scope.md R10); it
lets a small length be decided without the open parameter. -/
def fitsPlain (n : Nat) : Bool := decide (n ≤ 2 ^ 22) || decide (n ≤ Config.maxPlainLen)

/-- `n <= MAX_WIRE_LEN`. The first test is implied by the second, as for `fitsPlain`. -/
def fitsWire (n : Nat) : Bool := decide (n ≤ 2 ^ 22) || decide (n ≤ maxWireLen)

/-- `b[off .. off+n)` as n bytes; 30_encoding.md R160 checks the length before any use. -/
def sliceVec (n : Nat) (b : Bytes) (off : Nat) : Vector Byte n := Vector.ofFn fun i => b.getD (off + i.val) 0

/-- INIT: `IN[0..32)` is the secret (30_encoding.md R158). -/
def initSecret (b : Bytes) : Secret := sliceVec 32 b 0

/-- INIT: `IN[32..48)` is IV_SEND (30_encoding.md R158). -/
def initIvSend (b : Bytes) : Block := sliceVec 16 b 32

/-- INIT: `IN[48..64)` is IV_RECV (30_encoding.md R158). -/
def initIvRecv (b : Bytes) : Block := sliceVec 16 b 48

/-- CSRW: `IN[0..8)` is LE64 of the value. TAG: `IN[0..8)` is LE64 of the counter (30_encoding.md R158). -/
def operandLE64 (b : Bytes) : Word64 := BitVec.ofNat 64 (fromLE (b.take 8))

/-- TAG: `IN[8..)` is the data (30_encoding.md R158). -/
def tagData (b : Bytes) : Bytes := b.drop 8

/-- The payload lengths each command admits (30_encoding.md R160); `MAX_WIRE_LEN - 8` for INFLATE is said by the sum. -/
def admitsLength (i : Instr) : Bool :=
  match i with
  | .nop p => decide (p.length = 0)
  | .init p => decide (p.length = Config.initLen)
  | .dispose p => decide (p.length = 0)
  | .csrr _ p => decide (p.length = 0)
  | .csrw _ p => decide (p.length = Config.le64Len)
  | .tag p => decide (8 ≤ p.length) && fitsWire p.length
  | .encrypt _ p => fitsWire p.length
  | .decrypt _ p => fitsWire p.length
  | .deflate p => fitsPlain p.length
  | .inflate p => fitsWire (p.length + 8)
  | .encode p => fitsPlain p.length
  | .decode p => fitsWire p.length

/-- The commands that run while STATE = FAULTED: NOP, CSRR, INIT and DISPOSE (60_exceptions.md R612). -/
def runsInFaulted (i : Instr) : Bool :=
  match i with
  | .nop _ => true
  | .init _ => true
  | .dispose _ => true
  | .csrr _ _ => true
  | .csrw _ _ => false
  | .tag _ => false
  | .encrypt _ _ => false
  | .decrypt _ _ => false
  | .deflate _ => false
  | .inflate _ => false
  | .encode _ => false
  | .decode _ => false

/-- The ID value: DOC_REV 0x0007 in [31:16], SPEC_REV 0x0001 in [15:0] (10_state.md R61). -/
def idValue : Word64 := 0x0000000000070001

/-- What a CSR reads (10_state.md R61 to R70). The bits a row does not name read as 0. -/
def csrRead (c : Csr) (s : State) : Word64 :=
  match c with
  | .id => idValue
  | .state => (stateCode s.state).zeroExtend 64
  | .fault => (s.faultOpc ++ s.faultCause ++ s.faultKind).zeroExtend 64
  | .faultSeq => s.faultSeq
  | .cmdSeq => s.cmdSeq
  | .sendCtr => s.sendCtr
  | .recvCtr => s.recvCtr
  | .compLevel => s.compLevel.zeroExtend 64
  | .maxPlainLen => BitVec.ofNat 64 Config.maxPlainLen
  | .maxWireLen => BitVec.ofNat 64 maxWireLen

/-- The selected engine's register (42_cipher.md R320). -/
def State.sr (s : State) (e : Engine) : Option Block :=
  match e with
  | .send => s.srS
  | .recv => s.srR

/-- The write of the selected engine's register (42_cipher.md R320). -/
def State.setSr (s : State) (e : Engine) (b : Block) : State :=
  match e with
  | .send => { s with srS := some b }
  | .recv => { s with srR := some b }

end Sys2Proof.Machine
end

