-- ==== Sys2Proof/Machine/Ops.lean ====
section
/-! DEFINITION. The shared operations of the command cycle: responding, taking a fatal fault and leaving one, requiring
a context, the cycle itself (40_context.md R200, R201; 60_exceptions.md R610, R611, R612), the channels' hold, and reset. -/

namespace Sys2Proof.Machine

/-- The outcome type of every meaning. -/
abbrev Result := Host.Outcome State Fault Refusal

/-- `respond(status, cause, OUT)`: the response joins `rsp_out`, its payload empty unless the status is OK
(30_encoding.md R155; 20_memory.md R102). -/
def State.respond (s : State) (st : Status) (cause : Byte) (out : Bytes) : State :=
  { s with rspOut := s.rspOut ++ [⟨statusWord st cause, if st = .ok then out else []⟩] }

/-- The last action of every command: CMD_SEQ plus 1 modulo 2^64 (40_context.md R200; 10_state.md R59). -/
def State.bumpSeq (s : State) : State := { s with cmdSeq := s.cmdSeq + 1 }

/-- The removal of the context: SECRET, SR_S and SR_R absent (40_context.md R220; 60_exceptions.md R610). -/
def State.dropContext (s : State) : State := { s with secret := none, srS := none, srR := none }

/-- TAKING A FATAL FAULT: fatal-fault entry (60_exceptions.md R610). The record is written, the context removed, STATE
becomes FAULTED, and the command responds with the fault's status and an empty payload. What the command changed before
the raise is in `s` and stays. -/
def State.raise (s : State) (kind : FaultKind) (cause : Byte) (opc : Opcode) : State :=
  State.respond
    { s.dropContext with
      faultKind := faultKindCode kind
      faultCause := cause
      faultOpc := opcodeByte opc
      faultSeq := s.cmdSeq
      state := .faulted }
    (faultStatus kind) cause []

/-- LEAVING A FAULT by a new context (60_exceptions.md R621), and what INIT does in every STATE (40_context.md R214):
the secret and one IV for each engine are loaded, both counters and the fault record are cleared, STATE is READY. -/
def State.loadContext (s : State) (secret : Secret) (ivSend ivRecv : Block) : State :=
  { s with
    secret := some secret
    srS := some ivSend
    srR := some ivRecv
    sendCtr := 0
    recvCtr := 0
    faultKind := 0
    faultCause := 0
    faultOpc := 0
    faultSeq := 0
    state := .ready }

/-- LEAVING A FAULT by disposal (60_exceptions.md R621), and what DISPOSE does in every STATE (40_context.md R220): the
context is removed, STATE is DISPOSED, the counters and the fault record are kept. -/
def State.disposeContext (s : State) : State := { s.dropContext with state := .disposed }

/-- The three elements RequireContext finds present. -/
structure Context where
  secret : Secret
  srS : Block
  srR : Block
  deriving DecidableEq, Repr

/-- The register of one engine of a context (42_cipher.md R320). -/
def Context.sr (k : Context) (e : Engine) : Block :=
  match e with
  | .send => k.srS
  | .recv => k.srR

/-- The context, when SECRET, SR_S and SR_R are all present (10_state.md R50). -/
def State.context (s : State) : Option Context :=
  match s.secret, s.srS, s.srR with
  | some k, some a, some b => some ⟨k, a, b⟩
  | _, _, _ => none

/-- `RequireContext()` (40_context.md R201), the first step of TAG, ENCRYPT, DECRYPT, ENCODE and DECODE: in UNINIT
EngineFault NO_CONTEXT, in DISPOSED EngineFault DISPOSED, before the command changes any state; else the command goes on
with the context. FAULTED was stopped by the gate. A READY state without its context is no state of the spec (10_state.md
R50); the model stops there by name. -/
def requireContext (opc : Opcode) (s : State) (perform : Context → Result) : Result :=
  match s.state with
  | .uninit => .next (s.raise .engine (engineCode .noContext) opc)
  | .disposed => .next (s.raise .engine (engineCode .disposed) opc)
  | .ready | .faulted =>
    match s.context with
    | some k => perform k
    | none => .fault .contextAbsent

/-- A refusal: a response and no other effect (60_exceptions.md R611). -/
def State.refuse (s : State) (st : Status) (cause : Byte) : State := s.respond st cause []

/-- CMD_SEQ's increment after a command's Perform (40_context.md R200). -/
def bumpResult (r : Result) : Result :=
  match r with
  | .next s => .next s.bumpSeq
  | .fault f => .fault f
  | .refused f => .refused f

/-- The command cycle after decoding (40_context.md R200): the FAULTED gate, the length check, Perform, and CMD_SEQ
last, always. -/
def commandCycle (i : Instr) (perform : State → Result) (s : State) : Result :=
  bumpResult <|
    if s.state = .faulted ∧ runsInFaulted i = false then .next (s.refuse .rejected s.faultKind)
    else if admitsLength i = false then .next (s.refuse .lengthError 0)
    else perform s

/-- A command whose word does not decode: ILLEGAL_COMMAND with its cause, in every STATE (40_context.md R200). -/
def State.illegalCommand (s : State) (c : IllegalCause) : State :=
  (s.refuse .illegalCommand (illegalCode c)).bumpSeq

/-- Whether the block holds a response the channel cannot take (20_memory.md R120): more responses are waiting than the
channel's depth. -/
def State.holding (s : State) : Bool :=
  match s.rspDepth with
  | none => false
  | some d => decide (d < s.rspOut.length)

/-- What the block does while `rst` is asserted (70_reset_and_hazards.md R700, R701): every element at its reset value,
both channels empty, whatever was in progress discarded. `rst` itself is the host's, and the channel's depth is no
element of the block. -/
def State.inReset (s : State) : State := { State.reset with rst := s.rst, rspDepth := s.rspDepth }

/-- The fetch of one command leaves the bytes after it in the channel (30_encoding.md R152). -/
def State.consumed (s : State) (rest : Bytes) : State := { s with cmdIn := rest }

end Sys2Proof.Machine
end

