-- ==== Sys2Proof/Machine/Channel.lean ====
section
/-! DEFINITION. What the host can do to the block between steps (30_encoding.md R151): submit bytes, take a response,
drive the reset input, and set how many responses its channel takes. No step calls these; they say what the environment
of `step` is. -/

namespace Sys2Proof.Machine

/-- The host submits bytes on `cmd_in`; they queue behind those already there (20_memory.md R110). While `rst` is asserted
the channel is empty and stays so: the bytes are dropped with it (70_reset_and_hazards.md R700, R701). -/
def State.submit (s : State) (bs : Bytes) : State :=
  if s.rst then s.inReset else { s with cmdIn := s.cmdIn ++ bs }

/-- The host submits one command (30_encoding.md R150, R152). -/
def State.submitCommand (s : State) (w : Word32) (payload : Bytes) : State := s.submit (commandBytes w payload)

/-- The host takes the oldest response from `rsp_out` (20_memory.md R110, R120). While `rst` is asserted there is none to
take (70_reset_and_hazards.md R700, R701). -/
def State.takeResponse (s : State) : Option (Response × State) :=
  if s.rst then none
  else match s.rspOut with
    | [] => none
    | r :: rs => some (r, { s with rspOut := rs })

/-- The host drives `rst` to a level. While it is asserted, and when it is released, every element is set to its reset value
and both channels are emptied (70_reset_and_hazards.md R700); a level that was low and stays low does nothing. -/
def State.driveReset (s : State) (level : Bool) : State :=
  if s.rst || level then ({ s with rst := level } : State).inReset else s

/-- The depth of the host's response channel (20_memory.md R120). -/
def State.setDepth (s : State) (d : Option Nat) : State := { s with rspDepth := d }

/-- The bytes `bs` placed at the front of the command channel of a block that can take a command: `rst` released, and room
for a response (log entry 6). -/
def State.presentCommand (s : State) (bs : Bytes) : State :=
  let t := s.driveReset false
  { t with cmdIn := bs ++ t.cmdIn, rspDepth := none }

end Sys2Proof.Machine
end

