-- ==== Sys2Proof/Machine/Context.lean ====
section
/-! DEFINITION. The context family: NOP, INIT, DISPOSE, CSRR, CSRW (40_context.md). -/

namespace Sys2Proof.Machine

/-- NOP: no operation (40_context.md R210). -/
def execNop (payload : Bytes) (s : State) : Result :=
  commandCycle (.nop payload) (fun s => .next (s.respond .ok 0 [])) s

/-- INIT: create the connection context from the secret and the two IVs (40_context.md R214). -/
def execInit (payload : Bytes) (s : State) : Result :=
  commandCycle (.init payload)
    (fun s => .next ((s.loadContext (initSecret payload) (initIvSend payload) (initIvRecv payload)).respond .ok 0 []))
    s

/-- DISPOSE: dispose the connection context (40_context.md R220). -/
def execDispose (payload : Bytes) (s : State) : Result :=
  commandCycle (.dispose payload) (fun s => .next (s.disposeContext.respond .ok 0 [])) s

/-- CSRR: read a CSR (40_context.md R230). -/
def execCsrr (csr : Csr) (payload : Bytes) (s : State) : Result :=
  commandCycle (.csrr csr payload) (fun s => .next (s.respond .ok 0 (le64 (csrRead csr s)))) s

/-- The Perform step of CSRW: READ_ONLY, then VALUE, then the write of COMP_LEVEL (40_context.md R232). -/
def performCsrw (csr : Csr) (payload : Bytes) (s : State) : Result :=
  let v := operandLE64 payload
  if csr ≠ .compLevel then .next (s.refuse .illegalCommand (illegalCode .readOnly))
  else if 9 < v.toNat then .next (s.refuse .illegalCommand (illegalCode .value))
  else .next (({ s with compLevel := v.extractLsb' 0 4 } : State).respond .ok 0 [])

/-- CSRW: write a CSR (40_context.md R232). -/
def execCsrw (csr : Csr) (payload : Bytes) (s : State) : Result :=
  commandCycle (.csrw csr payload) (performCsrw csr payload) s

end Sys2Proof.Machine
end

