-- ==== Sys2Proof/Machine/Sha256.lean ====
section
/-! DEFINITION. SHA-256 (41_checksum.md R250 to R257) and the tag (R260, R262). -/

namespace Sys2Proof.Machine

/-- `BE32(n)`: byte 0 is n[31:24] (00_scope.md R14). -/
def be32 (w : Word32) : Bytes :=
  [w.extractLsb' 24 8, w.extractLsb' 16 8, w.extractLsb' 8 8, w.extractLsb' 0 8]

/-- `fromBE32` of the four bytes at the front (00_scope.md R14). -/
def fromBE32 (b : Bytes) : Word32 := b.getD 0 0 ++ b.getD 1 0 ++ b.getD 2 0 ++ b.getD 3 0

/-- The least k with `(n + 1 + k) mod 64 = 56` (41_checksum.md R251). -/
def shaPadZeros (n : Nat) : Nat := (119 - n % 64) % 64

/-- The padded message P (41_checksum.md R251). -/
def shaPad (m : Bytes) : Bytes :=
  let bits := BitVec.ofNat 64 (8 * m.length)
  m ++ [0x80] ++ List.replicate (shaPadZeros m.length) 0x00 ++
    be32 (bits.extractLsb' 32 32) ++ be32 (bits.extractLsb' 0 32)

/-- The round constants as 41_checksum.md R253 prints them, eight words to a line: line n holds K[8n] to K[8n+7], the first
of them in its highest bits. -/
def shaKLines : List (BitVec 256) := [
  0x428a2f9871374491b5c0fbcfe9b5dba53956c25b59f111f1923f82a4ab1c5ed5,
  0xd807aa9812835b01243185be550c7dc372be5d7480deb1fe9bdc06a7c19bf174,
  0xe49b69c1efbe47860fc19dc6240ca1cc2de92c6f4a7484aa5cb0a9dc76f988da,
  0x983e5152a831c66db00327c8bf597fc7c6e00bf3d5a7914706ca635114292967,
  0x27b70a852e1b21384d2c6dfc53380d13650a7354766a0abb81c2c92e92722c85,
  0xa2bfe8a1a81a664bc24b8b70c76c51a3d192e819d6990624f40e3585106aa070,
  0x19a4c1161e376c082748774c34b0bcb5391c0cb34ed8aa4a5b9cca4f682e6ff3,
  0x748f82ee78a5636f84c878148cc7020890befffaa4506cebbef9a3f7c67178f2]

/-- The eight words of a line, in the order printed (41_checksum.md R253). -/
def shaLineWords (line : BitVec 256) : List Word32 :=
  (List.range 8).map fun j => line.extractLsb' (32 * (7 - j)) 32

/-- K[0] to K[63] (41_checksum.md R253). -/
def shaK : List Word32 := shaKLines.flatMap shaLineWords

/-- `Ch` (41_checksum.md R254). -/
def shaCh (x y z : Word32) : Word32 := (x &&& y) ^^^ (~~~x &&& z)

/-- `Maj` (41_checksum.md R254). -/
def shaMaj (x y z : Word32) : Word32 := (x &&& y) ^^^ (x &&& z) ^^^ (y &&& z)

/-- `Σ0` (41_checksum.md R254). -/
def shaBigSigma0 (x : Word32) : Word32 := x.rotateRight 2 ^^^ x.rotateRight 13 ^^^ x.rotateRight 22

/-- `Σ1` (41_checksum.md R254). -/
def shaBigSigma1 (x : Word32) : Word32 := x.rotateRight 6 ^^^ x.rotateRight 11 ^^^ x.rotateRight 25

/-- `σ0` (41_checksum.md R254). -/
def shaSigma0 (x : Word32) : Word32 := x.rotateRight 7 ^^^ x.rotateRight 18 ^^^ (x >>> 3)

/-- `σ1` (41_checksum.md R254). -/
def shaSigma1 (x : Word32) : Word32 := x.rotateRight 17 ^^^ x.rotateRight 19 ^^^ (x >>> 10)

/-- The hash value h0 to h7, and the working variables a to h (41_checksum.md R256). -/
structure ShaState where
  a : Word32
  b : Word32
  c : Word32
  d : Word32
  e : Word32
  f : Word32
  g : Word32
  h : Word32
  deriving DecidableEq, Repr

/-- H0 to H7 (41_checksum.md R252). -/
def shaInit : ShaState where
  a := 0x6a09e667
  b := 0xbb67ae85
  c := 0x3c6ef372
  d := 0xa54ff53a
  e := 0x510e527f
  f := 0x9b05688c
  g := 0x1f83d9ab
  h := 0x5be0cd19

/-- `n` further words of the message schedule, the newest first: with W[t-1] at position 0, W[t-2] is at 1, W[t-7] at
6, W[t-15] at 14 and W[t-16] at 15 (41_checksum.md R255). -/
def shaExtend : Nat → List Word32 → List Word32
  | 0, ws => ws
  | n + 1, ws =>
    shaExtend n ((shaSigma1 (ws.getD 1 0) + ws.getD 6 0 + shaSigma0 (ws.getD 14 0) + ws.getD 15 0) :: ws)

/-- The words `Mj[t]`, t = 0..15, of a block (41_checksum.md R251). -/
def shaBlockWords (block : Bytes) : List Word32 := (List.range 16).map fun t => fromBE32 (block.drop (4 * t))

/-- The message schedule W[0] to W[63] (41_checksum.md R255). -/
def shaSchedule (block : Bytes) : List Word32 := (shaExtend 48 (shaBlockWords block).reverse).reverse

/-- One round with K[t] and W[t] (41_checksum.md R256). -/
def shaRound (s : ShaState) (kw : Word32 × Word32) : ShaState :=
  let t1 := s.h + shaBigSigma1 s.e + shaCh s.e s.f s.g + kw.1 + kw.2
  let t2 := shaBigSigma0 s.a + shaMaj s.a s.b s.c
  ⟨t1 + t2, s.a, s.b, s.c, s.d + t1, s.e, s.f, s.g⟩

/-- The compression of one block into the hash value (41_checksum.md R256). -/
def shaCompress (s : ShaState) (block : Bytes) : ShaState :=
  let r := (shaK.zip (shaSchedule block)).foldl shaRound s
  ⟨s.a + r.a, s.b + r.b, s.c + r.c, s.d + r.d, s.e + r.e, s.f + r.f, s.g + r.g, s.h + r.h⟩

/-- The first `n` blocks of 64 bytes, in order (41_checksum.md R251). -/
def shaChunks : Nat → Bytes → List Bytes
  | 0, _ => []
  | n + 1, p => p.take 64 :: shaChunks n (p.drop 64)

/-- The digest's bytes (41_checksum.md R257). -/
def shaDigest (s : ShaState) : Bytes :=
  be32 s.a ++ be32 s.b ++ be32 s.c ++ be32 s.d ++ be32 s.e ++ be32 s.f ++ be32 s.g ++ be32 s.h

/-- `SHA256(M)` (41_checksum.md R250, R257). -/
def sha256 (m : Bytes) : Bytes :=
  let p := shaPad m
  shaDigest ((shaChunks (p.length / 64) p).foldl shaCompress shaInit)

/-- `Tag(c, p, s) = SHA256( LE64(c) ++ p ++ s )[0..8)` (41_checksum.md R260). -/
def tag (c : Word64) (p : Bytes) (s : Secret) : Bytes := (sha256 (le64 c ++ p ++ s.toList)).take 8

/-- Whether two tags match: `t[i] = u[i]` for every i = 0..7 (41_checksum.md R262). -/
def tagsMatch (t u : Bytes) : Bool := (List.range 8).all fun i => t.getD i 0 == u.getD i 0

end Sys2Proof.Machine
end

