-- ==== Sys2Proof/Machine/Checksum.lean ====
section
/-! DEFINITION. The checksum family: TAG (41_checksum.md R270). -/

namespace Sys2Proof.Machine

/-- TAG: compute a tag with the context's secret; the counter comes from IN (41_checksum.md R270). -/
def execTag (payload : Bytes) (s : State) : Result :=
  commandCycle (.tag payload)
    (fun s => requireContext .tag s fun k =>
      .next (s.respond .ok 0 (tag (operandLE64 payload) (tagData payload) k.secret)))
    s

end Sys2Proof.Machine
end

