-- ==== Sys2Proof/Machine/Aes256.lean ====
section
/-! DEFINITION. AES-256, the forward cipher (42_cipher.md R300 to R306). -/

namespace Sys2Proof.Machine

/-- Four bytes: a key word or a column (42_cipher.md R303). -/
abbrev AesWord := Vector Byte 4

/-- The S-box as a table: entry n is row n of 42_cipher.md R301, column 0 in its highest byte. -/
def sboxRows : List (BitVec 128) := [
  0x637c777bf26b6fc53001672bfed7ab76,
  0xca82c97dfa5947f0add4a2af9ca472c0,
  0xb7fd9326363ff7cc34a5e5f171d83115,
  0x04c723c31896059a071280e2eb27b275,
  0x09832c1a1b6e5aa0523bd6b329e32f84,
  0x53d100ed20fcb15b6acbbe394a4c58cf,
  0xd0efaafb434d338545f9027f503c9fa8,
  0x51a3408f929d38f5bcb6da2110fff3d2,
  0xcd0c13ec5f974417c4a77e3d645d1973,
  0x60814fdc222a908846eeb814de5e0bdb,
  0xe0323a0a4906245cc2d3ac629195e479,
  0xe7c8376d8dd54ea96c56f4ea657aae08,
  0xba78252e1ca6b4c6e8dd741f4bbd8b8a,
  0x703eb5664803f60e613557b986c11d9e,
  0xe1f8981169d98e949b1e87e9ce5528df,
  0x8ca1890dbfe6426841992d0fb054bb16]

/-- `Sbox(a)`: the row is the high nibble of a, the column its low nibble (42_cipher.md R301). -/
def sbox (a : Byte) : Byte :=
  (sboxRows.getD (a.toNat / 16) 0).extractLsb' (8 * (15 - a.toNat % 16)) 8

/-- `xtime` (42_cipher.md R300). -/
def xtime (b : Byte) : Byte := (b <<< 1) ^^^ (if b.getLsbD 7 then 0x1B else 0x00)

/-- Multiplication in GF(2^8) modulo x^8 + x^4 + x^3 + x + 1, the second factor's bits from the least significant on, `n`
of them (42_cipher.md R300). -/
def gfMulBits : Nat → Byte → Byte → Byte
  | 0, _, _ => 0
  | n + 1, a, b => (if b.getLsbD 0 then a else 0) ^^^ gfMulBits n (xtime a) (b >>> 1)

/-- The product in GF(2^8) (42_cipher.md R300). -/
def gfMul (a b : Byte) : Byte := gfMulBits 8 a b

/-- The affine map A of the S-box's definition (42_cipher.md R301). The cipher reads the table `sboxRows`. -/
def sboxAffine (b : Byte) : Byte :=
  b ^^^ b.rotateLeft 1 ^^^ b.rotateLeft 2 ^^^ b.rotateLeft 3 ^^^ b.rotateLeft 4 ^^^ 0x63

/-- Multiplication by 2 in GF(2^8) (42_cipher.md R300). -/
def gfMul2 (b : Byte) : Byte := xtime b

/-- Multiplication by 3 in GF(2^8) (42_cipher.md R300). -/
def gfMul3 (b : Byte) : Byte := xtime b ^^^ b

/-- `s[r][c]` of a block: `in[r + 4c]` (42_cipher.md R300). -/
def aesAt (s : Block) (r c : Fin 4) : Byte := s[r.val + 4 * c.val]

/-- The block whose `s[r][c]` is `f r c`: `out[r + 4c] = s[r][c]` (42_cipher.md R300). -/
def aesBlock (f : Fin 4 → Fin 4 → Byte) : Block :=
  #v[f 0 0, f 1 0, f 2 0, f 3 0,
     f 0 1, f 1 1, f 2 1, f 3 1,
     f 0 2, f 1 2, f 2 2, f 3 2,
     f 0 3, f 1 3, f 2 3, f 3 3]

/-- `SubBytes` (42_cipher.md R302). -/
def subBytes (s : Block) : Block := aesBlock fun r c => sbox (aesAt s r c)

/-- `ShiftRows`: `s'[r][c] = s[r][(c + r) mod 4]`; addition in `Fin 4` is modulo 4 (42_cipher.md R302). -/
def shiftRows (s : Block) : Block := aesBlock fun r c => aesAt s r (c + r)

/-- `MixColumns` (42_cipher.md R302). -/
def mixColumns (s : Block) : Block := aesBlock fun r c =>
  let a0 := aesAt s 0 c
  let a1 := aesAt s 1 c
  let a2 := aesAt s 2 c
  let a3 := aesAt s 3 c
  match r with
  | 0 => gfMul2 a0 ^^^ gfMul3 a1 ^^^ a2 ^^^ a3
  | 1 => a0 ^^^ gfMul2 a1 ^^^ gfMul3 a2 ^^^ a3
  | 2 => a0 ^^^ a1 ^^^ gfMul2 a2 ^^^ gfMul3 a3
  | 3 => gfMul3 a0 ^^^ a1 ^^^ a2 ^^^ gfMul2 a3

/-- `RotWord` (42_cipher.md R303). -/
def rotWord (w : AesWord) : AesWord := #v[w[1], w[2], w[3], w[0]]

/-- `SubWord` (42_cipher.md R303). -/
def subWord (w : AesWord) : AesWord := #v[sbox w[0], sbox w[1], sbox w[2], sbox w[3]]

/-- The bytewise xor of two words (42_cipher.md R305). -/
def xorWord (a b : AesWord) : AesWord := #v[a[0] ^^^ b[0], a[1] ^^^ b[1], a[2] ^^^ b[2], a[3] ^^^ b[3]]

/-- `Rcon[j]`, j = 1..7 (42_cipher.md R303). -/
def rcon (j : Nat) : AesWord :=
  #v[([0x00, 0x01, 0x02, 0x04, 0x08, 0x10, 0x20, 0x40] : Bytes).getD j 0x00, 0x00, 0x00, 0x00]

/-- The zero word, read only where no word stands. -/
def zeroWord : AesWord := #v[0, 0, 0, 0]

/-- `n` further words of the key schedule, the newest first: with i words made, w[i-1] is at position 0 and w[i-8] at 7
(42_cipher.md R305). -/
def keyExtend : Nat → List AesWord → List AesWord
  | 0, ws => ws
  | n + 1, ws =>
    let i := ws.length
    let t := ws.getD 0 zeroWord
    let t :=
      if i % 8 = 0 then xorWord (subWord (rotWord t)) (rcon (i / 8))
      else if i % 8 = 4 then subWord t
      else t
    keyExtend n (xorWord (ws.getD 7 zeroWord) t :: ws)

/-- `w[i] = K[4i .. 4i+4)`, i = 0..7 (42_cipher.md R305). -/
def keyWord (k : Secret) (i : Fin 8) : AesWord :=
  #v[k[4 * i.val], k[4 * i.val + 1], k[4 * i.val + 2], k[4 * i.val + 3]]

/-- The key schedule, 60 words (42_cipher.md R304, R305). -/
def keyExpansion (k : Secret) : List AesWord :=
  (keyExtend 52 [keyWord k 7, keyWord k 6, keyWord k 5, keyWord k 4,
    keyWord k 3, keyWord k 2, keyWord k 1, keyWord k 0]).reverse

/-- `AddRoundKey(k)`: `s[r][c] xor w[4k + c][r]` (42_cipher.md R302). -/
def addRoundKey (w : List AesWord) (k : Nat) (s : Block) : Block :=
  aesBlock fun r c => aesAt s r c ^^^ (w.getD (4 * k + c.val) zeroWord)[r.val]

/-- The rounds 1 to n, each SubBytes, ShiftRows, MixColumns, AddRoundKey (42_cipher.md R306). -/
def aesRounds (w : List AesWord) : Nat → Block → Block
  | 0, s => s
  | n + 1, s => addRoundKey w (n + 1) (mixColumns (shiftRows (subBytes (aesRounds w n s))))

/-- `AES256(K, in)` (42_cipher.md R306). -/
def aes256 (k : Secret) (input : Block) : Block :=
  let w := keyExpansion k
  addRoundKey w 14 (shiftRows (subBytes (aesRounds w 13 (addRoundKey w 0 input))))

end Sys2Proof.Machine
end

