-- ==== Sys2Proof/Machine/Cfb8.lean ====
section
/-! DEFINITION. The CFB8 engine (42_cipher.md R311, R312). -/

namespace Sys2Proof.Machine

/-- The keystream byte `AES256(K, SR)[0]` (42_cipher.md R311). -/
def keystreamByte (k : Secret) (sr : Block) : Byte := (aes256 k sr)[0]

/-- `SR[1..16) ++ [c]` (42_cipher.md R311). -/
def shiftIn (sr : Block) (c : Byte) : Block := ⟨(sr.toList.drop 1 ++ [c]).toArray, by simp⟩

/-- `EncByte(K, SR, p)` (42_cipher.md R311). -/
def encByte (k : Secret) (sr : Block) (p : Byte) : Byte × Block :=
  let c := p ^^^ keystreamByte k sr
  (c, shiftIn sr c)

/-- `DecByte(K, SR, c)`: the ciphertext byte, not the plaintext, is shifted in (42_cipher.md R312). -/
def decByte (k : Secret) (sr : Block) (c : Byte) : Byte × Block :=
  (c ^^^ keystreamByte k sr, shiftIn sr c)

/-- `Enc(K, SR, P)`: the ciphertext bytes and the final register (42_cipher.md R311). -/
def enc (k : Secret) : Block → Bytes → Bytes × Block
  | sr, [] => ([], sr)
  | sr, p :: ps =>
    let r := encByte k sr p
    let q := enc k r.2 ps
    (r.1 :: q.1, q.2)

/-- `Dec(K, SR, C)`: the plaintext bytes and the final register (42_cipher.md R312). -/
def dec (k : Secret) : Block → Bytes → Bytes × Block
  | sr, [] => ([], sr)
  | sr, c :: cs =>
    let r := decByte k sr c
    let q := dec k r.2 cs
    (r.1 :: q.1, q.2)

end Sys2Proof.Machine
end

