-- ==== Sys2Proof/Machine/Cipher.lean ====
section
/-! DEFINITION. The cipher family: ENCRYPT, DECRYPT (42_cipher.md R320, R321). -/

namespace Sys2Proof.Machine

/-- ENCRYPT: encipher with one engine; only its register is written (42_cipher.md R320). -/
def execEncrypt (sel : Engine) (payload : Bytes) (s : State) : Result :=
  commandCycle (.encrypt sel payload)
    (fun s => requireContext .encrypt s fun k =>
      let r := enc k.secret (k.sr sel) payload
      .next ((s.setSr sel r.2).respond .ok 0 r.1))
    s

/-- DECRYPT: decipher with one engine; only its register is written (42_cipher.md R321). -/
def execDecrypt (sel : Engine) (payload : Bytes) (s : State) : Result :=
  commandCycle (.decrypt sel payload)
    (fun s => requireContext .decrypt s fun k =>
      let r := dec k.secret (k.sr sel) payload
      .next ((s.setSr sel r.2).respond .ok 0 r.1))
    s

end Sys2Proof.Machine
end

