-- ==== Sys2Proof/Machine/Inflater.lean ====
section
/-! DEFINITION. The strict inflater of raw DEFLATE (43_compression.md R350 to R360, R380 to R382). A reader's position is
`pos`, the number of bits consumed of C. Every `.error` is a `raise Fault(DECODE_FAULT, cause)`. -/

namespace Sys2Proof.Machine

/-- `ReadBit()`: bit `pos and 7` of byte `pos >> 3`; past the end, TRUNCATED (43_compression.md R350). -/
def readBit (inp : Bytes) (pos : Nat) : Except DecodeCause (Nat × Nat) :=
  match inp[pos / 8]? with
  | none => .error .truncated
  | some b => .ok ((b.getLsbD (pos % 8)).toNat, pos + 1)

/-- `ReadBits(n)`: the first bit read is bit 0 of the value (43_compression.md R350). -/
def readBits (inp : Bytes) : Nat → Nat → Except DecodeCause (Nat × Nat)
  | 0, pos => .ok (0, pos)
  | n + 1, pos =>
    match readBit inp pos with
    | .error e => .error e
    | .ok (b, pos) =>
      match readBits inp n pos with
      | .error e => .error e
      | .ok (v, pos) => .ok (b + 2 * v, pos)

/-- `Align()`: `8 * ceil(pos / 8)` (43_compression.md R350). -/
def alignPos (pos : Nat) : Nat := 8 * ((pos + 7) / 8)

/-- A Huffman decoder (43_compression.md R353): `counts` is count[1] to count[15], `symbols` is symbol[]. -/
structure Huffman where
  counts : List Nat
  symbols : List Nat
  deriving DecidableEq, Repr

/-- The decoder of a code given by the length of each symbol: count[l] for l = 1..15, and the symbols of nonzero length
sorted by length and then by value (43_compression.md R353). -/
def huffman (lens : List Nat) : Huffman where
  counts := (List.range' 1 15).map fun l => lens.count l
  symbols := (List.range' 1 15).flatMap fun l => lens.zipIdx.filterMap fun (len, s) => if len = l then some s else none

/-- The loop of `HDecode` over the counts still to come (43_compression.md R353). -/
def hdecodeFrom (inp : Bytes) (symbols : List Nat) :
    List Nat → (code first index pos : Nat) → Except DecodeCause (Nat × Nat)
  | [], _, _, _, _ => .error .badCode
  | cnt :: counts, code, first, index, pos =>
    match readBit inp pos with
    | .error e => .error e
    | .ok (b, pos) =>
      let code := code ||| b
      if code < first + cnt then .ok (symbols.getD (index + (code - first)) 0, pos)
      else hdecodeFrom inp symbols counts (code <<< 1) ((first + cnt) <<< 1) (index + cnt) pos

/-- `HDecode(h)`: the symbol and the position after it (43_compression.md R353). -/
def hdecode (h : Huffman) (inp : Bytes) (pos : Nat) : Except DecodeCause (Nat × Nat) :=
  hdecodeFrom inp h.symbols h.counts 0 0 0 pos

/-- The loop of `Left(h)` over the counts still to come (43_compression.md R354). -/
def leftFrom : List Nat → Int → Int
  | [], left => left
  | cnt :: counts, left =>
    let left := 2 * left - cnt
    if left < 0 then left else leftFrom counts left

/-- `Left(h)`: 0 complete (an empty code counts as complete), above 0 incomplete, below 0 over-subscribed
(43_compression.md R354). -/
def codeLeft (lens : List Nat) : Int :=
  if lens.all (· == 0) then 0 else leftFrom (huffman lens).counts 1

/-- Whether a literal/length or distance code is usable: complete, or incomplete with exactly one symbol of nonzero
length, that length 1 (43_compression.md R354). -/
def codeUsable (lens : List Nat) : Bool :=
  let left := codeLeft lens
  left == 0 || (decide (0 < left) && lens.filter (· != 0) == [1])

/-- Extra bits and base of the length symbols 257 to 285 (43_compression.md R356). -/
def lengthTable : List (Nat × Nat) := [
  (0, 3), (0, 4), (0, 5), (0, 6), (0, 7), (0, 8), (0, 9), (0, 10),
  (1, 11), (1, 13), (1, 15), (1, 17),
  (2, 19), (2, 23), (2, 27), (2, 31),
  (3, 35), (3, 43), (3, 51), (3, 59),
  (4, 67), (4, 83), (4, 99), (4, 115),
  (5, 131), (5, 163), (5, 195), (5, 227),
  (0, 258)]

/-- Extra bits and base of the distance symbols 0 to 29 (43_compression.md R357). -/
def distTable : List (Nat × Nat) := [
  (0, 1), (0, 2), (0, 3), (0, 4), (1, 5), (1, 7), (2, 9), (2, 13), (3, 17), (3, 25),
  (4, 33), (4, 49), (5, 65), (5, 97), (6, 129), (6, 193), (7, 257), (7, 385), (8, 513), (8, 769),
  (9, 1025), (9, 1537), (10, 2049), (10, 3073), (11, 4097), (11, 6145), (12, 8193), (12, 12289), (13, 16385), (13, 24577)]

/-- The literal/length lengths of the fixed code (43_compression.md R358). -/
def fixedLitLens : List Nat :=
  List.replicate 144 8 ++ List.replicate 112 9 ++ List.replicate 24 7 ++ List.replicate 8 8

/-- The distance lengths of the fixed code (43_compression.md R358). -/
def fixedDistLens : List Nat := List.replicate 32 5

/-- `len` bytes copied one by one from distance `d` behind the end of the output (43_compression.md R360). -/
def copyMatch : Nat → Nat → Bytes → Bytes
  | 0, _, out => out
  | len + 1, d, out => copyMatch len d (out ++ [out.getD (out.length - d) 0])

/-- A length and a distance after a length symbol, and the copy (43_compression.md R360): the position and the output
after it. -/
def matchData (dist : Huffman) (inp : Bytes) (sym pos : Nat) (out : Bytes) : Except DecodeCause (Nat × Bytes) := do
  let (lext, lbase) := lengthTable.getD (sym - 257) (0, 0)
  let (lbits, pos) ← readBits inp lext pos
  let len := lbase + lbits
  let (dsym, pos) ← hdecode dist inp pos
  if 30 ≤ dsym then .error .badSymbol
  else
    let (dext, dbase) := distTable.getD dsym (0, 0)
    let (dbits, pos) ← readBits inp dext pos
    let d := dbase + dbits
    if out.length < d then .error .badDistance
    else if fitsPlain (out.length + len) = false then .error .outputLimit
    else .ok (pos, copyMatch len d out)

/-- One turn of Huffman block data (43_compression.md R360): whether it read the end of the block, and the position and the
output after it. -/
def blockSymbol (lit dist : Huffman) (inp : Bytes) (pos : Nat) (out : Bytes) :
    Except DecodeCause (Bool × Nat × Bytes) :=
  match hdecode lit inp pos with
  | .error e => .error e
  | .ok (sym, pos) =>
    if sym < 256 then
      if fitsPlain (out.length + 1) = false then .error .outputLimit
      else .ok (false, pos, out ++ [BitVec.ofNat 8 sym])
    else if sym = 256 then .ok (true, pos, out)
    else if 286 ≤ sym then .error .badSymbol
    else
      match matchData dist inp sym pos out with
      | .error e => .error e
      | .ok (pos, out) => .ok (false, pos, out)

/-- Huffman block data until end of block (43_compression.md R360). Each turn consumes at least one bit, so `fuel` above
the number of bits left is never used up; log entry 8. -/
def blockData (lit dist : Huffman) (inp : Bytes) : Nat → Nat → Bytes → Except DecodeCause (Nat × Bytes)
  | 0, _, _ => .error .truncated
  | fuel + 1, pos, out =>
    match blockSymbol lit dist inp pos out with
    | .error e => .error e
    | .ok (true, pos, out) => .ok (pos, out)
    | .ok (false, pos, out) => blockData lit dist inp fuel pos out

/-- The order in which a dynamic header gives the code-length code's lengths (43_compression.md R359). -/
def codeLengthOrder : List Nat := [16, 17, 18, 0, 8, 7, 9, 6, 10, 5, 11, 4, 12, 3, 13, 2, 14, 1, 15]

/-- `n` 3-bit code lengths, in the order read (43_compression.md R359, step 2). -/
def readLens3 (inp : Bytes) : Nat → Nat → Except DecodeCause (List Nat × Nat)
  | 0, pos => .ok ([], pos)
  | n + 1, pos => do
    let (l, pos) ← readBits inp 3 pos
    let (ls, pos) ← readLens3 inp n pos
    .ok (l :: ls, pos)

/-- The lengths of the code-length symbols 0 to 18 from the lengths in the order read; a symbol not reached has length 0
(43_compression.md R359, step 2). -/
def codeLengthLens (read : List Nat) : List Nat :=
  (List.range 19).map fun s => read.getD (codeLengthOrder.idxOf s) 0

/-- A repeat of `len`, `base` times plus its extra bits; past `n` lengths BAD_CODE, after the extra bits are read
(43_compression.md R359, step 3). -/
def repeatLen (inp : Bytes) (n : Nat) (lens : List Nat) (len base extra pos : Nat) :
    Except DecodeCause (List Nat × Nat) := do
  let (r, pos) ← readBits inp extra pos
  if n < lens.length + (base + r) then .error .badCode
  else .ok (lens ++ List.replicate (base + r) len, pos)

/-- One symbol of the code-length code, and what it adds to the lengths (43_compression.md R359, step 3). -/
def readLenSymbol (clc : Huffman) (inp : Bytes) (n : Nat) (lens : List Nat) (pos : Nat) :
    Except DecodeCause (List Nat × Nat) := do
  let (sym, pos) ← hdecode clc inp pos
  if sym < 16 then .ok (lens ++ [sym], pos)
  else if sym = 16 then
    match lens.getLast? with
    | none => .error .badCode
    | some prev => repeatLen inp n lens prev 3 2 pos
  else if sym = 17 then repeatLen inp n lens 0 3 3 pos
  else repeatLen inp n lens 0 11 7 pos

/-- Code lengths until there are `n` of them (43_compression.md R359, step 3). Each turn adds at least one, so `n` turns
are enough. -/
def readLens (clc : Huffman) (inp : Bytes) (n : Nat) : Nat → List Nat → Nat → Except DecodeCause (List Nat × Nat)
  | 0, lens, pos => .ok (lens, pos)
  | fuel + 1, lens, pos =>
    if n ≤ lens.length then .ok (lens, pos)
    else match readLenSymbol clc inp n lens pos with
      | .error e => .error e
      | .ok (lens, pos) => readLens clc inp n fuel lens pos

/-- The header of a dynamic block: the literal/length code, the distance code and the position after it
(43_compression.md R359). -/
def dynamicHeader (inp : Bytes) (pos : Nat) : Except DecodeCause (Huffman × Huffman × Nat) := do
  let (hlitBits, pos) ← readBits inp 5 pos
  let (hdistBits, pos) ← readBits inp 5 pos
  let (hclenBits, pos) ← readBits inp 4 pos
  let hlit := hlitBits + 257
  let hdist := hdistBits + 1
  let hclen := hclenBits + 4
  if 286 < hlit ∨ 30 < hdist then .error .badCounts
  else
    let (read, pos) ← readLens3 inp hclen pos
    let clcLens := codeLengthLens read
    if codeLeft clcLens ≠ 0 then .error .badCode
    else
      let (lens, pos) ← readLens (huffman clcLens) inp (hlit + hdist) (hlit + hdist) [] pos
      let litLens := lens.take hlit
      let distLens := lens.drop hlit
      if litLens.getD 256 0 = 0 then .error .badCode
      else if codeUsable litLens = false then .error .badCode
      else if codeUsable distLens = false then .error .badCode
      else .ok (huffman litLens, huffman distLens, pos)

/-- A stored block after its header bits: LEN, the position and the output after it (43_compression.md R352, R380). -/
def storedBlock (inp : Bytes) (pos : Nat) (out : Bytes) : Except DecodeCause (Nat × Nat × Bytes) :=
  let pos := alignPos pos
  if 8 * inp.length < pos + 32 then .error .truncated
  else
    let len := fromLE ((inp.drop (pos / 8)).take 2)
    let nlen := fromLE ((inp.drop (pos / 8 + 2)).take 2)
    let pos := pos + 32
    if nlen ≠ len ^^^ 0xFFFF then .error .badStoredLen
    else if inp.length < pos / 8 + len then .error .truncated
    else if fitsPlain (out.length + len) = false then .error .outputLimit
    else .ok (len, pos + 8 * len, out ++ (inp.drop (pos / 8)).take len)

/-- What a block was (43_compression.md R351); a stored block with its LEN. -/
inductive BlockKind where
  | stored (len : Nat) | fixed | dynamic
  deriving DecidableEq, Repr

/-- One block read: BFINAL, what it was, and the bit position its header starts at. -/
structure BlockInfo where
  final : Bool
  kind : BlockKind
  start : Nat
  deriving DecidableEq, Repr

/-- The body of a block of type `btype` (43_compression.md R351, R380): what it was, the position and the output after
it. -/
def blockBody (inp : Bytes) (btype pos : Nat) (out : Bytes) : Except DecodeCause (BlockKind × Nat × Bytes) :=
  if btype = 0 then do
    let (len, pos, out) ← storedBlock inp pos out
    .ok (.stored len, pos, out)
  else if btype = 1 then do
    let (pos, out) ← blockData (huffman fixedLitLens) (huffman fixedDistLens) inp (8 * inp.length + 1) pos out
    .ok (.fixed, pos, out)
  else if btype = 2 then do
    let (lit, dist, pos) ← dynamicHeader inp pos
    let (pos, out) ← blockData lit dist inp (8 * inp.length + 1) pos out
    .ok (.dynamic, pos, out)
  else .error .badBlockType

/-- The loop of `Inflate` over the blocks, with the termination of 43_compression.md R380 and R381; the blocks read are
kept, oldest first, for R372. Each turn consumes at least three bits, so `fuel` above the number of bits left is never
used up; log entry 8. -/
def inflateFrom (inp : Bytes) : Nat → Nat → List BlockInfo → Bytes → Except DecodeCause (List BlockInfo × Bytes)
  | 0, _, _, _ => .error .truncated
  | fuel + 1, pos, blocks, out =>
    match readBits inp 1 pos with
    | .error e => .error e
    | .ok (bfinal, bodyPos) =>
      match readBits inp 2 bodyPos with
      | .error e => .error e
      | .ok (btype, bodyPos) =>
        match blockBody inp btype bodyPos out with
        | .error e => .error e
        | .ok (kind, endPos, out) =>
          let blocks := blocks ++ [⟨bfinal == 1, kind, pos⟩]
          let n := (endPos + 7) / 8
          if bfinal = 1 then
            if n < inp.length then .error .trailingData else .ok (blocks, out)
          else if n = inp.length then .ok (blocks, out)
          else inflateFrom inp fuel endPos blocks out

/-- `Inflate(C)` with the blocks it read (43_compression.md R380). -/
def inflateBlocks (inp : Bytes) : Except DecodeCause (List BlockInfo × Bytes) :=
  inflateFrom inp (8 * inp.length + 1) 0 [] []

/-- `Inflate(C)` (43_compression.md R380). -/
def inflate (inp : Bytes) : Except DecodeCause Bytes :=
  match inflateBlocks inp with
  | .error e => .error e
  | .ok (_, out) => .ok out

end Sys2Proof.Machine
end

