-- ==== Sys2Proof/Machine/Compressor.lean ====
section
/-! DEFINITION. The compressor: level 0 in full (43_compression.md R371), levels 1 to 9 by their properties (R372). -/

namespace Sys2Proof.Machine

/-- One non-final stored block that starts on a byte boundary (43_compression.md R371). -/
def storedChunk (ch : Bytes) : Bytes :=
  [0x00] ++ leBytes 2 ch.length ++ leBytes 2 (ch.length ^^^ 0xFFFF) ++ ch

/-- The loop of `Deflate0`: stored blocks of at most 65535 bytes (43_compression.md R371). Each turn takes at least one
byte, so as many turns as bytes are enough. -/
def storedChunks : Nat → Bytes → Bytes
  | 0, _ => []
  | fuel + 1, p =>
    if p = [] then []
    else storedChunk (p.take Config.storedMax) ++ storedChunks fuel (p.drop Config.storedMax)

/-- `Deflate0(P)` (43_compression.md R371). -/
def deflate0 (p : Bytes) : Bytes := storedChunks p.length p ++ Config.syncMarker

/-- Whether a block read from C is the marker of a synchronous flush (43_compression.md R370): BFINAL = 0, stored, LEN = 0
(and so NLEN = 0xFFFF); where it starts on a byte boundary, C is SYNC_MARKER from there on, its padding bits 0. Where it
starts inside a byte, R370 gives its padding bits no value. -/
def isSyncBlock (c : Bytes) (b : BlockInfo) : Bool :=
  !b.final && b.kind == .stored 0 && (b.start % 8 != 0 || c.drop (b.start / 8) == Config.syncMarker)

/-- Whether C is a compressed form of P that 43_compression.md R372 admits: (a) it inflates to P, (b) every block has
BFINAL = 0, (c) the last block is the marker of R370, (d) its length is at most STORED_BOUND. -/
def admissible (p c : Bytes) : Bool :=
  match inflateBlocks c with
  | .error _ => false
  | .ok (blocks, out) =>
    out == p && blocks.all (fun b => !b.final) && blocks.getLast?.any (isSyncBlock c) &&
      decide (c.length ≤ storedBound p.length)

/-- `DEFLATE_l(P)` for l = 1..9: the implementation's own compressed form where it has the properties of
43_compression.md R372, else `Deflate0(P)`, as R372 (d) says. With (e) and (f) by being a function, every compressor R372
admits is one of these, and each of these is one. Log entry 3. -/
def deflateOpen (l : BitVec 4) (p : Bytes) : Bytes :=
  if admissible p (Config.compressor l p) then Config.compressor l p else deflate0 p

/-- What DEFLATE and ENCODE compress with: `Deflate0` at level 0, else `DEFLATE_l` (43_compression.md R390). -/
def deflateLevel (l : BitVec 4) (p : Bytes) : Bytes := if l = 0 then deflate0 p else deflateOpen l p

end Sys2Proof.Machine
end

