-- ==== Sys2Proof/Machine/Compression.lean ====
section
/-! DEFINITION. The compression family: DEFLATE, INFLATE (43_compression.md R390, R391). -/

namespace Sys2Proof.Machine

/-- DEFLATE: compress one packet at COMP_LEVEL; no context is needed and nothing is written (43_compression.md R390). -/
def execDeflate (payload : Bytes) (s : State) : Result :=
  commandCycle (.deflate payload) (fun s => .next (s.respond .ok 0 (deflateLevel s.compLevel payload))) s

/-- INFLATE: decompress one packet; a raise inside it is a fatal DecodeFault (43_compression.md R391). -/
def execInflate (payload : Bytes) (s : State) : Result :=
  commandCycle (.inflate payload)
    (fun s =>
      match inflate payload with
      | .error e => .next (s.raise .decode (decodeCode e) .inflate)
      | .ok p => .next (s.respond .ok 0 p))
    s

end Sys2Proof.Machine
end

