-- ==== Sys2Proof/Machine/Packet.lean ====
section
/-! DEFINITION. The packet family: ENCODE, DECODE (44_packet.md R450, R460). -/

namespace Sys2Proof.Machine

/-- The unit before enciphering, `U = C ++ T` (44_packet.md R440): the compressed payload and its tag. -/
def framedUnit (level : BitVec 4) (ctr : Word64) (secret : Secret) (p : Bytes) : Bytes :=
  let c := deflateLevel level p
  c ++ tag ctr c secret

/-- The Perform step of ENCODE past RequireContext, steps (1) to (6) (44_packet.md R450). -/
def performEncode (payload : Bytes) (s : State) (k : Context) : Result :=
  let r := enc k.secret k.srS (framedUnit s.compLevel s.sendCtr k.secret payload)
  .next (({ s with srS := some r.2, sendCtr := s.sendCtr + 1 } : State).respond .ok 0 r.1)

/-- ENCODE: frame one outbound packet (44_packet.md R450). -/
def execEncode (payload : Bytes) (s : State) : Result :=
  commandCycle (.encode payload) (fun s => requireContext .encode s (performEncode payload s)) s

/-- Steps (2) to (6) of DECODE on the deciphered unit U, with the counter the tag is checked against; `s` already has
SR_R advanced and RECV_CTR incremented (44_packet.md R460, R461, R462). -/
def finishDecode (u : Bytes) (ctr : Word64) (secret : Secret) (s : State) : Result :=
  if u.length < Config.tagLen then .next (s.raise .integrity (integrityCode .shortUnit) .decode)
  else
    let c := u.take (u.length - Config.tagLen)
    let t := u.drop (u.length - Config.tagLen)
    if tagsMatch (tag ctr c secret) t = false then .next (s.raise .integrity (integrityCode .tagMismatch) .decode)
    else
      match inflate c with
      | .error e => .next (s.raise .decode (decodeCode e) .decode)
      | .ok p => .next (s.respond .ok 0 p)

/-- The Perform step of DECODE past RequireContext (44_packet.md R460). -/
def performDecode (payload : Bytes) (s : State) (k : Context) : Result :=
  let r := dec k.secret k.srR payload
  finishDecode r.1 s.recvCtr k.secret { s with srR := some r.2, recvCtr := s.recvCtr + 1 }

/-- DECODE: unframe one inbound wire unit (44_packet.md R460). -/
def execDecode (payload : Bytes) (s : State) : Result :=
  commandCycle (.decode payload) (fun s => requireContext .decode s (performDecode payload s)) s

end Sys2Proof.Machine
end

