-- ==== Sys2Proof/Machine/Dispatch.lean ====
section
/-! DEFINITION. The dispatch: one arm per constructor of `Instr`. -/

namespace Sys2Proof.Machine

/-- The meaning of a command: the cycle of 40_context.md R200 after decoding. -/
def exec (i : Instr) (s : State) : Host.Outcome State Fault Refusal :=
  match i with
  | .nop payload => Sys2Proof.Machine.execNop payload s
  | .init payload => Sys2Proof.Machine.execInit payload s
  | .dispose payload => Sys2Proof.Machine.execDispose payload s
  | .csrr csr payload => Sys2Proof.Machine.execCsrr csr payload s
  | .csrw csr payload => Sys2Proof.Machine.execCsrw csr payload s
  | .tag payload => Sys2Proof.Machine.execTag payload s
  | .encrypt sel payload => Sys2Proof.Machine.execEncrypt sel payload s
  | .decrypt sel payload => Sys2Proof.Machine.execDecrypt sel payload s
  | .deflate payload => Sys2Proof.Machine.execDeflate payload s
  | .inflate payload => Sys2Proof.Machine.execInflate payload s
  | .encode payload => Sys2Proof.Machine.execEncode payload s
  | .decode payload => Sys2Proof.Machine.execDecode payload s

end Sys2Proof.Machine
end

