-- ==== Sys2Proof/Machine/Step.lean ====
section
/-! DEFINITION. One step of the machine. -/

namespace Sys2Proof.Machine

/-- One step. While `rst` is asserted the block stands at its reset values (70_reset_and_hazards.md R700). While it holds
a response the channel cannot take, it starts no command (20_memory.md R120). With no whole command in `cmd_in` it waits,
its state unchanged (60_exceptions.md R646). Else it takes the command at the front and runs it whole: one command is one
step (20_memory.md R110, R111; 40_context.md R200). Log entry 5. -/
def step (s : State) : Host.Outcome State Fault Refusal :=
  if s.rst then .next s.inReset
  else if s.holding then .next s
  else match decode s.cmdIn with
    | .incomplete => .next s
    | .illegal cause rest => .next ((s.consumed rest).illegalCommand cause)
    | .command i rest => exec i (s.consumed rest)

/-- The command whose bits are `w` placed where `step` takes its next command (log entry 6). -/
def State.withFetchWord (s : State) (nbits w : Nat) : State := s.presentCommand (layoutWord nbits w)

end Sys2Proof.Machine
end

