-- ==== Sys2Proof/Machine/Assembler.lean ====
section
/-! DEFINITION. The assembler syntax and its pseudo-commands (30_encoding.md R163, R164): from one line of text to the
command word and the payload it stands for. The text is a list of characters. -/

namespace Sys2Proof.Machine

/-- What a line is made of. -/
inductive AsmToken where
  /-- A mnemonic, a CSR name or an integer. -/
  | word (cs : List Char)
  /-- A data operand: a hexadecimal or an ASCII string (30_encoding.md R163). -/
  | data (bs : Bytes)
  | comma
  deriving DecidableEq, Repr

/-- The double quote. -/
def asmQuote : Char := Char.ofNat 34

/-- The characters of a word. -/
def asmWordChar (ch : Char) : Bool := ch.isAlphanum || ch == '_' || ch == '.'

/-- The value of a hexadecimal digit. -/
def asmHexDigit (ch : Char) : Option Nat :=
  if '0' ≤ ch ∧ ch ≤ '9' then some (ch.toNat - '0'.toNat)
  else if 'a' ≤ ch ∧ ch ≤ 'f' then some (ch.toNat - 'a'.toNat + 10)
  else if 'A' ≤ ch ∧ ch ≤ 'F' then some (ch.toNat - 'A'.toNat + 10)
  else none

/-- The bytes of a hexadecimal string, lowest byte first (30_encoding.md R163; 00_scope.md R14). -/
def asmHexBytes : List Char → Option Bytes
  | [] => some []
  | [_] => none
  | a :: b :: cs =>
    match asmHexDigit a, asmHexDigit b, asmHexBytes cs with
    | some x, some y, some bs => some (BitVec.ofNat 8 (16 * x + y) :: bs)
    | _, _, _ => none

/-- The bytes of an ASCII string: its characters' codes (30_encoding.md R163). -/
def asmAsciiBytes (cs : List Char) : Option Bytes :=
  if cs.all fun ch => decide (ch.toNat < 128) then some (cs.map fun ch => BitVec.ofNat 8 ch.toNat) else none

/-- The tokens of a line; a semicolon starts a comment (30_encoding.md R163). Each turn consumes at least one character,
so as many turns as characters are enough. -/
def asmTokens : Nat → List Char → Option (List AsmToken)
  | _, [] => some []
  | 0, _ :: _ => none
  | fuel + 1, ch :: cs =>
    if ch = ';' then some []
    else if ch = ' ' ∨ ch = Char.ofNat 9 then asmTokens fuel cs
    else if ch = ',' then (asmTokens fuel cs).map (AsmToken.comma :: ·)
    else if ch = asmQuote then
      let body := cs.takeWhile (· != asmQuote)
      match cs.drop body.length with
      | [] => none
      | _ :: rest =>
        match asmAsciiBytes body, asmTokens fuel rest with
        | some bs, some ts => some (.data bs :: ts)
        | _, _ => none
    else if ch = 'x' ∧ cs.head? = some asmQuote then
      let body := (cs.drop 1).takeWhile (· != asmQuote)
      match cs.drop (body.length + 1) with
      | [] => none
      | _ :: rest =>
        match asmHexBytes body, asmTokens fuel rest with
        | some bs, some ts => some (.data bs :: ts)
        | _, _ => none
    else if asmWordChar ch then
      let tail := cs.takeWhile asmWordChar
      (asmTokens fuel (cs.drop tail.length)).map (AsmToken.word (ch :: tail) :: ·)
    else none

/-- The integer of a list of digits in a base. -/
def asmDigits (base : Nat) : List Char → Nat → Option Nat
  | [], v => some v
  | ch :: cs, v =>
    match asmHexDigit ch with
    | none => none
    | some d => if d < base then asmDigits base cs (base * v + d) else none

/-- A decimal or 0x hexadecimal integer below `bound` (30_encoding.md R163). -/
def asmInt (bound : Nat) (cs : List Char) : Option Nat :=
  let v := match cs with
    | [] => none
    | ['0', 'x'] => none
    | '0' :: 'x' :: ds => asmDigits 16 ds 0
    | ds => asmDigits 10 ds 0
  v.filter fun n => decide (n < bound)

/-- The CSR names (10_state.md R61). -/
def asmCsrName : Csr → List Char
  | .id => ['I', 'D']
  | .state => ['S', 'T', 'A', 'T', 'E']
  | .fault => ['F', 'A', 'U', 'L', 'T']
  | .faultSeq => ['F', 'A', 'U', 'L', 'T', '_', 'S', 'E', 'Q']
  | .cmdSeq => ['C', 'M', 'D', '_', 'S', 'E', 'Q']
  | .sendCtr => ['S', 'E', 'N', 'D', '_', 'C', 'T', 'R']
  | .recvCtr => ['R', 'E', 'C', 'V', '_', 'C', 'T', 'R']
  | .compLevel => ['C', 'O', 'M', 'P', '_', 'L', 'E', 'V', 'E', 'L']
  | .maxPlainLen => ['M', 'A', 'X', '_', 'P', 'L', 'A', 'I', 'N', '_', 'L', 'E', 'N']
  | .maxWireLen => ['M', 'A', 'X', '_', 'W', 'I', 'R', 'E', '_', 'L', 'E', 'N']

/-- A CSR operand: a CSR name, or a 12-bit number whether or not it is a CSR (30_encoding.md R163). -/
def asmCsr (cs : List Char) : Option (BitVec 12) :=
  match csrs.find? fun c => asmCsrName c == cs with
  | some c => some (csrNumber c)
  | none => (asmInt 4096 cs).map (BitVec.ofNat 12)

/-- The mnemonics, with the suffixes of ENCRYPT and DECRYPT and the pseudo-commands (30_encoding.md R163, R164). -/
inductive AsmOp where
  | plain (o : Opcode)
  | sel (o : Opcode) (e : Engine)
  | initSame
  | setLevel
  | read (c : Csr)
  deriving DecidableEq, Repr

/-- The spelling of each mnemonic, in capitals (30_encoding.md R163, R164). -/
def asmOps : List (List Char × AsmOp) := [
  (['N', 'O', 'P'], .plain .nop),
  (['I', 'N', 'I', 'T'], .plain .init),
  (['D', 'I', 'S', 'P', 'O', 'S', 'E'], .plain .dispose),
  (['C', 'S', 'R', 'R'], .plain .csrr),
  (['C', 'S', 'R', 'W'], .plain .csrw),
  (['T', 'A', 'G'], .plain .tag),
  (['E', 'N', 'C', 'R', 'Y', 'P', 'T', '.', 'S'], .sel .encrypt .send),
  (['E', 'N', 'C', 'R', 'Y', 'P', 'T', '.', 'R'], .sel .encrypt .recv),
  (['D', 'E', 'C', 'R', 'Y', 'P', 'T', '.', 'S'], .sel .decrypt .send),
  (['D', 'E', 'C', 'R', 'Y', 'P', 'T', '.', 'R'], .sel .decrypt .recv),
  (['D', 'E', 'F', 'L', 'A', 'T', 'E'], .plain .deflate),
  (['I', 'N', 'F', 'L', 'A', 'T', 'E'], .plain .inflate),
  (['E', 'N', 'C', 'O', 'D', 'E'], .plain .encode),
  (['D', 'E', 'C', 'O', 'D', 'E'], .plain .decode),
  (['I', 'N', 'I', 'T', '.', 'S', 'A', 'M', 'E'], .initSame),
  (['S', 'E', 'T', 'L', 'E', 'V', 'E', 'L'], .setLevel),
  (['R', 'D', 'S', 'T', 'A', 'T', 'E'], .read .state),
  (['R', 'D', 'F', 'A', 'U', 'L', 'T'], .read .fault),
  (['R', 'D', 'C', 'T', 'R', '.', 'S'], .read .sendCtr),
  (['R', 'D', 'C', 'T', 'R', '.', 'R'], .read .recvCtr)]

/-- A mnemonic, in any case (30_encoding.md R163). -/
def asmOp (cs : List Char) : Option AsmOp :=
  (asmOps.find? fun o => o.1 == cs.map Char.toUpper).map (·.2)

/-- The command word W the assembler builds (30_encoding.md R157, R163). -/
def asmWord (o : Opcode) (sel : BitVec 4) (csr : BitVec 12) : Word32 := csr ++ (0 : BitVec 8) ++ sel ++ opcodeByte o

/-- The operands of a mnemonic, as 30_encoding.md R163 gives them, and the command they make; `none` is no valid syntax.
Pseudo-commands are their expansions (R164). -/
def asmCommand (op : AsmOp) (operands : List AsmToken) : Option (Word32 × Bytes) :=
  match op, operands with
  | .plain .nop, [] => some (asmWord .nop 0 0, [])
  | .plain .init, [.data k, .comma, .data a, .comma, .data b] =>
    if k.length = 32 ∧ a.length = 16 ∧ b.length = 16 then some (asmWord .init 0 0, k ++ a ++ b) else none
  | .initSame, [.data k, .comma, .data a] =>
    if k.length = 32 ∧ a.length = 16 then some (asmWord .init 0 0, k ++ a ++ a) else none
  | .plain .dispose, [] => some (asmWord .dispose 0 0, [])
  | .plain .csrr, [.word c] => (asmCsr c).map fun n => (asmWord .csrr 0 n, [])
  | .read c, [] => some (asmWord .csrr 0 (csrNumber c), [])
  | .plain .csrw, [.word c, .comma, .word v] =>
    match asmCsr c, asmInt (2 ^ 64) v with
    | some n, some x => some (asmWord .csrw 0 n, le64 (BitVec.ofNat 64 x))
    | _, _ => none
  | .setLevel, [.word v] =>
    (asmInt (2 ^ 64) v).map fun x => (asmWord .csrw 0 (csrNumber .compLevel), le64 (BitVec.ofNat 64 x))
  | .plain .tag, [.word v, .comma, .data p] =>
    (asmInt (2 ^ 64) v).map fun x => (asmWord .tag 0 0, le64 (BitVec.ofNat 64 x) ++ p)
  | .plain .tag, [.word v] => (asmInt (2 ^ 64) v).map fun x => (asmWord .tag 0 0, le64 (BitVec.ofNat 64 x))
  | .sel o e, [.data p] => some (asmWord o (selOfEngine e) 0, p)
  | .plain .deflate, [.data p] => some (asmWord .deflate 0 0, p)
  | .plain .inflate, [.data p] => some (asmWord .inflate 0 0, p)
  | .plain .encode, [.data p] => some (asmWord .encode 0 0, p)
  | .plain .decode, [.data p] => some (asmWord .decode 0 0, p)
  | _, _ => none

/-- One line: `none` is no valid syntax, `some none` a line with no command (30_encoding.md R163). -/
def asmLine (line : List Char) : Option (Option (Word32 × Bytes)) :=
  match asmTokens line.length line with
  | none => none
  | some [] => some none
  | some (.word m :: operands) =>
    match asmOp m with
    | none => none
    | some op => (asmCommand op operands).map some
  | some (.data _ :: _) => none
  | some (.comma :: _) => none

end Sys2Proof.Machine
end

