-- ==== Sys2Proof/Safety.lean ====
section
/-! DEFINITION. What counts as a legal state, a legal response and a fault-free run, in the terms the statements use. -/

namespace Sys2Proof.Machine

/-- The status code of a response, R[7:0] (30_encoding.md R155). -/
def Response.status (r : Response) : Byte := r.word.extractLsb' 0 8

/-- The cause code of a response, R[15:8] (30_encoding.md R155). -/
def Response.cause (r : Response) : Byte := r.word.extractLsb' 8 8

/-- Whether a response reports a fatal fault: status 1, 2 or 3 (60_exceptions.md R600, R601). -/
def Response.isFault (r : Response) : Bool := r.status == 0x01 || r.status == 0x02 || r.status == 0x03

/-- Whether a response reports a refusal (60_exceptions.md R600, R601). -/
def Response.isRefusal (r : Response) : Bool := r.status == 0x10 || r.status == 0x11 || r.status == 0x12

/-- A run is fault-free when no response has a fault status (70_reset_and_hazards.md R730). -/
def faultFree (rs : List Response) : Bool := rs.all fun r => !r.isFault

/-- SECRET, SR_S and SR_R are present exactly when STATE = READY (10_state.md R50). -/
def State.contextInv (s : State) : Prop :=
  (s.secret.isSome ↔ s.state = .ready) ∧ (s.srS.isSome ↔ s.state = .ready) ∧ (s.srR.isSome ↔ s.state = .ready)

/-- COMP_LEVEL never holds a value outside 0..9 (10_state.md R68). -/
def State.levelInv (s : State) : Prop := s.compLevel.toNat ≤ 9

/-- The fault record: FAULT_KIND is 0 to 3 (10_state.md R58); no record stands in UNINIT and READY, since only a fatal fault
writes one and INIT clears it; in FAULTED it holds the fault that entered FAULTED (60_exceptions.md R614). -/
def State.recordInv (s : State) : Prop :=
  s.faultKind.toNat ≤ 3 ∧
  (s.state = .uninit ∨ s.state = .ready → s.faultKind = 0) ∧
  (s.faultKind = 0 → s.faultCause = 0 ∧ s.faultOpc = 0 ∧ s.faultSeq = 0) ∧
  (s.state = .faulted → s.faultKind ≠ 0)

/-- The architectural invariant of every reachable state. -/
def State.Inv (s : State) : Prop := s.contextInv ∧ s.levelInv ∧ s.recordInv

/-- A response the block can make: one of the seven status codes, zero above bit 15, no payload unless the status is OK,
and a payload of at most MAX_WIRE_LEN bytes (30_encoding.md R155, R158; 60_exceptions.md R601). -/
def Response.legal (r : Response) : Prop :=
  (r.status = 0x00 ∨ r.isFault = true ∨ r.isRefusal = true) ∧
  r.word.extractLsb' 16 16 = 0 ∧
  (r.status ≠ 0x00 → r.out = []) ∧
  r.out.length ≤ maxWireLen

/-- The state after a command whose only effects are its response and CMD_SEQ (40_context.md R200; 10_state.md R59). -/
def State.answer (s : State) (word : Word32) (out : Bytes) : State :=
  { s with cmdSeq := s.cmdSeq + 1, rspOut := s.rspOut ++ [⟨word, out⟩] }

/-- The state after a command that ends with a fatal fault, on the state it left before the raise: fatal-fault entry,
written out field by field (60_exceptions.md R610), and CMD_SEQ. -/
def State.faultedBy (s : State) (kind cause opc : Byte) : State :=
  { s with
    state := .faulted
    secret := none
    srS := none
    srR := none
    faultKind := kind
    faultCause := cause
    faultOpc := opc
    faultSeq := s.cmdSeq
    cmdSeq := s.cmdSeq + 1
    rspOut := s.rspOut ++ [⟨(cause ++ kind).zeroExtend 32, []⟩] }

/-- The FAULTED gate stops the command: STATE is FAULTED and the opcode is none of NOP, CSRR, INIT and DISPOSE
(60_exceptions.md R612). -/
def gated (i : Instr) (s : State) : Prop :=
  s.state = .faulted ∧ instrOpcode i ∉ [Opcode.nop, .csrr, .init, .dispose]

/-- The table of admitted payload lengths (30_encoding.md R160). -/
def lengthAdmitted (i : Instr) : Prop :=
  match instrOpcode i with
  | .nop | .dispose | .csrr => i.payload.length = 0
  | .init => i.payload.length = 64
  | .csrw => i.payload.length = 8
  | .tag => 8 ≤ i.payload.length ∧ i.payload.length ≤ maxWireLen
  | .encrypt | .decrypt | .decode => i.payload.length ≤ maxWireLen
  | .deflate | .encode => i.payload.length ≤ Config.maxPlainLen
  | .inflate => i.payload.length ≤ maxWireLen - 8

/-- The whole cycle of one command `(W, L, IN)`, decoding included (40_context.md R200). -/
def execWord (w : Word32) (payload : Bytes) (s : State) : Host.Outcome State Fault Refusal :=
  match decodeWord w payload with
  | .error c => .next (s.answer ((illegalCode c ++ statusCode .illegalCommand).zeroExtend 32) [])
  | .ok i => exec i s

/-- Commands, each a word and a payload, performed one after another, each on the state the one before it left
(20_memory.md R110). -/
def runWords : List (Word32 × Bytes) → State → Host.Outcome State Fault Refusal
  | [], s => .next s
  | (w, p) :: cs, s =>
    match execWord w p s with
    | .next t => runWords cs t
    | .fault f => .fault f
    | .refused f => .refused f

/-- What a host that drains its response channel does next: let the block make a step, or take the oldest response
(20_memory.md R120). -/
inductive HostTurn where
  | step | take
  deriving DecidableEq, Repr

/-- A run under such a host: the responses it took, in the order it took them, and the state it ends in. A turn of taking
takes nothing where no response waits. -/
def runTurns : List HostTurn → State → Host.Outcome (List Response × State) Fault Refusal
  | [], s => .next ([], s)
  | .step :: turns, s =>
    match step s with
    | .next t => runTurns turns t
    | .fault f => .fault f
    | .refused f => .refused f
  | .take :: turns, s =>
    match s.takeResponse with
    | none => runTurns turns s
    | some (r, t) =>
      match runTurns turns t with
      | .next (rs, u) => .next (r :: rs, u)
      | .fault f => .fault f
      | .refused f => .refused f

/-- The bytes of commands submitted one after another (30_encoding.md R152). -/
def commandsBytes (cs : List (Word32 × Bytes)) : Bytes := cs.flatMap fun c => commandBytes c.1 c.2

/-- What of the state is not the secret or an engine's register (10_state.md R54, R55; 20_memory.md R103). -/
def State.hideContext (s : State) : State := { s with secret := none, srS := none, srR := none }

/-- The commands that read or move the secret or an engine (40_context.md R201). -/
def usesContext (i : Instr) : Prop := instrOpcode i ∈ [Opcode.tag, .encrypt, .decrypt, .encode, .decode]

/-- The bits of C from bit `pos` on are the code `code` of `len` bits, most significant bit first (43_compression.md R350,
R353). -/
def codeAt (inp : Bytes) (pos len code : Nat) : Prop :=
  ∀ j < len, ∃ b, inp[(pos + j) / 8]? = some b ∧ b.getLsbD ((pos + j) % 8) = code.testBit (len - 1 - j)

/-- Huffman block data ends, by its own end or by a fault, within this many turns of its loop (43_compression.md R360; log
entry 8): having no turn left is not an end. -/
def blockDataEnds (lit dist : Huffman) (inp : Bytes) : Nat → Nat → Bytes → Prop
  | 0, _, _ => False
  | turns + 1, pos, out =>
    match blockSymbol lit dist inp pos out with
    | .error _ => True
    | .ok (true, _, _) => True
    | .ok (false, pos, out) => blockDataEnds lit dist inp turns pos out

/-- The loop of Inflate over the blocks ends, by a fault, a final block or the end of C, within this many turns
(43_compression.md R380; log entry 8). -/
def inflateEnds (inp : Bytes) : Nat → Nat → Bytes → Prop
  | 0, _, _ => False
  | turns + 1, pos, out =>
    match readBits inp 1 pos with
    | .error _ => True
    | .ok (bfinal, pos) =>
      match readBits inp 2 pos with
      | .error _ => True
      | .ok (btype, pos) =>
        match blockBody inp btype pos out with
        | .error _ => True
        | .ok (_, pos, out) => bfinal = 1 ∨ (pos + 7) / 8 = inp.length ∨ inflateEnds inp turns pos out

/-- The loop over the code lengths of a dynamic header ends, with `n` lengths read or by a fault, within this many turns
(43_compression.md R359; log entry 8). -/
def readLensEnds (clc : Huffman) (inp : Bytes) (n : Nat) : Nat → List Nat → Nat → Prop
  | 0, lens, _ => n ≤ lens.length
  | turns + 1, lens, pos =>
    n ≤ lens.length ∨
      match readLenSymbol clc inp n lens pos with
      | .error _ => True
      | .ok (lens, pos) => readLensEnds clc inp n turns lens pos

/-- The length and the code of each symbol of the fixed literal/length code, from the ranges of 43_compression.md R358. -/
def fixedLitCode (sym : Nat) : Nat × Nat :=
  if sym ≤ 143 then (8, 0b00110000 + sym)
  else if sym ≤ 255 then (9, 0b110010000 + (sym - 144))
  else if sym ≤ 279 then (7, sym - 256)
  else (8, 0b11000000 + (sym - 280))

/-- Commands performed one after another, each on the state the one before it left (20_memory.md R110). -/
def runCommands : List Instr → State → Host.Outcome State Fault Refusal
  | [], s => .next s
  | i :: is, s =>
    match exec i s with
    | .next t => runCommands is t
    | .fault f => .fault f
    | .refused f => .refused f

/-- The commands of the SEND direction, the shared ones among them (20_memory.md R116). -/
def ofSendDirection (i : Instr) : Bool :=
  match i with
  | .encode _ => true
  | .encrypt e _ => e == .send
  | .decrypt e _ => e == .send
  | .init _ => true
  | .dispose _ => true
  | .csrw _ _ => true
  | .tag _ => true
  | .decode _ => false
  | .nop _ => false
  | .csrr _ _ => false
  | .deflate _ => false
  | .inflate _ => false

/-- The commands of the RECV direction, the shared ones among them (20_memory.md R116). -/
def ofRecvDirection (i : Instr) : Bool :=
  match i with
  | .decode _ => true
  | .encrypt e _ => e == .recv
  | .decrypt e _ => e == .recv
  | .init _ => true
  | .dispose _ => true
  | .csrw _ _ => true
  | .tag _ => true
  | .encode _ => false
  | .nop _ => false
  | .csrr _ _ => false
  | .deflate _ => false
  | .inflate _ => false

/-- The block is READY with this context (10_state.md R50). -/
def State.hasContext (s : State) (k : Context) : Prop :=
  s.state = .ready ∧ s.secret = some k.secret ∧ s.srS = some k.srS ∧ s.srR = some k.srR

/-- B can decode what A encodes: the two hold the same secret, A's SEND register and counter are B's RECV register and
counter (44_packet.md R470). -/
def mirrored (a b : State) : Prop :=
  ∃ ka kb : Context, a.hasContext ka ∧ b.hasContext kb ∧
    ka.secret = kb.secret ∧ ka.srS = kb.srR ∧ a.sendCtr = b.recvCtr

end Sys2Proof.Machine
end

