-- ==== Sys2Proof/Certificates/Slice0/Obligations.lean ====
section
/-! DEFINITION. What is claimed of the BPFE: one `Prop` per claim, each from the numbered rules of spec/. -/

open Sys2Proof Sys2Proof.Machine

/-! ## Encoding -/

/-- Decoding the encoding of a well-formed command gives it back, whatever bytes follow (30_encoding.md §1, §3, §4). -/
def Obligations.DecodeOfEncode : Prop :=
  ∀ (i : Instr) (rest : Bytes), i.wf = true → decode (encode i ++ rest) = .command i rest

/-- The converse: bytes that decode to a command are its encoding and what follows it; so no two byte strings are one
command, and every bit of the word, the length and the payload counts (30_encoding.md §1, §3, §4). -/
def Obligations.EncodeOfDecode : Prop :=
  ∀ (bs : Bytes) (i : Instr) (rest : Bytes), decode bs = .command i rest → i.wf = true ∧ bs = encode i ++ rest

/-- One word of each family, written out from the patterns of the opcode map (30_encoding.md §3), decodes to its command. -/
def Obligations.DecodeSampleWords : Prop :=
  decodeWord 0b00000000000000000000000000000010#32 [] = .ok (.dispose []) ∧
  decodeWord 0b00000010000000000000000000001001#32 [5] = .ok (.csrw .compLevel [5]) ∧
  decodeWord 0b00000000000000000000000000010000#32 [] = .ok (.tag []) ∧
  decodeWord 0b00000000000000000000000100100001#32 [7] = .ok (.decrypt .recv [7]) ∧
  decodeWord 0b00000000000000000000000000110001#32 [1, 2] = .ok (.inflate [1, 2]) ∧
  decodeWord 0b00000000000000000000000001000000#32 [] = .ok (.encode [])

/-- `Decode(W)` of 30_encoding.md R159, its checks in its order; the payload is attached and changes nothing. -/
def Obligations.DecodeCheckOrder : Prop :=
  ∀ (w : Word32) (p : Bytes),
    let opc := w.extractLsb' 0 8
    let sel := w.extractLsb' 8 4
    let rsvd := w.extractLsb' 12 8
    let csr := w.extractLsb' 20 12
    if opc ∉ ([0x00, 0x01, 0x02, 0x08, 0x09, 0x10, 0x20, 0x21, 0x30, 0x31, 0x40, 0x41] : List (BitVec 8)) then
      decodeWord w p = .error .opcode
    else if rsvd ≠ 0 then decodeWord w p = .error .reserved
    else if (opc ∈ ([0x20, 0x21] : List (BitVec 8)) ∧ 1 < sel.toNat) ∨
        (opc ∉ ([0x20, 0x21] : List (BitVec 8)) ∧ sel ≠ 0) then
      decodeWord w p = .error .sel
    else if opc ∈ ([0x08, 0x09] : List (BitVec 8)) ∧
        csr ∉ ([0x000, 0x001, 0x002, 0x003, 0x004, 0x010, 0x011, 0x020, 0x030, 0x031] : List (BitVec 12)) then
      decodeWord w p = .error .csr
    else if opc ∉ ([0x08, 0x09] : List (BitVec 8)) ∧ csr ≠ 0 then decodeWord w p = .error .reserved
    else ∃ i : Instr, decodeWord w p = .ok i ∧ opcodeByte (instrOpcode i) = opc ∧ instrSel i = sel ∧
      instrCsr i = csr ∧ i.payload = p

/-- How commands and responses travel (30_encoding.md R152): a command is `LE32(W) ++ LE32(L) ++ IN`, a response
`LE32(R) ++ LE32(M) ++ OUT`; exactly L payload bytes are read whatever the opcode, so a command that does not decode is
consumed whole; a command is seen only when it has arrived whole; L is at most 2^32 - 1. -/
def Obligations.ChannelFraming : Prop :=
  (∀ (w : Word32) (p rest : Bytes), p.length < 2 ^ 32 →
    decode (leBytes 4 w.toNat ++ leBytes 4 p.length ++ p ++ rest) =
      match decodeWord w p with
      | .error c => .illegal c rest
      | .ok i => .command i rest) ∧
  (∀ (w : Word32) (p : Bytes) (n : Nat), p.length < 2 ^ 32 → n < 8 + p.length →
    decode ((leBytes 4 w.toNat ++ leBytes 4 p.length ++ p).take n) = .incomplete) ∧
  (∀ (bs : Bytes) (w : Word32) (p rest : Bytes), splitCommand bs = some (w, p, rest) → p.length ≤ 2 ^ 32 - 1) ∧
  (∀ r : Response, r.bytes = leBytes 4 r.word.toNat ++ leBytes 4 r.out.length ++ r.out)

/-- The pseudo-commands and their expansions (30_encoding.md R164). -/
def Obligations.AssemblerPseudoCommands : Prop :=
  (∀ k a : Bytes, asmOp "INIT.SAME".toList = some .initSame ∧ asmOp "INIT".toList = some (.plain .init) ∧
    asmCommand .initSame [.data k, .comma, .data a] =
      asmCommand (.plain .init) [.data k, .comma, .data a, .comma, .data a]) ∧
  (∀ n : List Char, asmOp "SETLEVEL".toList = some .setLevel ∧ asmOp "CSRW".toList = some (.plain .csrw) ∧
    asmCommand .setLevel [.word n] =
      asmCommand (.plain .csrw) [.word "COMP_LEVEL".toList, .comma, .word n]) ∧
  asmLine "RDSTATE".toList = asmLine "CSRR STATE".toList ∧
  asmLine "RDFAULT".toList = asmLine "CSRR FAULT".toList ∧
  asmLine "RDCTR.S".toList = asmLine "CSRR SEND_CTR".toList ∧
  asmLine "RDCTR.R".toList = asmLine "CSRR RECV_CTR".toList ∧
  asmLine "CSRR STATE".toList = some (some (0x00100008, []))

/-- Every command a line assembles to decodes, but for a CSR number that names no CSR (30_encoding.md §4, §5). That exception
is the model's choice, log entry 14 (DESIGN CHOICE): 30_encoding.md R163 has a CSR operand be 'a CSR name of 10_state.md
rule R61 or its number', and the model's assembler takes any 12-bit number, since V-EN8 of 95_test_vectors.md assembles
`CSRR 0x005`, a number that is no CSR. -/
def Obligations.AssembledLineDecodes : Prop :=
  ∀ (line : List Char) (w : Word32) (p : Bytes), asmLine line = some (some (w, p)) →
    (∃ i : Instr, decodeWord w p = .ok i) ∨
      ((w.extractLsb' 0 8 = 0x08 ∨ w.extractLsb' 0 8 = 0x09) ∧ decodeWord w p = .error .csr)

/-- The status word R, and `respond`: status in [7:0], cause in [15:8], zero above; the payload only when the status is OK;
in every response of a command the cause is 0 for OK and LENGTH_ERROR (30_encoding.md R155). -/
def Obligations.StatusWordFormat : Prop :=
  (∀ (st : Status) (cause : Byte), (statusWord st cause).extractLsb' 0 8 = statusCode st ∧
    (statusWord st cause).extractLsb' 8 8 = cause ∧ (statusWord st cause).extractLsb' 16 16 = 0) ∧
  (statusCode .ok = 0x00 ∧ statusCode .engineFault = 0x01 ∧ statusCode .decodeFault = 0x02 ∧
    statusCode .integrityFault = 0x03 ∧ statusCode .illegalCommand = 0x10 ∧ statusCode .lengthError = 0x11 ∧
    statusCode .rejected = 0x12) ∧
  (∀ (s : State) (st : Status) (cause : Byte) (out : Bytes),
    (s.respond st cause out).rspOut =
      s.rspOut ++ [⟨statusWord st cause, if st = .ok then out else []⟩]) ∧
  (∀ (i : Instr) (s t : State) (r : Response), exec i s = .next t → t.rspOut = s.rspOut ++ [r] →
    r.word.extractLsb' 16 16 = 0 ∧ (r.status = 0x00 ∨ r.status = 0x11 → r.cause = 0))

/-! ## The step and the channels -/

/-- A step of a block out of reset, holding nothing, with a command at the front of `cmd_in` runs that command on the state
whose channel holds the bytes after it; and the command is well formed. -/
def Obligations.StepRunsDecodedCommand : Prop :=
  ∀ (s : State) (i : Instr) (rest : Bytes), s.rst = false → s.holding = false → decode s.cmdIn = .command i rest →
    i.wf = true ∧ step s = exec i { s with cmdIn := rest }

/-- A step out of reset that finds no command that decodes: a whole command that does not decode is answered with
ILLEGAL_COMMAND and its cause and changes nothing else but CMD_SEQ and the channels, in every STATE (30_encoding.md §3, §4;
40_context.md §1); and while no command has arrived whole the block waits with its state unchanged (60_exceptions.md §5). -/
def Obligations.StepWithoutLegalCommand : Prop :=
  (∀ (s : State) (c : IllegalCause) (rest : Bytes), s.rst = false → s.holding = false →
    decode s.cmdIn = .illegal c rest →
    step s = .next
      { s with
        cmdIn := rest
        cmdSeq := s.cmdSeq + 1
        rspOut := s.rspOut ++
          [⟨match c with
            | .opcode => 0x00000110
            | .reserved => 0x00000210
            | .sel => 0x00000310
            | .csr => 0x00000410
            | .readOnly => 0x00000510
            | .value => 0x00000610, []⟩] }) ∧
  (∀ s : State, s.rst = false → decode s.cmdIn = .incomplete → step s = .next s)

/-- The hold (20_memory.md R120): no step drops or reorders a response, and while the channel cannot take a response the
block makes no step on a command, for ever if the host never drains it. How deep the channel is, is the model's own field
(log entry 4). -/
def Obligations.HoldKeepsResponses : Prop :=
  (∀ s t : State, s.rst = false → step s = .next t → s.rspOut <+: t.rspOut) ∧
  (∀ (s : State) (d : Nat), s.rst = false → s.rspDepth = some d → d < s.rspOut.length →
    ∀ n, Sys2Proof.core.run n s = .next s) ∧
  (∀ (s t : State) (d : Nat), s.rst = false → s.rspDepth = some d → s.rspOut.length ≤ d → step s = .next t →
    t.rspOut.length ≤ d + 1)

/-- Reset (70_reset_and_hazards.md R700): while `rst` is asserted, and when it is released, whatever the host submitted
meanwhile, every element stands at its reset value, both channels are empty and `fault_o` is 0; after the release the block
waits, and its first command has index 0. -/
def Obligations.ResetClearsEverything : Prop :=
  (∀ s t : State,
    (s.rst = true ∧ (step s = .next t ∨ t = s.driveReset false ∨ ∃ bs, t = (s.submit bs).driveReset false)) ∨
      t = s.driveReset true →
    t.state = .uninit ∧ t.secret = none ∧ t.srS = none ∧ t.srR = none ∧ t.sendCtr = 0 ∧ t.recvCtr = 0 ∧
      t.faultKind = 0 ∧ t.faultCause = 0 ∧ t.faultOpc = 0 ∧ t.faultSeq = 0 ∧ t.cmdSeq = 0 ∧
      t.compLevel.toNat = Config.defaultCompLevel.val ∧ t.cmdIn = [] ∧ t.rspOut = [] ∧ t.faultO = false) ∧
  (∀ s : State, s.rst = true → ∃ t, step s = .next t ∧ t.rst = true) ∧
  (∀ s : State, s.rst = true →
    (s.driveReset false).rst = false ∧ step (s.driveReset false) = .next (s.driveReset false))

/-- The reset values of every state element (10_state.md R76). -/
def Obligations.ResetValues : Prop :=
  State.reset.state = .uninit ∧ stateCode .uninit = 0 ∧
  State.reset.secret = none ∧ State.reset.srS = none ∧ State.reset.srR = none ∧
  State.reset.sendCtr = 0 ∧ State.reset.recvCtr = 0 ∧
  State.reset.faultKind = 0 ∧ State.reset.faultCause = 0 ∧ State.reset.faultOpc = 0 ∧ State.reset.faultSeq = 0 ∧
  State.reset.cmdSeq = 0 ∧
  State.reset.compLevel.toNat = Config.defaultCompLevel.val ∧
  State.reset.cmdIn = [] ∧ State.reset.rspOut = []

/-- Commands run one at a time in submission order, each on the state the one before it left, and each response stands
behind the earlier ones; a command that does not decode is one of them (20_memory.md §3, §5; 30_encoding.md §1). One command
is one step of the model (log entry 5), and how many responses the channel takes is its own field (log entry 4). With no
bound, as many steps as commands perform them all. Each command adds exactly one response, at the end. With any depth, and
a host that takes responses whenever it likes, what it has taken and what waits are the responses of the commands
performed, in order; and a host that takes after each step gets every response. -/
def Obligations.CommandsRunInSubmissionOrder : Prop :=
  ∀ (cs : List (Word32 × Bytes)) (s : State), (∀ c ∈ cs, c.2.length < 2 ^ 32) → s.cmdIn = [] → s.rst = false →
    (s.rspDepth = none → Sys2Proof.core.run cs.length (s.submit (commandsBytes cs)) = runWords cs s) ∧
    (∀ t : State, runWords cs s = .next t → ∀ n ≤ cs.length, ∃ (u : State) (rs rs' : List Response),
      runWords (cs.take n) s = .next u ∧ u.rspOut = s.rspOut ++ rs ∧ rs.length = n ∧
        t.rspOut = u.rspOut ++ rs' ∧ rs'.length = cs.length - n) ∧
    (∀ (turns : List HostTurn) (taken : List Response) (u : State),
      runTurns turns (s.submit (commandsBytes cs)) = .next (taken, u) →
      ∃ (n : Nat) (t : State), n ≤ cs.length ∧ runWords (cs.take n) s = .next t ∧ taken ++ u.rspOut = t.rspOut ∧
        u = { t with cmdIn := commandsBytes (cs.drop n), rspOut := u.rspOut }) ∧
    (∀ t : State, s.rspOut = [] → runWords cs s = .next t →
      runTurns (cs.flatMap fun _ => [.step, .take]) (s.submit (commandsBytes cs)) =
        .next (t.rspOut, { t with rspOut := [] }))

/-! ## The command cycle -/

/-- Every command whose context invariant holds ends in a next state with exactly one response; CMD_SEQ counts it, and only
that increment and reset write CMD_SEQ (10_state.md R59). -/
def Obligations.CmdSeqCountsCommands : Prop :=
  (∀ (w : Word32) (p : Bytes) (s : State), s.contextInv →
    ∃ (t : State) (r : Response), execWord w p s = .next t ∧ t.rspOut = s.rspOut ++ [r] ∧ t.cmdSeq = s.cmdSeq + 1 ∧
      t.cmdIn = s.cmdIn ∧ t.rspDepth = s.rspDepth ∧ t.rst = s.rst) ∧
  (∀ s : State, exec (.csrr .cmdSeq []) s = .next (s.answer 0 (leBytes 8 s.cmdSeq.toNat))) ∧
  (∀ s t : State, step s = .next t →
    if s.rst = true then t.cmdSeq = 0
    else t.cmdSeq = s.cmdSeq + BitVec.ofNat 64 (t.rspOut.length - s.rspOut.length) ∧
      t.rspOut.length ≤ s.rspOut.length + 1) ∧
  State.reset.cmdSeq = 0

/-- The admitted payload lengths (30_encoding.md R160): past decoding and the gate, a command of another length ends with
LENGTH_ERROR, cause 0, and changes nothing but CMD_SEQ; no other command ends so. -/
def Obligations.LengthCheck : Prop :=
  ∀ (i : Instr) (s : State),
    (¬ gated i s → ¬ lengthAdmitted i → exec i s = .next (s.answer 0x00000011 [])) ∧
    (gated i s ∨ lengthAdmitted i →
      ∀ (t : State) (r : Response), exec i s = .next t → t.rspOut = s.rspOut ++ [r] → r.status ≠ 0x11)

/-- The FAULTED gate (60_exceptions.md R612): in FAULTED, NOP, CSRR, INIT and DISPOSE run; every other command that decodes
ends with REJECTED, cause FAULT_KIND, whatever its length, and changes nothing but CMD_SEQ; a reserved opcode is still
ILLEGAL_COMMAND. -/
def Obligations.FaultedGate : Prop :=
  ∀ s : State, s.state = .faulted →
    (∀ i : Instr, instrOpcode i ∈ [Opcode.csrw, .tag, .encrypt, .decrypt, .deflate, .inflate, .encode, .decode] →
      exec i s = .next (s.answer ((s.faultKind ++ (0x12 : Byte)).zeroExtend 32) [])) ∧
    (∀ i : Instr, instrOpcode i ∈ [Opcode.nop, .csrr, .init, .dispose] →
      ∃ (t : State) (r : Response), exec i s = .next t ∧ t.rspOut = s.rspOut ++ [r] ∧
        (r.status = 0x00 ∨ r.status = 0x11)) ∧
    (∀ (w : Word32) (p : Bytes), opcodeOfByte (w.extractLsb' 0 8) = none →
      execWord w p s = .next (s.answer 0x00000110 []))

/-- A refusal changes no state but CMD_SEQ (60_exceptions.md R611). -/
def Obligations.RefusalChangesNothing : Prop :=
  ∀ (w : Word32) (p : Bytes) (s t : State) (r : Response),
    execWord w p s = .next t → t.rspOut = s.rspOut ++ [r] → r.isRefusal = true →
    t = { s with cmdSeq := s.cmdSeq + 1, rspOut := s.rspOut ++ [⟨r.word, []⟩] }

/-- Fatal-fault entry (60_exceptions.md R610): the record names the fault, the command and its index, the context is gone,
STATE is FAULTED, the payload is empty; what the command changed before the raise is kept; both counters and COMP_LEVEL
survive. -/
def Obligations.FatalFaultEntry : Prop :=
  ∀ (i : Instr) (s t : State) (r : Response),
    exec i s = .next t → t.rspOut = s.rspOut ++ [r] → r.isFault = true →
    t.faultKind = r.status ∧ t.faultCause = r.cause ∧ t.faultOpc = (encodeWord i).extractLsb' 0 8 ∧
      t.faultSeq = s.cmdSeq ∧ t.secret = none ∧ t.srS = none ∧ t.srR = none ∧ t.state = .faulted ∧ r.out = [] ∧
      t.sendCtr = s.sendCtr ∧ t.compLevel = s.compLevel ∧
      t.recvCtr = (if instrOpcode i = .decode ∧ r.status ≠ 0x01 then s.recvCtr + 1 else s.recvCtr) ∧
      (r.status = 0x01 ∨ r.status = 0x02 ∨ r.status = 0x03)

/-- Which commands can end with which fault (60_exceptions.md §1, the tables of causes and of commands). -/
def Obligations.FaultsByCommand : Prop :=
  ∀ (i : Instr) (s t : State) (r : Response),
    exec i s = .next t → t.rspOut = s.rspOut ++ [r] → r.isFault = true →
    let engineFault := r.status = 0x01 ∧
      ((s.state = .uninit ∧ r.cause = 1) ∨ (s.state = .disposed ∧ r.cause = 2))
    let decodeFault := r.status = 0x02 ∧ 1 ≤ r.cause.toNat ∧ r.cause.toNat ≤ 9
    let integrityFault := r.status = 0x03 ∧ ((r.cause = 2 ∧ i.payload.length < 8) ∨
      (r.cause = 1 ∧ 8 ≤ i.payload.length))
    s.state ≠ .faulted ∧
    match instrOpcode i with
    | .nop | .init | .dispose | .csrr | .csrw | .deflate => False
    | .tag | .encrypt | .decrypt | .encode => engineFault
    | .inflate => decodeFault
    | .decode => engineFault ∨ decodeFault ∨ integrityFault

/-- The three ways out of FAULTED (60_exceptions.md R621): INIT loads a context and clears the record, DISPOSE keeps the
record, reset restores every reset value; no other command leaves it. -/
def Obligations.LeavingFaulted : Prop :=
  ∀ s : State, s.state = .faulted →
    (∀ p : Bytes, p.length = 64 → ∃ t, exec (.init p) s = .next t ∧ t.state = .ready ∧ t.secret.isSome ∧
      t.srS.isSome ∧ t.srR.isSome ∧ t.faultKind = 0 ∧ t.faultCause = 0 ∧ t.faultOpc = 0 ∧ t.faultSeq = 0) ∧
    (∃ t, exec (.dispose []) s = .next t ∧ t.state = .disposed ∧ t.faultKind = s.faultKind ∧
      t.faultCause = s.faultCause ∧ t.faultOpc = s.faultOpc ∧ t.faultSeq = s.faultSeq ∧ t.secret = none ∧
      t.srS = none ∧ t.srR = none) ∧
    (s.driveReset true = { State.reset with rst := true, rspDepth := s.rspDepth }) ∧
    (∀ (w : Word32) (p : Bytes) (t : State), execWord w p s = .next t → t.state ≠ .faulted →
      decodeWord w p = .ok (.init p) ∧ p.length = 64 ∨ decodeWord w p = .ok (.dispose p) ∧ p = [])

/-- RequireContext (40_context.md R201): TAG, ENCRYPT, DECRYPT, ENCODE and DECODE, of an admitted length, take EngineFault
NO_CONTEXT in UNINIT and EngineFault DISPOSED in DISPOSED, before they change any state. -/
def Obligations.EngineFaultWithoutContext : Prop :=
  ∀ (i : Instr) (s : State), usesContext i → lengthAdmitted i →
    (s.state = .uninit → exec i s = .next (s.faultedBy 1 1 (opcodeByte (instrOpcode i)))) ∧
    (s.state = .disposed → exec i s = .next (s.faultedBy 1 2 (opcodeByte (instrOpcode i))))

/-- What writes SEND_CTR (10_state.md R56) and RECV_CTR (10_state.md R57): INIT and reset clear both; ENCODE adds 1 to
SEND_CTR when it ends with OK; DECODE adds 1 to RECV_CTR past its checks, whether the tag matches or not; nothing else. -/
def Obligations.CounterWrites : Prop :=
  (∀ (i : Instr) (s t : State) (r : Response), exec i s = .next t → t.rspOut = s.rspOut ++ [r] →
    t.sendCtr = (if instrOpcode i = .init ∧ r.status = 0x00 then 0
      else if instrOpcode i = .encode ∧ r.status = 0x00 then s.sendCtr + 1 else s.sendCtr) ∧
    t.recvCtr = (if instrOpcode i = .init ∧ r.status = 0x00 then 0
      else if instrOpcode i = .decode ∧ (r.status = 0x00 ∨ r.status = 0x02 ∨ r.status = 0x03) then s.recvCtr + 1
      else s.recvCtr)) ∧
  (∀ (w : Word32) (p : Bytes) (c : IllegalCause) (s t : State), decodeWord w p = .error c →
    execWord w p s = .next t → t.sendCtr = s.sendCtr ∧ t.recvCtr = s.recvCtr) ∧
  (∀ s t : State, step s = .next t → s.rst = true → t.sendCtr = 0 ∧ t.recvCtr = 0) ∧
  (∀ s t : State, step s = .next t → s.rst = false → t.rspOut = s.rspOut →
    t.sendCtr = s.sendCtr ∧ t.recvCtr = s.recvCtr)

/-- Which commands write which state (10_state.md R75), by the outcome r of the command; an engine is 'advanced' by the bytes
the command feeds it: ENCODE the framed unit, ENCRYPT, DECRYPT and DECODE their payload. -/
def Obligations.WriteTable : Prop :=
  (∀ (i : Instr) (s t : State) (r : Response), exec i s = .next t → t.rspOut = s.rspOut ++ [r] →
    let ok := r.status = 0x00
    let init := ok ∧ instrOpcode i = .init
    let dispose := ok ∧ instrOpcode i = .dispose
    let fault := r.isFault = true
    (t.state = if fault then .faulted else if init then .ready else if dispose then .disposed else s.state) ∧
    (t.secret = if fault ∨ dispose then none else if init then some (initSecret i.payload) else s.secret) ∧
    (if fault ∨ dispose then t.srS = none
      else if init then t.srS = some (initIvSend i.payload)
      else if ok ∧ instrOpcode i = .encode then
        ∃ k b, s.secret = some k ∧ s.srS = some b ∧
          t.srS = some (enc k b (framedUnit s.compLevel s.sendCtr k i.payload)).2
      else if ok ∧ instrOpcode i = .encrypt ∧ instrSel i = 0 then
        ∃ k b, s.secret = some k ∧ s.srS = some b ∧ t.srS = some (enc k b i.payload).2
      else if ok ∧ instrOpcode i = .decrypt ∧ instrSel i = 0 then
        ∃ k b, s.secret = some k ∧ s.srS = some b ∧ t.srS = some (dec k b i.payload).2
      else t.srS = s.srS) ∧
    (if fault ∨ dispose then t.srR = none
      else if init then t.srR = some (initIvRecv i.payload)
      else if ok ∧ (instrOpcode i = .decode ∨ instrOpcode i = .decrypt ∧ instrSel i = 1) then
        ∃ k b, s.secret = some k ∧ s.srR = some b ∧ t.srR = some (dec k b i.payload).2
      else if ok ∧ instrOpcode i = .encrypt ∧ instrSel i = 1 then
        ∃ k b, s.secret = some k ∧ s.srR = some b ∧ t.srR = some (enc k b i.payload).2
      else t.srR = s.srR) ∧
    (t.sendCtr = if init then 0 else if ok ∧ instrOpcode i = .encode then s.sendCtr + 1 else s.sendCtr) ∧
    (t.recvCtr = if init then 0
      else if instrOpcode i = .decode ∧ (ok ∨ r.status = 0x02 ∨ r.status = 0x03) then s.recvCtr + 1 else s.recvCtr) ∧
    (if fault then t.faultKind = r.status ∧ t.faultCause = r.cause ∧ t.faultOpc = opcodeByte (instrOpcode i) ∧
        t.faultSeq = s.cmdSeq
      else if init then t.faultKind = 0 ∧ t.faultCause = 0 ∧ t.faultOpc = 0 ∧ t.faultSeq = 0
      else t.faultKind = s.faultKind ∧ t.faultCause = s.faultCause ∧ t.faultOpc = s.faultOpc ∧
        t.faultSeq = s.faultSeq) ∧
    t.cmdSeq = s.cmdSeq + 1 ∧
    (t.compLevel = if ok ∧ instrOpcode i = .csrw then BitVec.ofNat 4 (fromLE i.payload) else s.compLevel) ∧
    (r.isRefusal = true ∨ instrOpcode i = .nop ∨ instrOpcode i = .csrr →
      t = { s with cmdSeq := s.cmdSeq + 1, rspOut := s.rspOut ++ [r] })) ∧
  (∀ (w : Word32) (p : Bytes) (c : IllegalCause) (s t : State), decodeWord w p = .error c → execWord w p s = .next t →
    ∃ r, t = { s with cmdSeq := s.cmdSeq + 1, rspOut := s.rspOut ++ [r] }) ∧
  (∀ s t : State, s.rst = true → step s = .next t →
    t.state = .uninit ∧ t.secret = none ∧ t.srS = none ∧ t.srR = none ∧ t.sendCtr = 0 ∧ t.recvCtr = 0 ∧
      t.faultKind = 0 ∧ t.faultCause = 0 ∧ t.faultOpc = 0 ∧ t.faultSeq = 0 ∧ t.cmdSeq = 0 ∧
      t.compLevel.toNat = Config.defaultCompLevel.val)

/-- The secret and the engines' registers reach nothing but TAG, ENCRYPT, DECRYPT, ENCODE and DECODE: for every other
command, two states that differ in them alone give the same response and next states that differ in them alone
(20_memory.md §1; 10_state.md §2). -/
def Obligations.SecretReachesOnlyCryptoCommands : Prop :=
  ∀ (i : Instr) (s s' t : State), ¬ usesContext i → s.hideContext = s'.hideContext → exec i s = .next t →
    ∃ t', exec i s' = .next t' ∧ t'.hideContext = t.hideContext

/-! ## Invariants -/

/-- Every step from a state with the invariant answers a next state with the invariant: the context is present exactly in
READY, COMP_LEVEL is at most 9, the fault record is the record of a fault exactly as STATE says. -/
def Obligations.StepKeepsInv : Prop :=
  ∀ s : State, s.Inv → (∃ t, step s = .next t) ∧ ∀ t, step s = .next t → t.Inv

/-- The invariant holds right after reset. -/
def Obligations.InvAtReset : Prop := State.reset.Inv

/-- Every step makes legal responses only: one of the seven status codes, zero above bit 15, no payload unless the status is
OK, a payload that fits MAX_WIRE_LEN (30_encoding.md §2, §3; 60_exceptions.md §1). -/
def Obligations.StepKeepsResponsesLegal : Prop :=
  ∀ s t : State, (∀ r ∈ s.rspOut, r.legal) → step s = .next t → ∀ r ∈ t.rspOut, r.legal

/-! ## What each command does -/

/-- NOP (40_context.md §2): in every STATE it responds OK and changes nothing but CMD_SEQ. -/
def Obligations.NopCompletes : Prop := ∀ s : State, exec (.nop []) s = .next (s.answer 0 [])

/-- INIT (40_context.md §3): in every STATE, from IN = secret ++ IV_SEND ++ IV_RECV, it loads the context and clears the
counters and the fault record; COMP_LEVEL is not written. -/
def Obligations.InitCompletes : Prop :=
  ∀ (k : Secret) (a b : Block) (s : State),
    exec (.init (k.toList ++ a.toList ++ b.toList)) s = .next
      { s with
        secret := some k
        srS := some a
        srR := some b
        sendCtr := 0
        recvCtr := 0
        faultKind := 0
        faultCause := 0
        faultOpc := 0
        faultSeq := 0
        state := .ready
        cmdSeq := s.cmdSeq + 1
        rspOut := s.rspOut ++ [⟨0, []⟩] }

/-- DISPOSE (40_context.md §4): in every STATE it removes the context and keeps the counters and the fault record. -/
def Obligations.DisposeCompletes : Prop :=
  ∀ s : State, exec (.dispose []) s = .next
    { s with
      secret := none
      srS := none
      srR := none
      state := .disposed
      cmdSeq := s.cmdSeq + 1
      rspOut := s.rspOut ++ [⟨0, []⟩] }

/-- What CSRR answers for every CSR, in every STATE (10_state.md §4; 40_context.md §5); nothing is written but CMD_SEQ. -/
def Obligations.CsrrCompletes : Prop :=
  ∀ (c : Csr) (s : State),
    exec (.csrr c []) s = .next (s.answer 0 (leBytes 8
      (match c with
      | .id => 0x70001
      | .state => match s.state with
        | .uninit => 0
        | .ready => 1
        | .faulted => 2
        | .disposed => 3
      | .fault => s.faultKind.toNat + 2 ^ 8 * s.faultCause.toNat + 2 ^ 16 * s.faultOpc.toNat
      | .faultSeq => s.faultSeq.toNat
      | .cmdSeq => s.cmdSeq.toNat
      | .sendCtr => s.sendCtr.toNat
      | .recvCtr => s.recvCtr.toNat
      | .compLevel => s.compLevel.toNat
      | .maxPlainLen => Config.maxPlainLen
      | .maxWireLen => maxWireLen)))

/-- CSRW outside FAULTED (40_context.md §5; 10_state.md §4): COMP_LEVEL takes a value of at most 9; another CSR is
READ_ONLY, checked first; a larger value is VALUE, all 64 bits compared. -/
def Obligations.CsrwCompletes : Prop :=
  ∀ (c : Csr) (v : Word64) (s : State), s.state ≠ .faulted →
    exec (.csrw c (leBytes 8 v.toNat)) s = .next
      (if c ≠ .compLevel then s.answer 0x00000510 []
      else if 9 < v.toNat then s.answer 0x00000610 []
      else { s.answer 0 [] with compLevel := BitVec.ofNat 4 v.toNat })

/-- TAG with a context (41_checksum.md §2, §3): OUT is `SHA256( LE64(c) ++ p ++ s )[0..8)`, the counter from IN; nothing is
written but CMD_SEQ. -/
def Obligations.TagCompletes : Prop :=
  ∀ (c : Word64) (p : Bytes) (k : Context) (s : State), s.hasContext k → 8 + p.length ≤ maxWireLen →
    exec (.tag (leBytes 8 c.toNat ++ p)) s = .next
      (s.answer 0 ((sha256 (leBytes 8 c.toNat ++ p ++ k.secret.toList)).take 8))

/-- ENCRYPT with a context (42_cipher.md §3): OUT is the ciphertext, and only the selected engine's register moves. -/
def Obligations.EncryptCompletes : Prop :=
  ∀ (p : Bytes) (k : Context) (s : State), s.hasContext k → p.length ≤ maxWireLen →
    exec (.encrypt .send p) s = .next
      { s.answer 0 (enc k.secret k.srS p).1 with srS := some (enc k.secret k.srS p).2 } ∧
    exec (.encrypt .recv p) s = .next
      { s.answer 0 (enc k.secret k.srR p).1 with srR := some (enc k.secret k.srR p).2 }

/-- DECRYPT with a context (42_cipher.md §3): OUT is the plaintext, and only the selected engine's register moves. -/
def Obligations.DecryptCompletes : Prop :=
  ∀ (p : Bytes) (k : Context) (s : State), s.hasContext k → p.length ≤ maxWireLen →
    exec (.decrypt .send p) s = .next
      { s.answer 0 (dec k.secret k.srS p).1 with srS := some (dec k.secret k.srS p).2 } ∧
    exec (.decrypt .recv p) s = .next
      { s.answer 0 (dec k.secret k.srR p).1 with srR := some (dec k.secret k.srR p).2 }

/-- DEFLATE outside FAULTED (43_compression.md §4): OUT is Deflate0 at level 0, else the level's form; no context is needed
and nothing is written but CMD_SEQ. -/
def Obligations.DeflateCompletes : Prop :=
  ∀ (p : Bytes) (s : State), s.state ≠ .faulted → p.length ≤ Config.maxPlainLen →
    exec (.deflate p) s = .next
      (s.answer 0 (if s.compLevel = 0 then deflate0 p else deflateOpen s.compLevel p))

/-- INFLATE outside FAULTED (43_compression.md §4): OUT is `Inflate(IN)` and nothing is written but CMD_SEQ; where Inflate
raises, the command ends with the DecodeFault of that cause, with or without a context. -/
def Obligations.InflateCompletes : Prop :=
  ∀ (c : Bytes) (s : State), s.state ≠ .faulted → c.length ≤ maxWireLen - 8 →
    (∀ p, inflate c = .ok p → exec (.inflate c) s = .next (s.answer 0 p)) ∧
    (∀ e, inflate c = .error e → exec (.inflate c) s = .next (s.faultedBy 2 (decodeCode e) 0x31))

/-- ENCODE with a context (44_packet.md §1, §2): compress at COMP_LEVEL, append the tag for SEND_CTR, encipher with the SEND
engine, then SEND_CTR plus 1; nothing else is written but CMD_SEQ. -/
def Obligations.EncodeCompletes : Prop :=
  ∀ (p : Bytes) (k : Context) (s : State), s.hasContext k → p.length ≤ Config.maxPlainLen →
    let c := if s.compLevel = 0 then deflate0 p else deflateOpen s.compLevel p
    let t := (sha256 (leBytes 8 s.sendCtr.toNat ++ c ++ k.secret.toList)).take 8
    let wire := enc k.secret k.srS (c ++ t)
    exec (.encode p) s = .next { s.answer 0 wire.1 with srS := some wire.2, sendCtr := s.sendCtr + 1 }

/-- DECODE of a unit whose tag is right for RECV_CTR and whose payload inflates (44_packet.md §3): OUT is the plaintext, the
RECV engine and RECV_CTR move, nothing else is written but CMD_SEQ. -/
def Obligations.DecodeCompletes : Prop :=
  ∀ (unit c p : Bytes) (k : Context) (s : State), s.hasContext k → unit.length ≤ maxWireLen →
    (dec k.secret k.srR unit).1 =
      c ++ (sha256 (leBytes 8 s.recvCtr.toNat ++ c ++ k.secret.toList)).take 8 →
    inflate c = .ok p →
    exec (.decode unit) s = .next
      { s.answer 0 p with srR := some (dec k.secret k.srR unit).2, recvCtr := s.recvCtr + 1 }

/-- Where DECODE with a context takes a fault (44_packet.md §3), each with RECV_CTR already incremented: SHORT_UNIT below 8
bytes, TAG_MISMATCH where the last 8 bytes are not the tag of the rest, else the DecodeFault of Inflate; a unit of 8 bytes
or fewer never decodes to OK. -/
def Obligations.DecodeFaultPaths : Prop :=
  ∀ (unit : Bytes) (k : Context) (s : State), s.hasContext k → unit.length ≤ maxWireLen →
    (unit.length < 8 →
      exec (.decode unit) s = .next ({ s with recvCtr := s.recvCtr + 1 }.faultedBy 3 2 0x41)) ∧
    (∀ c t : Bytes, t.length = 8 → (dec k.secret k.srR unit).1 = c ++ t →
      t ≠ (sha256 (leBytes 8 s.recvCtr.toNat ++ c ++ k.secret.toList)).take 8 →
      exec (.decode unit) s = .next ({ s with recvCtr := s.recvCtr + 1 }.faultedBy 3 1 0x41)) ∧
    (∀ (c : Bytes) (e : DecodeCause),
      (dec k.secret k.srR unit).1 =
        c ++ (sha256 (leBytes 8 s.recvCtr.toNat ++ c ++ k.secret.toList)).take 8 →
      inflate c = .error e →
      exec (.decode unit) s = .next ({ s with recvCtr := s.recvCtr + 1 }.faultedBy 2 (decodeCode e) 0x41)) ∧
    (unit.length ≤ 8 → ∃ t, exec (.decode unit) s = .next t ∧ t.state = .faulted ∧ t.recvCtr = s.recvCtr + 1)

/-! ## The hash and the cipher -/

/-- SHA-256's padding (41_checksum.md R251): the message, 0x80, the fewest zero bytes that leave 8 bytes of a block, and the
bit length big-endian; the blocks are the padded message in pieces of 64 bytes, each of sixteen big-endian words. -/
def Obligations.ShaPadding : Prop :=
  (∀ m : Bytes, m.length < 2 ^ 61 →
    ∃ k : Nat, shaPad m = m ++ [0x80] ++ List.replicate k 0x00 ++
        be32 (BitVec.ofNat 32 (8 * m.length / 2 ^ 32)) ++ be32 (BitVec.ofNat 32 (8 * m.length)) ∧
      (m.length + 1 + k) % 64 = 56 ∧ ∀ j < k, (m.length + 1 + j) % 64 ≠ 56) ∧
  (∀ m : Bytes, (shaChunks ((shaPad m).length / 64) (shaPad m)).flatten = shaPad m ∧
    ∀ b ∈ shaChunks ((shaPad m).length / 64) (shaPad m), b.length = 64) ∧
  (∀ (b : Bytes) (t : Nat), t < 16 →
    (shaBlockWords b)[t]? = some (b.getD (4 * t) 0 ++ b.getD (4 * t + 1) 0 ++ b.getD (4 * t + 2) 0 ++
      b.getD (4 * t + 3) 0))

/-- The S-box table is the affine map of the inverse in GF(2^8), the inverse of 0 taken as 0 (42_cipher.md R301). -/
def Obligations.SboxIsAffineInverse : Prop :=
  ∃ inv : Byte → Byte, inv 0 = 0 ∧ (∀ a, a ≠ 0 → gfMul a (inv a) = 1) ∧
    ∀ a, sbox a = inv a ^^^ (inv a).rotateLeft 1 ^^^ (inv a).rotateLeft 2 ^^^ (inv a).rotateLeft 3 ^^^
      (inv a).rotateLeft 4 ^^^ 0x63

/-- Deciphering undoes enciphering, and both leave the same register (42_cipher.md R312); one byte is deciphered with the
keystream byte of the register, and the ciphertext byte is shifted in. -/
def Obligations.DecipherUndoesEncipher : Prop :=
  (∀ (k : Secret) (sr : Block) (p : Bytes),
    (dec k sr (enc k sr p).1).1 = p ∧ (dec k sr (enc k sr p).1).2 = (enc k sr p).2) ∧
  (∀ (k : Secret) (sr : Block) (c : Byte) (cs : Bytes),
    (dec k sr (c :: cs)).1 = (c ^^^ (aes256 k sr)[0]) :: (dec k (decByte k sr c).2 cs).1 ∧
    (dec k sr (c :: cs)).2 = (dec k (decByte k sr c).2 cs).2 ∧
    (decByte k sr c).2.toList = sr.toList.drop 1 ++ [c])

/-- Chunk independence (42_cipher.md R313). -/
def Obligations.ChunkIndependence : Prop :=
  ∀ (k : Secret) (sr : Block) (a b : Bytes),
    (enc k sr (a ++ b)).1 = (enc k sr a).1 ++ (enc k (enc k sr a).2 b).1 ∧
    (enc k sr (a ++ b)).2 = (enc k (enc k sr a).2 b).2 ∧
    (dec k sr (a ++ b)).1 = (dec k sr a).1 ++ (dec k (dec k sr a).2 b).1 ∧
    (dec k sr (a ++ b)).2 = (dec k (dec k sr a).2 b).2

/-- Self-synchronization (42_cipher.md R314): after 16 bytes or more the register holds the last 16 ciphertext bytes,
whatever it held; so two engines of one key fed the same ciphertext agree from then on. -/
def Obligations.SelfSynchronization : Prop :=
  (∀ (k : Secret) (sr : Block) (p : Bytes), 16 ≤ p.length →
    (enc k sr p).2.toList = (enc k sr p).1.drop (p.length - 16)) ∧
  (∀ (k : Secret) (sr : Block) (c : Bytes), 16 ≤ c.length → (dec k sr c).2.toList = c.drop (c.length - 16)) ∧
  (∀ (k : Secret) (sr sr' : Block) (c d : Bytes), 16 ≤ c.length →
    dec k (dec k sr c).2 d = dec k (dec k sr' c).2 d) ∧
  (∀ (k : Secret) (sr sr' : Block) (p d : Bytes), 16 ≤ p.length →
    dec k (dec k sr' (enc k sr p).1).2 d = dec k (enc k sr p).2 d)

/-- Error propagation (42_cipher.md §2): one ciphertext byte changed changes that plaintext byte in the same bits, none
before it, and none from the seventeenth after it on. -/
def Obligations.ErrorPropagation : Prop :=
  ∀ (k : Secret) (sr : Block) (a : Bytes) (b b' : Byte) (c : Bytes),
    let p := (dec k sr (a ++ b :: c)).1
    let p' := (dec k sr (a ++ b' :: c)).1
    p.take a.length = p'.take a.length ∧
    p.getD a.length 0 ^^^ p'.getD a.length 0 = b ^^^ b' ∧
    p.drop (a.length + 17) = p'.drop (a.length + 17) ∧ p.length = p'.length

/-! ## The compressor and the inflater -/

/-- Level 0 (43_compression.md R371): stored blocks of at most 65535 bytes, then the marker; the length is exactly
STORED_BOUND. -/
def Obligations.Level0Form : Prop :=
  deflate0 [] = [0x00, 0x00, 0x00, 0xFF, 0xFF] ∧
  (∀ p : Bytes, p ≠ [] →
    deflate0 p = [0x00] ++ leBytes 2 (min p.length 65535) ++ leBytes 2 (min p.length 65535 ^^^ 0xFFFF) ++
      p.take 65535 ++ deflate0 (p.drop 65535)) ∧
  (∀ p : Bytes, (deflate0 p).length = p.length + 5 * ((p.length + 65534) / 65535) + 5)

/-- The properties of the levels 1 to 9 (43_compression.md R372): (a) the round trip, (b) no final block, (c) the last
block the marker of R370, SYNC_MARKER itself where it starts on a byte boundary, (d) the bound, with Deflate0 in place of a longer form; (e), (f) the output of DEFLATE is a
function of the level and the plaintext. -/
def Obligations.CompressorProperties : Prop :=
  (∀ (l : BitVec 4) (p : Bytes), 1 ≤ l.toNat → l.toNat ≤ 9 → p.length ≤ Config.maxPlainLen →
    inflate (deflateLevel l p) = .ok p ∧
    (∃ blocks : List BlockInfo, inflateBlocks (deflateLevel l p) = .ok (blocks, p) ∧
      (∀ b ∈ blocks, b.final = false) ∧
      ∃ pos : Nat, blocks.getLast? = some ⟨false, .stored 0, pos⟩ ∧
        (pos % 8 = 0 → ∃ d : Bytes, deflateLevel l p = d ++ [0x00, 0x00, 0x00, 0xFF, 0xFF] ∧ 8 * d.length = pos)) ∧
    (∃ d, deflateLevel l p = d ++ [0x00, 0x00, 0xFF, 0xFF]) ∧
    (deflateLevel l p).length ≤ storedBound p.length ∧
    (deflateLevel l p = deflate0 p ∨
      deflateLevel l p = Config.compressor l p ∧ (Config.compressor l p).length ≤ storedBound p.length)) ∧
  (∀ (p : Bytes) (s s' t t' : State) (r r' : Response), s.compLevel = s'.compLevel →
    exec (.deflate p) s = .next t → exec (.deflate p) s' = .next t' →
    t.rspOut = s.rspOut ++ [r] → t'.rspOut = s'.rspOut ++ [r'] → r.status = 0x00 → r'.status = 0x00 → r = r')

/-- The compression round trip at every level (43_compression.md R383). -/
def Obligations.DeflateRoundTrip : Prop :=
  ∀ (l : BitVec 4) (p : Bytes), l.toNat ≤ 9 → p.length ≤ Config.maxPlainLen → inflate (deflateLevel l p) = .ok p

/-- A stored block at the start of a stream, whatever its padding bits (43_compression.md §1, §3): LEN and NLEN are checked,
then LEN bytes are copied; after a final block a further byte is TRAILING_DATA, after a non-final one the stream may end. -/
def Obligations.StoredBlockReading : Prop :=
  ∀ (h : Byte) (body : Bytes), h.extractLsb' 1 2 = 0 →
    let len := fromLE (body.take 2)
    let nlen := fromLE ((body.drop 2).take 2)
    if body.length < 4 then inflate (h :: body) = .error .truncated
    else if nlen ≠ len ^^^ 0xFFFF then inflate (h :: body) = .error .badStoredLen
    else if body.length < 4 + len then inflate (h :: body) = .error .truncated
    else if body.length = 4 + len then inflate (h :: body) = .ok (body.drop 4)
    else if h.getLsbD 0 = true then inflate (h :: body) = .error .trailingData
    else ∀ p, inflate (h :: body) = .ok p → (body.drop 4).take len <+: p

/-- What Inflate refuses at the start of a stream, and what it returns (43_compression.md §1, §3): an empty stream is
TRUNCATED, block type 3 is BAD_BLOCK_TYPE, and no output is longer than MAX_PLAIN_LEN. -/
def Obligations.InflateLimits : Prop :=
  inflate [] = .error .truncated ∧
  (∀ (h : Byte) (body : Bytes), h.extractLsb' 1 2 = 3 → inflate (h :: body) = .error .badBlockType) ∧
  (∀ c p : Bytes, inflate c = .ok p → c ≠ [] ∧ p.length ≤ Config.maxPlainLen)

/-- The fixed codes (43_compression.md R358): every symbol of the two alphabets is decoded from its code, wherever it stands,
and both codes are complete. -/
def Obligations.FixedCodes : Prop :=
  (∀ (inp : Bytes) (pos sym : Nat), sym < 288 → codeAt inp pos (fixedLitCode sym).1 (fixedLitCode sym).2 →
    hdecode (huffman fixedLitLens) inp pos = .ok (sym, pos + (fixedLitCode sym).1)) ∧
  (∀ (inp : Bytes) (pos sym : Nat), sym < 32 → codeAt inp pos 5 sym →
    hdecode (huffman fixedDistLens) inp pos = .ok (sym, pos + 5)) ∧
  codeLeft fixedLitLens = 0 ∧ codeLeft fixedDistLens = 0

/-- Inflate ends (70_reset_and_hazards.md §4, every command terminates): the turns that the model gives the loops over the
blocks, over Huffman block data and over a dynamic header's code lengths (log entry 8) are never used up, each loop ending
by its own rule or by a fault within them (the last two from any position); so more turns change nothing. -/
def Obligations.InflateTerminates : Prop :=
  (∀ inp : Bytes, inflateEnds inp (8 * inp.length + 1) 0 [] ∧
    ∀ turns : Nat, 8 * inp.length + 1 ≤ turns → inflateFrom inp turns 0 [] [] = inflateBlocks inp) ∧
  (∀ (lit dist : Huffman) (inp out : Bytes) (pos : Nat), blockDataEnds lit dist inp (8 * inp.length + 1) pos out ∧
    ∀ turns : Nat, 8 * inp.length + 1 ≤ turns →
      blockData lit dist inp turns pos out = blockData lit dist inp (8 * inp.length + 1) pos out) ∧
  (∀ (clc : Huffman) (inp : Bytes) (n pos : Nat), readLensEnds clc inp n n [] pos ∧
    ∀ turns : Nat, n ≤ turns → readLens clc inp n turns [] pos = readLens clc inp n n [] pos)

/-! ## The packet path -/

/-- Sizes (44_packet.md R441): the unit is the compressed payload and 8 bytes, within MAX_WIRE_LEN; at level 0 its length is
exact; the shortest unit is 13 bytes, that of the empty plaintext at level 0. -/
def Obligations.WireSizes : Prop :=
  ∀ (l : BitVec 4) (ctr : Word64) (k : Secret) (sr : Block) (p : Bytes),
    p.length ≤ Config.maxPlainLen →
    let wire := (enc k sr (framedUnit l ctr k p)).1
    wire.length = (deflateLevel l p).length + 8 ∧ wire.length ≤ storedBound p.length + 8 ∧
    storedBound p.length + 8 ≤ maxWireLen ∧ (l = 0 → wire.length = storedBound p.length + 8) ∧
    13 ≤ wire.length ∧ (l = 0 → p = [] → wire.length = 13)

/-- Packets A encodes, B decodes (44_packet.md §4): from one secret, with A's IV_SEND as B's IV_RECV, every ENCODE and every
DECODE ends with OK, the plaintexts come back in order, and B's RECV_CTR ends equal to A's SEND_CTR; the levels of the two
may differ. -/
def Obligations.PacketRoundTrip : Prop :=
  ∀ (k : Secret) (iv ivA ivB : Block) (ps : List Bytes) (a b : State),
    (∀ p ∈ ps, p.length ≤ Config.maxPlainLen) →
    ∃ (units : List Bytes) (a' b' : State),
      runCommands (.init (k.toList ++ iv.toList ++ ivA.toList) :: ps.map .encode) a = .next a' ∧
      runCommands (.init (k.toList ++ ivB.toList ++ iv.toList) :: units.map .decode) b = .next b' ∧
      a'.rspOut = a.rspOut ++ ⟨0, []⟩ :: units.map (fun u => ⟨0, u⟩) ∧
      b'.rspOut = b.rspOut ++ ⟨0, []⟩ :: ps.map (fun p => ⟨0, p⟩) ∧
      b'.recvCtr = a'.sendCtr ∧ a'.sendCtr = BitVec.ofNat 64 ps.length

/-- Mirrored blocks stay mirrored: one packet encoded at A and decoded at B comes back, and the next packet finds the two
blocks mirrored again (44_packet.md §4). -/
def Obligations.MirroredStepRoundTrip : Prop :=
  ∀ (p : Bytes) (a b : State), mirrored a b → p.length ≤ Config.maxPlainLen →
    ∃ (unit : Bytes) (a' b' : State), exec (.encode p) a = .next a' ∧ a'.rspOut = a.rspOut ++ [⟨0, unit⟩] ∧
      exec (.decode unit) b = .next b' ∧ b'.rspOut = b.rspOut ++ [⟨0, p⟩] ∧ mirrored a' b'

/-- Direction independence (20_memory.md §5; 44_packet.md §4): in any run that takes no fault, each direction's responses, its
register and its counter are those of the run of that direction's commands alone, in their order. A direction is its packet
command and ENCRYPT and DECRYPT of its engine, with INIT, DISPOSE, CSRW and TAG, which belong to both. A run of ENCODEs and
DECODEs alone is the case of 44_packet.md §4. -/
def Obligations.DirectionIndependence : Prop :=
  ∀ (is : List Instr) (s t : State) (rs : List Response),
    runCommands is s = .next t → t.rspOut = s.rspOut ++ rs → rs.length = is.length → faultFree rs = true →
    (∃ te, runCommands (is.filter ofSendDirection) s = .next te ∧
      te.rspOut = s.rspOut ++ ((is.zip rs).filter fun x => ofSendDirection x.1).map (·.2) ∧
      te.srS = t.srS ∧ te.sendCtr = t.sendCtr) ∧
    (∃ td, runCommands (is.filter ofRecvDirection) s = .next td ∧
      td.rspOut = s.rspOut ++ ((is.zip rs).filter fun x => ofRecvDirection x.1).map (·.2) ∧
      td.srR = t.srR ∧ td.recvCtr = t.recvCtr)

/-- After INIT, SEND_CTR counts the ENCODEs that ended with OK, and RECV_CTR the DECODEs that passed RequireContext, those
that ended with OK, IntegrityFault or DecodeFault, modulo 2^64 (44_packet.md §2, §3). -/
def Obligations.CountersCountPackets : Prop :=
  ∀ (k : Bytes) (is : List Instr) (s t : State) (r : Response) (rs : List Response),
    k.length = 64 → (∀ i ∈ is, instrOpcode i ≠ .init) →
    runCommands (.init k :: is) s = .next t → t.rspOut = s.rspOut ++ r :: rs → rs.length = is.length →
    t.sendCtr = BitVec.ofNat 64
      ((is.zip rs).countP fun x => instrOpcode x.1 == .encode && x.2.status == 0x00) ∧
    t.recvCtr = BitVec.ofNat 64
      ((is.zip rs).countP fun x => instrOpcode x.1 == .decode &&
        (x.2.status == 0x00 || x.2.status == 0x02 || x.2.status == 0x03))

/-- The unit built by hand (41_checksum.md §3; 44_packet.md §2): DEFLATE, then TAG with SEND_CTR, then ENCRYPT.S of the two
gives the bytes ENCODE gives and leaves the same SEND register, but SEND_CTR does not move. -/
def Obligations.HandBuiltUnit : Prop :=
  ∀ (p : Bytes) (k : Context) (s : State), s.hasContext k → p.length ≤ Config.maxPlainLen →
    ∃ (c tg unit : Bytes) (s1 s2 s3 e : State),
      exec (.deflate p) s = .next s1 ∧ s1.rspOut = s.rspOut ++ [⟨0, c⟩] ∧
      exec (.tag (leBytes 8 s1.sendCtr.toNat ++ c)) s1 = .next s2 ∧ s2.rspOut = s1.rspOut ++ [⟨0, tg⟩] ∧
      exec (.encrypt .send (c ++ tg)) s2 = .next s3 ∧ s3.rspOut = s2.rspOut ++ [⟨0, unit⟩] ∧
      exec (.encode p) s = .next e ∧ e.rspOut = s.rspOut ++ [⟨0, unit⟩] ∧
      s3.srS = e.srS ∧ s3.sendCtr = s.sendCtr ∧ e.sendCtr = s.sendCtr + 1
end

