-- ==== Sys2Proof/Laws/Codec.lean ====
section
/-! SUPPORT. The byte orders read and write back, the fields of a command word, and the splitting of the channel into commands. -/

namespace Sys2Proof

@[simp] theorem leBytes_length (n v : Nat) : (leBytes n v).length = n := by
  induction n generalizing v with
  | zero => rfl
  | succ n ih => simp [leBytes, ih]

/-- Reading back what LE wrote gives the value modulo the width. -/
theorem fromLE_leBytes (n v : Nat) : fromLE (leBytes n v) = v % 256 ^ n := by
  induction n generalizing v with
  | zero => simp [leBytes, fromLE, Nat.mod_one]
  | succ n ih =>
    have h := Nat.mod_mul (x := v) (a := 256) (b := 256 ^ n)
    have h2 : 256 ^ (n + 1) = 256 * 256 ^ n := Nat.pow_succ'
    rw [leBytes, fromLE, ih, BitVec.toNat_ofNat, h2, h]

theorem fromLE_lt (bs : Bytes) : fromLE bs < 256 ^ bs.length := by
  induction bs with
  | nil => simp [fromLE]
  | cons b bs ih =>
    have := b.isLt
    simp only [fromLE, List.length_cons, Nat.pow_succ']
    omega

/-- Writing what LE read gives the bytes back. -/
theorem leBytes_fromLE (bs : Bytes) : leBytes bs.length (fromLE bs) = bs := by
  induction bs with
  | nil => rfl
  | cons b bs ih =>
    have := b.isLt
    have h1 : (b.toNat + 256 * fromLE bs) / 256 = fromLE bs := by omega
    have h2 : BitVec.ofNat 8 (b.toNat + 256 * fromLE bs) = b := by
      apply BitVec.eq_of_toNat_eq
      simp only [BitVec.toNat_ofNat]
      omega
    simp [leBytes, fromLE, h1, h2, ih]

@[simp] theorem le32_length (w : Word32) : (le32 w).length = 4 := by simp [le32]
@[simp] theorem le64_length (w : Word64) : (le64 w).length = 8 := by simp [le64]

theorem ofNat_fromLE_le32 (w : Word32) : BitVec.ofNat 32 (fromLE (le32 w)) = w := by
  apply BitVec.eq_of_toNat_eq
  simpa [le32, fromLE_leBytes] using w.isLt

theorem ofNat_fromLE_le64 (w : Word64) : BitVec.ofNat 64 (fromLE (le64 w)) = w := by
  apply BitVec.eq_of_toNat_eq
  simpa [le64, fromLE_leBytes] using w.isLt

/-- The opcode table is one to one. -/
theorem opcodeOfByte_eq_some (b : Byte) (o : Opcode) : opcodeOfByte b = some o ↔ b = opcodeByte o := by
  constructor
  · intro h
    have := List.find?_some h
    simpa using (beq_iff_eq.mp this).symm
  · rintro rfl
    cases o <;> rfl

/-- The CSR map is one to one. -/
theorem csrOfNumber_eq_some (n : BitVec 12) (c : Csr) : csrOfNumber n = some c ↔ n = csrNumber c := by
  constructor
  · intro h
    have := List.find?_some h
    simpa using (beq_iff_eq.mp this).symm
  · rintro rfl
    cases c <;> rfl

theorem engineOfSel_eq_some (n : BitVec 4) (e : Engine) : engineOfSel n = some e ↔ n = selOfEngine e := by
  unfold engineOfSel
  split
  · cases e <;> simp_all [selOfEngine]
  · split <;> cases e <;> simp_all [selOfEngine]

@[simp] theorem fieldOpcode_encodeWord (i : Instr) : fieldOpcode (encodeWord i) = opcodeByte (instrOpcode i) := by
  unfold fieldOpcode encodeWord
  ext j hj
  simp only [BitVec.getElem_extractLsb', BitVec.getLsbD_append]
  simp [hj]

@[simp] theorem fieldSel_encodeWord (i : Instr) : fieldSel (encodeWord i) = instrSel i := by
  unfold fieldSel encodeWord
  ext j hj
  simp only [BitVec.getElem_extractLsb', BitVec.getLsbD_append]
  simp [hj]

@[simp] theorem fieldRsvd_encodeWord (i : Instr) : fieldRsvd (encodeWord i) = 0 := by
  unfold fieldRsvd encodeWord
  ext j hj
  have h1 : ¬ 12 + j < 8 := by omega
  have h2 : ¬ 12 + j - 8 < 4 := by omega
  have h3 : 12 + j - 8 - 4 < 8 := by omega
  simp only [BitVec.getElem_extractLsb', BitVec.getLsbD_append, h1, h2, h3]
  simp

@[simp] theorem fieldCsr_encodeWord (i : Instr) : fieldCsr (encodeWord i) = instrCsr i := by
  unfold fieldCsr encodeWord
  ext j hj
  have h1 : ¬ 20 + j < 8 := by omega
  have h2 : ¬ 20 + j - 8 < 4 := by omega
  have h3 : ¬ 20 + j - 8 - 4 < 8 := by omega
  have h4 : 20 + j - 8 - 4 - 8 = j := by omega
  simp only [BitVec.getElem_extractLsb', BitVec.getLsbD_append, h1, h2, h3, h4]
  simp [hj]

/-- A word is its four fields. -/
theorem word_eq_fields (w : Word32) : w = fieldCsr w ++ fieldRsvd w ++ fieldSel w ++ fieldOpcode w := by
  apply BitVec.eq_of_getLsbD_eq
  intro j hj
  unfold fieldCsr fieldRsvd fieldSel fieldOpcode
  simp only [BitVec.getLsbD_append, BitVec.getLsbD_extractLsb']
  split
  · simp_all
  · split
    · have h : 8 + (j - 8) = j := by omega
      simp_all
    · split
      · have h : 12 + (j - 8 - 4) = j := by omega
        simp_all
      · have h : 20 + (j - 8 - 4 - 8) = j := by omega
        have h' : j - 8 - 4 - 8 < 12 := by omega
        simp [h, h']

/-- A whole command at the front of the channel is split off, whatever its word. -/
theorem splitCommand_commandBytes (w : Word32) (p rest : Bytes) (h : p.length < 2 ^ 32) :
    splitCommand (commandBytes w p ++ rest) = some (w, p, rest) := by
  have h4 : (leBytes 4 p.length).length = 4 := leBytes_length _ _
  have e1 : (commandBytes w p ++ rest).take 4 = le32 w := by
    simp [commandBytes]
  have e2 : ((commandBytes w p ++ rest).drop 4).take 4 = leBytes 4 p.length := by
    simp [commandBytes]
  have e3 : (commandBytes w p ++ rest).drop 8 = p ++ rest := by
    simp [commandBytes, List.append_assoc, List.drop_append]
  have e4 : ¬ (commandBytes w p ++ rest).length < 8 := by
    simp [commandBytes]; omega
  have e5 : fromLE (leBytes 4 p.length) = p.length := by
    rw [fromLE_leBytes]; exact Nat.mod_eq_of_lt (by simpa using h)
  unfold splitCommand
  rw [if_neg e4]
  simp only [e1, e2, e3, e5, ofNat_fromLE_le32]
  simp

/-- What is split off is a whole command, and nothing else is consumed. -/
theorem splitCommand_eq_some {bs : Bytes} {w : Word32} {p rest : Bytes}
    (h : splitCommand bs = some (w, p, rest)) : bs = commandBytes w p ++ rest ∧ p.length < 2 ^ 32 := by
  unfold splitCommand at h
  split at h
  · simp at h
  · rename_i h8
    simp only at h
    split at h
    · simp at h
    · rename_i hl
      simp only [Option.some.injEq, Prod.mk.injEq] at h
      obtain ⟨rfl, rfl, rfl⟩ := h
      have hlen4 : (bs.take 4).length = 4 := by simp; omega
      have hlen4' : ((bs.drop 4).take 4).length = 4 := by simp; omega
      have hlt := fromLE_lt ((bs.drop 4).take 4)
      rw [hlen4'] at hlt
      have hp : ((bs.drop 8).take (fromLE ((bs.drop 4).take 4))).length = fromLE ((bs.drop 4).take 4) := by
        rw [List.length_take]; omega
      refine ⟨?_, by rw [hp]; omega⟩
      have hw : le32 (BitVec.ofNat 32 (fromLE (bs.take 4))) = bs.take 4 := by
        have := fromLE_lt (bs.take 4)
        rw [hlen4] at this
        have e := leBytes_fromLE (bs.take 4)
        rw [hlen4] at e
        unfold le32
        rw [BitVec.toNat_ofNat, Nat.mod_eq_of_lt (by omega), e]
      have hl4 : leBytes 4 (fromLE ((bs.drop 4).take 4)) = (bs.drop 4).take 4 := by
        have e := leBytes_fromLE ((bs.drop 4).take 4)
        rwa [hlen4'] at e
      unfold commandBytes
      rw [hp, hw, hl4, List.append_assoc, List.append_assoc, List.take_append_drop]
      have : bs.drop 8 = (bs.drop 4).drop 4 := by simp
      rw [this, List.take_append_drop, List.take_append_drop]

/-- A command takes 8 bytes and its payload on the channel. -/
theorem encode_length (i : Instr) : (encode i).length = 8 + i.payload.length := by
  simp [encode, commandBytes, List.length_append]
  omega

end Sys2Proof
end

