-- ==== Sys2Proof/Laws/Crypto.lean ====
section
/-! SUPPORT. What the cipher engines, the hash and the tag do, said once. -/

namespace Sys2Proof.Machine

/-- The register after a shift: its first byte gone, the new byte at its end. -/
@[simp] theorem shiftIn_toList (sr : Block) (c : Byte) : (shiftIn sr c).toList = sr.toList.drop 1 ++ [c] := rfl

@[simp] theorem enc_nil (k : Secret) (sr : Block) : enc k sr [] = ([], sr) := rfl

theorem enc_cons (k : Secret) (sr : Block) (p : Byte) (ps : Bytes) :
    enc k sr (p :: ps) =
      ((p ^^^ keystreamByte k sr) :: (enc k (shiftIn sr (p ^^^ keystreamByte k sr)) ps).1,
        (enc k (shiftIn sr (p ^^^ keystreamByte k sr)) ps).2) := rfl

@[simp] theorem dec_nil (k : Secret) (sr : Block) : dec k sr [] = ([], sr) := rfl

theorem dec_cons (k : Secret) (sr : Block) (c : Byte) (cs : Bytes) :
    dec k sr (c :: cs) = ((c ^^^ keystreamByte k sr) :: (dec k (shiftIn sr c) cs).1, (dec k (shiftIn sr c) cs).2) := rfl

/-- Enciphering keeps the length. -/
@[simp] theorem enc_length (k : Secret) (sr : Block) (p : Bytes) : (enc k sr p).1.length = p.length := by
  induction p generalizing sr with
  | nil => rfl
  | cons b p ih => simp [enc_cons, ih]

/-- Deciphering keeps the length. -/
@[simp] theorem dec_length (k : Secret) (sr : Block) (p : Bytes) : (dec k sr p).1.length = p.length := by
  induction p generalizing sr with
  | nil => rfl
  | cons b p ih => simp [dec_cons, ih]

@[simp] theorem be32_length (w : Word32) : (be32 w).length = 4 := rfl

@[simp] theorem shaDigest_length (s : ShaState) : (shaDigest s).length = 32 := rfl

@[simp] theorem sha256_length (m : Bytes) : (sha256 m).length = 32 := rfl

/-- A tag is 8 bytes. -/
@[simp] theorem tag_length (c : Word64) (p : Bytes) (s : Secret) : (tag c p s).length = 8 := by
  simp [tag]

/-- The padded message is whole blocks. -/
theorem shaPad_length_mod (m : Bytes) : (shaPad m).length % 64 = 0 := by
  simp only [shaPad, shaPadZeros, List.length_append, List.length_cons, List.length_nil, List.length_replicate,
    be32_length]
  omega

/-- Two 8-byte tags match exactly when they are equal. -/
theorem tagsMatch_iff_eq {t u : Bytes} (ht : t.length = 8) (hu : u.length = 8) : tagsMatch t u = true ↔ t = u := by
  constructor
  · intro h
    apply List.ext_getElem (by omega)
    intro i h1 h2
    have := List.all_eq_true.mp h i (by simp; omega)
    simpa [List.getD_eq_getElem?_getD, h1, h2] using this
  · rintro rfl
    simp [tagsMatch]

theorem framedUnit_length (l : BitVec 4) (c : Word64) (k : Secret) (p : Bytes) :
    (framedUnit l c k p).length = (deflateLevel l p).length + 8 := by
  simp [framedUnit]

end Sys2Proof.Machine
end

