-- ==== Sys2Proof/Laws/State.lean ====
section
/-! SUPPORT. One lemma per field per update of the state; for the acts of the host that reset
decides, one lemma per case. -/

namespace Sys2Proof.Machine

@[simp] theorem State.respond_state (s : State) (st : Status) (cause : Byte) (out : Bytes) : (s.respond st cause out).state = s.state := rfl
@[simp] theorem State.respond_secret (s : State) (st : Status) (cause : Byte) (out : Bytes) : (s.respond st cause out).secret = s.secret := rfl
@[simp] theorem State.respond_srS (s : State) (st : Status) (cause : Byte) (out : Bytes) : (s.respond st cause out).srS = s.srS := rfl
@[simp] theorem State.respond_srR (s : State) (st : Status) (cause : Byte) (out : Bytes) : (s.respond st cause out).srR = s.srR := rfl
@[simp] theorem State.respond_sendCtr (s : State) (st : Status) (cause : Byte) (out : Bytes) : (s.respond st cause out).sendCtr = s.sendCtr := rfl
@[simp] theorem State.respond_recvCtr (s : State) (st : Status) (cause : Byte) (out : Bytes) : (s.respond st cause out).recvCtr = s.recvCtr := rfl
@[simp] theorem State.respond_faultKind (s : State) (st : Status) (cause : Byte) (out : Bytes) : (s.respond st cause out).faultKind = s.faultKind := rfl
@[simp] theorem State.respond_faultCause (s : State) (st : Status) (cause : Byte) (out : Bytes) : (s.respond st cause out).faultCause = s.faultCause := rfl
@[simp] theorem State.respond_faultOpc (s : State) (st : Status) (cause : Byte) (out : Bytes) : (s.respond st cause out).faultOpc = s.faultOpc := rfl
@[simp] theorem State.respond_faultSeq (s : State) (st : Status) (cause : Byte) (out : Bytes) : (s.respond st cause out).faultSeq = s.faultSeq := rfl
@[simp] theorem State.respond_cmdSeq (s : State) (st : Status) (cause : Byte) (out : Bytes) : (s.respond st cause out).cmdSeq = s.cmdSeq := rfl
@[simp] theorem State.respond_compLevel (s : State) (st : Status) (cause : Byte) (out : Bytes) : (s.respond st cause out).compLevel = s.compLevel := rfl
@[simp] theorem State.respond_cmdIn (s : State) (st : Status) (cause : Byte) (out : Bytes) : (s.respond st cause out).cmdIn = s.cmdIn := rfl
@[simp] theorem State.respond_rspOut (s : State) (st : Status) (cause : Byte) (out : Bytes) : (s.respond st cause out).rspOut = s.rspOut ++ [⟨statusWord st cause, if st = .ok then out else []⟩] := rfl
@[simp] theorem State.respond_rspDepth (s : State) (st : Status) (cause : Byte) (out : Bytes) : (s.respond st cause out).rspDepth = s.rspDepth := rfl
@[simp] theorem State.respond_rst (s : State) (st : Status) (cause : Byte) (out : Bytes) : (s.respond st cause out).rst = s.rst := rfl

@[simp] theorem State.refuse_state (s : State) (st : Status) (cause : Byte) : (s.refuse st cause).state = s.state := rfl
@[simp] theorem State.refuse_secret (s : State) (st : Status) (cause : Byte) : (s.refuse st cause).secret = s.secret := rfl
@[simp] theorem State.refuse_srS (s : State) (st : Status) (cause : Byte) : (s.refuse st cause).srS = s.srS := rfl
@[simp] theorem State.refuse_srR (s : State) (st : Status) (cause : Byte) : (s.refuse st cause).srR = s.srR := rfl
@[simp] theorem State.refuse_sendCtr (s : State) (st : Status) (cause : Byte) : (s.refuse st cause).sendCtr = s.sendCtr := rfl
@[simp] theorem State.refuse_recvCtr (s : State) (st : Status) (cause : Byte) : (s.refuse st cause).recvCtr = s.recvCtr := rfl
@[simp] theorem State.refuse_faultKind (s : State) (st : Status) (cause : Byte) : (s.refuse st cause).faultKind = s.faultKind := rfl
@[simp] theorem State.refuse_faultCause (s : State) (st : Status) (cause : Byte) : (s.refuse st cause).faultCause = s.faultCause := rfl
@[simp] theorem State.refuse_faultOpc (s : State) (st : Status) (cause : Byte) : (s.refuse st cause).faultOpc = s.faultOpc := rfl
@[simp] theorem State.refuse_faultSeq (s : State) (st : Status) (cause : Byte) : (s.refuse st cause).faultSeq = s.faultSeq := rfl
@[simp] theorem State.refuse_cmdSeq (s : State) (st : Status) (cause : Byte) : (s.refuse st cause).cmdSeq = s.cmdSeq := rfl
@[simp] theorem State.refuse_compLevel (s : State) (st : Status) (cause : Byte) : (s.refuse st cause).compLevel = s.compLevel := rfl
@[simp] theorem State.refuse_cmdIn (s : State) (st : Status) (cause : Byte) : (s.refuse st cause).cmdIn = s.cmdIn := rfl
@[simp] theorem State.refuse_rspOut (s : State) (st : Status) (cause : Byte) : (s.refuse st cause).rspOut = s.rspOut ++ [⟨statusWord st cause, if st = .ok then ([] : Bytes) else []⟩] := rfl
@[simp] theorem State.refuse_rspDepth (s : State) (st : Status) (cause : Byte) : (s.refuse st cause).rspDepth = s.rspDepth := rfl
@[simp] theorem State.refuse_rst (s : State) (st : Status) (cause : Byte) : (s.refuse st cause).rst = s.rst := rfl

@[simp] theorem State.bumpSeq_state (s : State) : s.bumpSeq.state = s.state := rfl
@[simp] theorem State.bumpSeq_secret (s : State) : s.bumpSeq.secret = s.secret := rfl
@[simp] theorem State.bumpSeq_srS (s : State) : s.bumpSeq.srS = s.srS := rfl
@[simp] theorem State.bumpSeq_srR (s : State) : s.bumpSeq.srR = s.srR := rfl
@[simp] theorem State.bumpSeq_sendCtr (s : State) : s.bumpSeq.sendCtr = s.sendCtr := rfl
@[simp] theorem State.bumpSeq_recvCtr (s : State) : s.bumpSeq.recvCtr = s.recvCtr := rfl
@[simp] theorem State.bumpSeq_faultKind (s : State) : s.bumpSeq.faultKind = s.faultKind := rfl
@[simp] theorem State.bumpSeq_faultCause (s : State) : s.bumpSeq.faultCause = s.faultCause := rfl
@[simp] theorem State.bumpSeq_faultOpc (s : State) : s.bumpSeq.faultOpc = s.faultOpc := rfl
@[simp] theorem State.bumpSeq_faultSeq (s : State) : s.bumpSeq.faultSeq = s.faultSeq := rfl
@[simp] theorem State.bumpSeq_cmdSeq (s : State) : s.bumpSeq.cmdSeq = s.cmdSeq + 1 := rfl
@[simp] theorem State.bumpSeq_compLevel (s : State) : s.bumpSeq.compLevel = s.compLevel := rfl
@[simp] theorem State.bumpSeq_cmdIn (s : State) : s.bumpSeq.cmdIn = s.cmdIn := rfl
@[simp] theorem State.bumpSeq_rspOut (s : State) : s.bumpSeq.rspOut = s.rspOut := rfl
@[simp] theorem State.bumpSeq_rspDepth (s : State) : s.bumpSeq.rspDepth = s.rspDepth := rfl
@[simp] theorem State.bumpSeq_rst (s : State) : s.bumpSeq.rst = s.rst := rfl

@[simp] theorem State.dropContext_state (s : State) : s.dropContext.state = s.state := rfl
@[simp] theorem State.dropContext_secret (s : State) : s.dropContext.secret = none := rfl
@[simp] theorem State.dropContext_srS (s : State) : s.dropContext.srS = none := rfl
@[simp] theorem State.dropContext_srR (s : State) : s.dropContext.srR = none := rfl
@[simp] theorem State.dropContext_sendCtr (s : State) : s.dropContext.sendCtr = s.sendCtr := rfl
@[simp] theorem State.dropContext_recvCtr (s : State) : s.dropContext.recvCtr = s.recvCtr := rfl
@[simp] theorem State.dropContext_faultKind (s : State) : s.dropContext.faultKind = s.faultKind := rfl
@[simp] theorem State.dropContext_faultCause (s : State) : s.dropContext.faultCause = s.faultCause := rfl
@[simp] theorem State.dropContext_faultOpc (s : State) : s.dropContext.faultOpc = s.faultOpc := rfl
@[simp] theorem State.dropContext_faultSeq (s : State) : s.dropContext.faultSeq = s.faultSeq := rfl
@[simp] theorem State.dropContext_cmdSeq (s : State) : s.dropContext.cmdSeq = s.cmdSeq := rfl
@[simp] theorem State.dropContext_compLevel (s : State) : s.dropContext.compLevel = s.compLevel := rfl
@[simp] theorem State.dropContext_cmdIn (s : State) : s.dropContext.cmdIn = s.cmdIn := rfl
@[simp] theorem State.dropContext_rspOut (s : State) : s.dropContext.rspOut = s.rspOut := rfl
@[simp] theorem State.dropContext_rspDepth (s : State) : s.dropContext.rspDepth = s.rspDepth := rfl
@[simp] theorem State.dropContext_rst (s : State) : s.dropContext.rst = s.rst := rfl

@[simp] theorem State.disposeContext_state (s : State) : s.disposeContext.state = .disposed := rfl
@[simp] theorem State.disposeContext_secret (s : State) : s.disposeContext.secret = none := rfl
@[simp] theorem State.disposeContext_srS (s : State) : s.disposeContext.srS = none := rfl
@[simp] theorem State.disposeContext_srR (s : State) : s.disposeContext.srR = none := rfl
@[simp] theorem State.disposeContext_sendCtr (s : State) : s.disposeContext.sendCtr = s.sendCtr := rfl
@[simp] theorem State.disposeContext_recvCtr (s : State) : s.disposeContext.recvCtr = s.recvCtr := rfl
@[simp] theorem State.disposeContext_faultKind (s : State) : s.disposeContext.faultKind = s.faultKind := rfl
@[simp] theorem State.disposeContext_faultCause (s : State) : s.disposeContext.faultCause = s.faultCause := rfl
@[simp] theorem State.disposeContext_faultOpc (s : State) : s.disposeContext.faultOpc = s.faultOpc := rfl
@[simp] theorem State.disposeContext_faultSeq (s : State) : s.disposeContext.faultSeq = s.faultSeq := rfl
@[simp] theorem State.disposeContext_cmdSeq (s : State) : s.disposeContext.cmdSeq = s.cmdSeq := rfl
@[simp] theorem State.disposeContext_compLevel (s : State) : s.disposeContext.compLevel = s.compLevel := rfl
@[simp] theorem State.disposeContext_cmdIn (s : State) : s.disposeContext.cmdIn = s.cmdIn := rfl
@[simp] theorem State.disposeContext_rspOut (s : State) : s.disposeContext.rspOut = s.rspOut := rfl
@[simp] theorem State.disposeContext_rspDepth (s : State) : s.disposeContext.rspDepth = s.rspDepth := rfl
@[simp] theorem State.disposeContext_rst (s : State) : s.disposeContext.rst = s.rst := rfl

@[simp] theorem State.raise_state (s : State) (kind : FaultKind) (cause : Byte) (opc : Opcode) : (s.raise kind cause opc).state = .faulted := rfl
@[simp] theorem State.raise_secret (s : State) (kind : FaultKind) (cause : Byte) (opc : Opcode) : (s.raise kind cause opc).secret = none := rfl
@[simp] theorem State.raise_srS (s : State) (kind : FaultKind) (cause : Byte) (opc : Opcode) : (s.raise kind cause opc).srS = none := rfl
@[simp] theorem State.raise_srR (s : State) (kind : FaultKind) (cause : Byte) (opc : Opcode) : (s.raise kind cause opc).srR = none := rfl
@[simp] theorem State.raise_sendCtr (s : State) (kind : FaultKind) (cause : Byte) (opc : Opcode) : (s.raise kind cause opc).sendCtr = s.sendCtr := rfl
@[simp] theorem State.raise_recvCtr (s : State) (kind : FaultKind) (cause : Byte) (opc : Opcode) : (s.raise kind cause opc).recvCtr = s.recvCtr := rfl
@[simp] theorem State.raise_faultKind (s : State) (kind : FaultKind) (cause : Byte) (opc : Opcode) : (s.raise kind cause opc).faultKind = faultKindCode kind := rfl
@[simp] theorem State.raise_faultCause (s : State) (kind : FaultKind) (cause : Byte) (opc : Opcode) : (s.raise kind cause opc).faultCause = cause := rfl
@[simp] theorem State.raise_faultOpc (s : State) (kind : FaultKind) (cause : Byte) (opc : Opcode) : (s.raise kind cause opc).faultOpc = opcodeByte opc := rfl
@[simp] theorem State.raise_faultSeq (s : State) (kind : FaultKind) (cause : Byte) (opc : Opcode) : (s.raise kind cause opc).faultSeq = s.cmdSeq := rfl
@[simp] theorem State.raise_cmdSeq (s : State) (kind : FaultKind) (cause : Byte) (opc : Opcode) : (s.raise kind cause opc).cmdSeq = s.cmdSeq := rfl
@[simp] theorem State.raise_compLevel (s : State) (kind : FaultKind) (cause : Byte) (opc : Opcode) : (s.raise kind cause opc).compLevel = s.compLevel := rfl
@[simp] theorem State.raise_cmdIn (s : State) (kind : FaultKind) (cause : Byte) (opc : Opcode) : (s.raise kind cause opc).cmdIn = s.cmdIn := rfl
@[simp] theorem State.raise_rspOut (s : State) (kind : FaultKind) (cause : Byte) (opc : Opcode) : (s.raise kind cause opc).rspOut = s.rspOut ++ [⟨statusWord (faultStatus kind) cause, if faultStatus kind = .ok then ([] : Bytes) else []⟩] := rfl
@[simp] theorem State.raise_rspDepth (s : State) (kind : FaultKind) (cause : Byte) (opc : Opcode) : (s.raise kind cause opc).rspDepth = s.rspDepth := rfl
@[simp] theorem State.raise_rst (s : State) (kind : FaultKind) (cause : Byte) (opc : Opcode) : (s.raise kind cause opc).rst = s.rst := rfl

@[simp] theorem State.loadContext_state (s : State) (k : Secret) (a b : Block) : (s.loadContext k a b).state = .ready := rfl
@[simp] theorem State.loadContext_secret (s : State) (k : Secret) (a b : Block) : (s.loadContext k a b).secret = some k := rfl
@[simp] theorem State.loadContext_srS (s : State) (k : Secret) (a b : Block) : (s.loadContext k a b).srS = some a := rfl
@[simp] theorem State.loadContext_srR (s : State) (k : Secret) (a b : Block) : (s.loadContext k a b).srR = some b := rfl
@[simp] theorem State.loadContext_sendCtr (s : State) (k : Secret) (a b : Block) : (s.loadContext k a b).sendCtr = 0 := rfl
@[simp] theorem State.loadContext_recvCtr (s : State) (k : Secret) (a b : Block) : (s.loadContext k a b).recvCtr = 0 := rfl
@[simp] theorem State.loadContext_faultKind (s : State) (k : Secret) (a b : Block) : (s.loadContext k a b).faultKind = 0 := rfl
@[simp] theorem State.loadContext_faultCause (s : State) (k : Secret) (a b : Block) : (s.loadContext k a b).faultCause = 0 := rfl
@[simp] theorem State.loadContext_faultOpc (s : State) (k : Secret) (a b : Block) : (s.loadContext k a b).faultOpc = 0 := rfl
@[simp] theorem State.loadContext_faultSeq (s : State) (k : Secret) (a b : Block) : (s.loadContext k a b).faultSeq = 0 := rfl
@[simp] theorem State.loadContext_cmdSeq (s : State) (k : Secret) (a b : Block) : (s.loadContext k a b).cmdSeq = s.cmdSeq := rfl
@[simp] theorem State.loadContext_compLevel (s : State) (k : Secret) (a b : Block) : (s.loadContext k a b).compLevel = s.compLevel := rfl
@[simp] theorem State.loadContext_cmdIn (s : State) (k : Secret) (a b : Block) : (s.loadContext k a b).cmdIn = s.cmdIn := rfl
@[simp] theorem State.loadContext_rspOut (s : State) (k : Secret) (a b : Block) : (s.loadContext k a b).rspOut = s.rspOut := rfl
@[simp] theorem State.loadContext_rspDepth (s : State) (k : Secret) (a b : Block) : (s.loadContext k a b).rspDepth = s.rspDepth := rfl
@[simp] theorem State.loadContext_rst (s : State) (k : Secret) (a b : Block) : (s.loadContext k a b).rst = s.rst := rfl

@[simp] theorem State.illegalCommand_state (s : State) (c : IllegalCause) : (s.illegalCommand c).state = s.state := rfl
@[simp] theorem State.illegalCommand_secret (s : State) (c : IllegalCause) : (s.illegalCommand c).secret = s.secret := rfl
@[simp] theorem State.illegalCommand_srS (s : State) (c : IllegalCause) : (s.illegalCommand c).srS = s.srS := rfl
@[simp] theorem State.illegalCommand_srR (s : State) (c : IllegalCause) : (s.illegalCommand c).srR = s.srR := rfl
@[simp] theorem State.illegalCommand_sendCtr (s : State) (c : IllegalCause) : (s.illegalCommand c).sendCtr = s.sendCtr := rfl
@[simp] theorem State.illegalCommand_recvCtr (s : State) (c : IllegalCause) : (s.illegalCommand c).recvCtr = s.recvCtr := rfl
@[simp] theorem State.illegalCommand_faultKind (s : State) (c : IllegalCause) : (s.illegalCommand c).faultKind = s.faultKind := rfl
@[simp] theorem State.illegalCommand_faultCause (s : State) (c : IllegalCause) : (s.illegalCommand c).faultCause = s.faultCause := rfl
@[simp] theorem State.illegalCommand_faultOpc (s : State) (c : IllegalCause) : (s.illegalCommand c).faultOpc = s.faultOpc := rfl
@[simp] theorem State.illegalCommand_faultSeq (s : State) (c : IllegalCause) : (s.illegalCommand c).faultSeq = s.faultSeq := rfl
@[simp] theorem State.illegalCommand_cmdSeq (s : State) (c : IllegalCause) : (s.illegalCommand c).cmdSeq = s.cmdSeq + 1 := rfl
@[simp] theorem State.illegalCommand_compLevel (s : State) (c : IllegalCause) : (s.illegalCommand c).compLevel = s.compLevel := rfl
@[simp] theorem State.illegalCommand_cmdIn (s : State) (c : IllegalCause) : (s.illegalCommand c).cmdIn = s.cmdIn := rfl
@[simp] theorem State.illegalCommand_rspOut (s : State) (c : IllegalCause) : (s.illegalCommand c).rspOut = s.rspOut ++ [⟨statusWord .illegalCommand (illegalCode c), if Status.illegalCommand = .ok then ([] : Bytes) else []⟩] := rfl
@[simp] theorem State.illegalCommand_rspDepth (s : State) (c : IllegalCause) : (s.illegalCommand c).rspDepth = s.rspDepth := rfl
@[simp] theorem State.illegalCommand_rst (s : State) (c : IllegalCause) : (s.illegalCommand c).rst = s.rst := rfl

@[simp] theorem State.consumed_state (s : State) (rest : Bytes) : (s.consumed rest).state = s.state := rfl
@[simp] theorem State.consumed_secret (s : State) (rest : Bytes) : (s.consumed rest).secret = s.secret := rfl
@[simp] theorem State.consumed_srS (s : State) (rest : Bytes) : (s.consumed rest).srS = s.srS := rfl
@[simp] theorem State.consumed_srR (s : State) (rest : Bytes) : (s.consumed rest).srR = s.srR := rfl
@[simp] theorem State.consumed_sendCtr (s : State) (rest : Bytes) : (s.consumed rest).sendCtr = s.sendCtr := rfl
@[simp] theorem State.consumed_recvCtr (s : State) (rest : Bytes) : (s.consumed rest).recvCtr = s.recvCtr := rfl
@[simp] theorem State.consumed_faultKind (s : State) (rest : Bytes) : (s.consumed rest).faultKind = s.faultKind := rfl
@[simp] theorem State.consumed_faultCause (s : State) (rest : Bytes) : (s.consumed rest).faultCause = s.faultCause := rfl
@[simp] theorem State.consumed_faultOpc (s : State) (rest : Bytes) : (s.consumed rest).faultOpc = s.faultOpc := rfl
@[simp] theorem State.consumed_faultSeq (s : State) (rest : Bytes) : (s.consumed rest).faultSeq = s.faultSeq := rfl
@[simp] theorem State.consumed_cmdSeq (s : State) (rest : Bytes) : (s.consumed rest).cmdSeq = s.cmdSeq := rfl
@[simp] theorem State.consumed_compLevel (s : State) (rest : Bytes) : (s.consumed rest).compLevel = s.compLevel := rfl
@[simp] theorem State.consumed_cmdIn (s : State) (rest : Bytes) : (s.consumed rest).cmdIn = rest := rfl
@[simp] theorem State.consumed_rspOut (s : State) (rest : Bytes) : (s.consumed rest).rspOut = s.rspOut := rfl
@[simp] theorem State.consumed_rspDepth (s : State) (rest : Bytes) : (s.consumed rest).rspDepth = s.rspDepth := rfl
@[simp] theorem State.consumed_rst (s : State) (rest : Bytes) : (s.consumed rest).rst = s.rst := rfl

/-- Out of reset, submitted bytes queue behind those already there. -/
theorem State.submit_running {s : State} (h : s.rst = false) (bs : Bytes) :
    s.submit bs = { s with cmdIn := s.cmdIn ++ bs } := by simp [State.submit, h]

/-- Under reset, submitted bytes are dropped. -/
theorem State.submit_inReset {s : State} (h : s.rst = true) (bs : Bytes) : s.submit bs = s.inReset := by
  simp [State.submit, h]

/-- Asserting `rst` leaves every element at its reset value. -/
theorem State.driveReset_assert (s : State) :
    s.driveReset true = { State.reset with rst := true, rspDepth := s.rspDepth } := by simp [State.driveReset, State.inReset]

/-- Releasing `rst` leaves every element at its reset value too. -/
theorem State.driveReset_release {s : State} (h : s.rst = true) :
    s.driveReset false = { State.reset with rspDepth := s.rspDepth } := by
  simp only [State.driveReset, h, State.inReset, Bool.true_or, if_true]; rfl

/-- A low level of `rst` that stays low does nothing. -/
theorem State.driveReset_running {s : State} (h : s.rst = false) : s.driveReset false = s := by simp [State.driveReset, h]

/-- What the host takes: out of reset, the oldest response waiting, and nothing else changes. -/
theorem State.takeResponse_eq_some {s t : State} {r : Response} :
    s.takeResponse = some (r, t) ↔ s.rst = false ∧ ∃ rs, s.rspOut = r :: rs ∧ t = { s with rspOut := rs } := by
  constructor
  · intro h
    unfold State.takeResponse at h
    split at h
    · simp at h
    · rename_i hr
      split at h
      · simp at h
      · rename_i r' rs ho
        simp only [Option.some.injEq, Prod.mk.injEq] at h
        obtain ⟨rfl, rfl⟩ := h
        exact ⟨by simpa using hr, rs, ho, rfl⟩
  · rintro ⟨h, rs, ho, rfl⟩
    simp [State.takeResponse, h, ho]

/-- There is nothing to take under reset, or with no response waiting. -/
theorem State.takeResponse_eq_none {s : State} : s.takeResponse = none ↔ s.rst = true ∨ s.rspOut = [] := by
  cases h : s.rst <;> cases ho : s.rspOut <;> simp [State.takeResponse, h, ho]

/-- Out of reset, a command is placed in front of the bytes of the channel, and the bound of the response channel is off. -/
theorem State.presentCommand_running {s : State} (h : s.rst = false) (bs : Bytes) :
    s.presentCommand bs = { s with cmdIn := bs ++ s.cmdIn, rspDepth := none } := by
  simp [State.presentCommand, State.driveReset_running h]

/-- Under reset, a command is placed in the channel of the block that reset leaves. -/
theorem State.presentCommand_inReset {s : State} (h : s.rst = true) (bs : Bytes) :
    s.presentCommand bs = { State.reset with cmdIn := bs } := by
  simp only [State.presentCommand, State.driveReset_release h]
  simp [State.reset]

@[simp] theorem State.submit_rspDepth (s : State) (bs : Bytes) : (s.submit bs).rspDepth = s.rspDepth := by
  unfold State.submit; split <;> rfl
@[simp] theorem State.submit_rst (s : State) (bs : Bytes) : (s.submit bs).rst = s.rst := by
  unfold State.submit; split <;> rfl
@[simp] theorem State.driveReset_rst (s : State) (level : Bool) : (s.driveReset level).rst = level := by
  cases level <;> cases h : s.rst <;> simp [State.driveReset, State.inReset, h]
@[simp] theorem State.driveReset_rspDepth (s : State) (level : Bool) : (s.driveReset level).rspDepth = s.rspDepth := by
  unfold State.driveReset; split <;> rfl
@[simp] theorem State.presentCommand_rspDepth (s : State) (bs : Bytes) : (s.presentCommand bs).rspDepth = none := rfl
@[simp] theorem State.presentCommand_rst (s : State) (bs : Bytes) : (s.presentCommand bs).rst = false :=
  s.driveReset_rst false

@[simp] theorem State.setDepth_state (s : State) (d : Option Nat) : (s.setDepth d).state = s.state := rfl
@[simp] theorem State.setDepth_secret (s : State) (d : Option Nat) : (s.setDepth d).secret = s.secret := rfl
@[simp] theorem State.setDepth_srS (s : State) (d : Option Nat) : (s.setDepth d).srS = s.srS := rfl
@[simp] theorem State.setDepth_srR (s : State) (d : Option Nat) : (s.setDepth d).srR = s.srR := rfl
@[simp] theorem State.setDepth_sendCtr (s : State) (d : Option Nat) : (s.setDepth d).sendCtr = s.sendCtr := rfl
@[simp] theorem State.setDepth_recvCtr (s : State) (d : Option Nat) : (s.setDepth d).recvCtr = s.recvCtr := rfl
@[simp] theorem State.setDepth_faultKind (s : State) (d : Option Nat) : (s.setDepth d).faultKind = s.faultKind := rfl
@[simp] theorem State.setDepth_faultCause (s : State) (d : Option Nat) : (s.setDepth d).faultCause = s.faultCause := rfl
@[simp] theorem State.setDepth_faultOpc (s : State) (d : Option Nat) : (s.setDepth d).faultOpc = s.faultOpc := rfl
@[simp] theorem State.setDepth_faultSeq (s : State) (d : Option Nat) : (s.setDepth d).faultSeq = s.faultSeq := rfl
@[simp] theorem State.setDepth_cmdSeq (s : State) (d : Option Nat) : (s.setDepth d).cmdSeq = s.cmdSeq := rfl
@[simp] theorem State.setDepth_compLevel (s : State) (d : Option Nat) : (s.setDepth d).compLevel = s.compLevel := rfl
@[simp] theorem State.setDepth_cmdIn (s : State) (d : Option Nat) : (s.setDepth d).cmdIn = s.cmdIn := rfl
@[simp] theorem State.setDepth_rspOut (s : State) (d : Option Nat) : (s.setDepth d).rspOut = s.rspOut := rfl
@[simp] theorem State.setDepth_rspDepth (s : State) (d : Option Nat) : (s.setDepth d).rspDepth = d := rfl
@[simp] theorem State.setDepth_rst (s : State) (d : Option Nat) : (s.setDepth d).rst = s.rst := rfl

@[simp] theorem State.inReset_state (s : State) : s.inReset.state = State.reset.state := rfl
@[simp] theorem State.inReset_secret (s : State) : s.inReset.secret = State.reset.secret := rfl
@[simp] theorem State.inReset_srS (s : State) : s.inReset.srS = State.reset.srS := rfl
@[simp] theorem State.inReset_srR (s : State) : s.inReset.srR = State.reset.srR := rfl
@[simp] theorem State.inReset_sendCtr (s : State) : s.inReset.sendCtr = State.reset.sendCtr := rfl
@[simp] theorem State.inReset_recvCtr (s : State) : s.inReset.recvCtr = State.reset.recvCtr := rfl
@[simp] theorem State.inReset_faultKind (s : State) : s.inReset.faultKind = State.reset.faultKind := rfl
@[simp] theorem State.inReset_faultCause (s : State) : s.inReset.faultCause = State.reset.faultCause := rfl
@[simp] theorem State.inReset_faultOpc (s : State) : s.inReset.faultOpc = State.reset.faultOpc := rfl
@[simp] theorem State.inReset_faultSeq (s : State) : s.inReset.faultSeq = State.reset.faultSeq := rfl
@[simp] theorem State.inReset_cmdSeq (s : State) : s.inReset.cmdSeq = State.reset.cmdSeq := rfl
@[simp] theorem State.inReset_compLevel (s : State) : s.inReset.compLevel = State.reset.compLevel := rfl
@[simp] theorem State.inReset_cmdIn (s : State) : s.inReset.cmdIn = State.reset.cmdIn := rfl
@[simp] theorem State.inReset_rspOut (s : State) : s.inReset.rspOut = State.reset.rspOut := rfl
@[simp] theorem State.inReset_rspDepth (s : State) : s.inReset.rspDepth = s.rspDepth := rfl
@[simp] theorem State.inReset_rst (s : State) : s.inReset.rst = s.rst := rfl

@[simp] theorem State.setSr_state (s : State) (e : Engine) (b : Block) : (s.setSr e b).state = s.state := by cases e <;> rfl
@[simp] theorem State.setSr_secret (s : State) (e : Engine) (b : Block) : (s.setSr e b).secret = s.secret := by cases e <;> rfl
@[simp] theorem State.setSr_send_srS (s : State) (b : Block) : (s.setSr .send b).srS = some b := rfl
@[simp] theorem State.setSr_recv_srS (s : State) (b : Block) : (s.setSr .recv b).srS = s.srS := rfl
@[simp] theorem State.setSr_recv_srR (s : State) (b : Block) : (s.setSr .recv b).srR = some b := rfl
@[simp] theorem State.setSr_send_srR (s : State) (b : Block) : (s.setSr .send b).srR = s.srR := rfl
@[simp] theorem State.setSr_sendCtr (s : State) (e : Engine) (b : Block) : (s.setSr e b).sendCtr = s.sendCtr := by cases e <;> rfl
@[simp] theorem State.setSr_recvCtr (s : State) (e : Engine) (b : Block) : (s.setSr e b).recvCtr = s.recvCtr := by cases e <;> rfl
@[simp] theorem State.setSr_faultKind (s : State) (e : Engine) (b : Block) : (s.setSr e b).faultKind = s.faultKind := by cases e <;> rfl
@[simp] theorem State.setSr_faultCause (s : State) (e : Engine) (b : Block) : (s.setSr e b).faultCause = s.faultCause := by cases e <;> rfl
@[simp] theorem State.setSr_faultOpc (s : State) (e : Engine) (b : Block) : (s.setSr e b).faultOpc = s.faultOpc := by cases e <;> rfl
@[simp] theorem State.setSr_faultSeq (s : State) (e : Engine) (b : Block) : (s.setSr e b).faultSeq = s.faultSeq := by cases e <;> rfl
@[simp] theorem State.setSr_cmdSeq (s : State) (e : Engine) (b : Block) : (s.setSr e b).cmdSeq = s.cmdSeq := by cases e <;> rfl
@[simp] theorem State.setSr_compLevel (s : State) (e : Engine) (b : Block) : (s.setSr e b).compLevel = s.compLevel := by cases e <;> rfl
@[simp] theorem State.setSr_cmdIn (s : State) (e : Engine) (b : Block) : (s.setSr e b).cmdIn = s.cmdIn := by cases e <;> rfl
@[simp] theorem State.setSr_rspOut (s : State) (e : Engine) (b : Block) : (s.setSr e b).rspOut = s.rspOut := by cases e <;> rfl
@[simp] theorem State.setSr_rspDepth (s : State) (e : Engine) (b : Block) : (s.setSr e b).rspDepth = s.rspDepth := by cases e <;> rfl
@[simp] theorem State.setSr_rst (s : State) (e : Engine) (b : Block) : (s.setSr e b).rst = s.rst := by cases e <;> rfl

end Sys2Proof.Machine
end

