-- ==== Sys2Proof/Laws/Ops.lean ====
section
/-! SUPPORT. What each shared operation of the command cycle can do, said once. -/

namespace Sys2Proof.Machine

/-- `fitsPlain` is the bound MAX_PLAIN_LEN. -/
theorem fitsPlain_iff (n : Nat) : fitsPlain n = true ↔ n ≤ Config.maxPlainLen := by
  have : 2 ^ 22 ≤ Config.maxPlainLen := Nat.le_add_right _ _
  simp only [fitsPlain, Bool.or_eq_true, decide_eq_true_eq]
  omega

theorem fitsPlain_eq_false_iff (n : Nat) : fitsPlain n = false ↔ Config.maxPlainLen < n := by
  rw [← Bool.not_eq_true, fitsPlain_iff, Nat.not_le]

/-- MAX_WIRE_LEN is above 2^22. -/
theorem two_pow_le_maxWireLen : 2 ^ 22 ≤ maxWireLen := by
  have : 2 ^ 22 ≤ Config.maxPlainLen := Nat.le_add_right _ _
  unfold maxWireLen storedBound
  omega

/-- `fitsWire` is the bound MAX_WIRE_LEN. -/
theorem fitsWire_iff (n : Nat) : fitsWire n = true ↔ n ≤ maxWireLen := by
  have := two_pow_le_maxWireLen
  simp only [fitsWire, Bool.or_eq_true, decide_eq_true_eq]
  omega

theorem fitsWire_eq_false_iff (n : Nat) : fitsWire n = false ↔ maxWireLen < n := by
  rw [← Bool.not_eq_true, fitsWire_iff, Nat.not_le]

/-- A status word's low byte is its status code. -/
@[simp] theorem statusWord_status (st : Status) (cause : Byte) :
    (statusWord st cause).extractLsb' 0 8 = statusCode st := by
  ext i hi
  have h : i < 32 := by omega
  simp only [statusWord, BitVec.getElem_extractLsb', BitVec.getLsbD_setWidth, BitVec.getLsbD_append]
  simp [hi, h]

/-- A status word's second byte is its cause. -/
@[simp] theorem statusWord_cause (st : Status) (cause : Byte) :
    (statusWord st cause).extractLsb' 8 8 = cause := by
  ext i hi
  have h : 8 + i < 32 := by omega
  simp only [statusWord, BitVec.getElem_extractLsb', BitVec.getLsbD_setWidth, BitVec.getLsbD_append]
  simp [hi, h]

/-- The upper half of a status word is zero. -/
@[simp] theorem statusWord_high (st : Status) (cause : Byte) :
    (statusWord st cause).extractLsb' 16 16 = 0 := by
  ext i hi
  simp only [statusWord, BitVec.getElem_extractLsb', BitVec.getLsbD_setWidth, BitVec.getLsbD_append]
  have h : cause.getLsbD (16 + i - 8) = false := BitVec.getLsbD_of_ge _ _ (by omega)
  simp only [h]
  simp
  omega

theorem bumpResult_next (s : State) : bumpResult (.next s) = .next s.bumpSeq := rfl

/-- CMD_SEQ's increment answers a next state only where Perform does. -/
theorem bumpResult_eq_next {r : Result} {t : State} :
    bumpResult r = .next t ↔ ∃ s, r = .next s ∧ t = s.bumpSeq := by
  cases r <;> simp [bumpResult, eq_comm]

/-- The gate: in FAULTED a command that does not run there is REJECTED. -/
theorem commandCycle_gated {i : Instr} {perform : State → Result} {s : State}
    (hs : s.state = .faulted) (hi : runsInFaulted i = false) :
    commandCycle i perform s = .next (s.refuse .rejected s.faultKind).bumpSeq := by
  simp [commandCycle, hs, hi, bumpResult]

/-- Past the gate, a length the command does not admit is LENGTH_ERROR. -/
theorem commandCycle_badLength {i : Instr} {perform : State → Result} {s : State}
    (hg : s.state ≠ .faulted ∨ runsInFaulted i = true) (hl : admitsLength i = false) :
    commandCycle i perform s = .next (s.refuse .lengthError 0).bumpSeq := by
  have : ¬ (s.state = .faulted ∧ runsInFaulted i = false) := by
    rintro ⟨h1, h2⟩
    rcases hg with h | h <;> simp_all
  simp [commandCycle, this, hl, bumpResult]

/-- Past the gate and the length check, the command performs. -/
theorem commandCycle_perform {i : Instr} {perform : State → Result} {s : State}
    (hg : s.state ≠ .faulted ∨ runsInFaulted i = true) (hl : admitsLength i = true) :
    commandCycle i perform s = bumpResult (perform s) := by
  have : ¬ (s.state = .faulted ∧ runsInFaulted i = false) := by
    rintro ⟨h1, h2⟩
    rcases hg with h | h <;> simp_all
  simp [commandCycle, this, hl]

/-- Everything the cycle can do when it answers a next state. -/
theorem commandCycle_cases {i : Instr} {perform : State → Result} {s t : State}
    (h : commandCycle i perform s = .next t) :
    (s.state = .faulted ∧ runsInFaulted i = false ∧ t = (s.refuse .rejected s.faultKind).bumpSeq) ∨
    ((s.state ≠ .faulted ∨ runsInFaulted i = true) ∧ admitsLength i = false ∧
      t = (s.refuse .lengthError 0).bumpSeq) ∨
    ((s.state ≠ .faulted ∨ runsInFaulted i = true) ∧ admitsLength i = true ∧
      ∃ u, perform s = .next u ∧ t = u.bumpSeq) := by
  by_cases hg : s.state = .faulted ∧ runsInFaulted i = false
  · rw [commandCycle_gated hg.1 hg.2] at h
    exact .inl ⟨hg.1, hg.2, by simpa using h.symm⟩
  · have hg' : s.state ≠ .faulted ∨ runsInFaulted i = true := by
      rcases Decidable.not_and_iff_or_not.mp hg with h | h
      · exact .inl h
      · exact .inr (by simpa using h)
    cases hl : admitsLength i with
    | false =>
      rw [commandCycle_badLength hg' hl] at h
      exact .inr (.inl ⟨hg', rfl, by simpa using h.symm⟩)
    | true =>
      rw [commandCycle_perform hg' hl, bumpResult_eq_next] at h
      exact .inr (.inr ⟨hg', rfl, h⟩)

/-- The context is present exactly when its three elements are. -/
theorem State.context_eq_some {s : State} {k : Context} :
    s.context = some k ↔ s.secret = some k.secret ∧ s.srS = some k.srS ∧ s.srR = some k.srR := by
  rcases k with ⟨a, b, c⟩
  unfold State.context
  split
  · simp_all
  · rename_i h
    simp only [reduceCtorEq, false_iff]
    rintro ⟨h1, h2, h3⟩
    exact h _ _ _ h1 h2 h3

theorem requireContext_uninit {opc : Opcode} {s : State} {perform : Context → Result} (h : s.state = .uninit) :
    requireContext opc s perform = .next (s.raise .engine 1 opc) := by
  simp [requireContext, h, engineCode]

theorem requireContext_disposed {opc : Opcode} {s : State} {perform : Context → Result} (h : s.state = .disposed) :
    requireContext opc s perform = .next (s.raise .engine 2 opc) := by
  simp [requireContext, h, engineCode]

theorem requireContext_ready {opc : Opcode} {s : State} {perform : Context → Result} {k : Context}
    (h : s.hasContext k) : requireContext opc s perform = perform k := by
  obtain ⟨h1, h2⟩ := h
  simp [requireContext, h1, State.context_eq_some.mpr h2]

/-- Everything RequireContext can do when the command goes on to a next state. -/
theorem requireContext_cases {opc : Opcode} {s t : State} {perform : Context → Result}
    (h : requireContext opc s perform = .next t) :
    (s.state = .uninit ∧ t = s.raise .engine 1 opc) ∨
    (s.state = .disposed ∧ t = s.raise .engine 2 opc) ∨
    ((s.state = .ready ∨ s.state = .faulted) ∧
      ∃ k : Context, s.secret = some k.secret ∧ s.srS = some k.srS ∧ s.srR = some k.srR ∧ perform k = .next t) := by
  unfold requireContext at h
  split at h
  · rename_i hs
    exact .inl ⟨hs, by simpa [engineCode] using h.symm⟩
  · rename_i hs
    exact .inr (.inl ⟨hs, by simpa [engineCode] using h.symm⟩)
  all_goals
    rename_i hs
    split at h
    · rename_i k hk
      obtain ⟨h1, h2, h3⟩ := State.context_eq_some.mp hk
      exact .inr (.inr ⟨by simp [hs], k, h1, h2, h3, h⟩)
    · simp at h

end Sys2Proof.Machine
end

