-- ==== Sys2Proof/Laws/Exec.lean ====
section
/-! SUPPORT. Everything a command can do when it answers a next state, said once, and that it ignores the channels. -/

namespace Sys2Proof.Machine

/-- The commands that run in FAULTED are those the gate lets pass. -/
theorem runsInFaulted_iff (i : Instr) :
    runsInFaulted i = false ↔ instrOpcode i ∉ [Opcode.nop, .csrr, .init, .dispose] := by
  cases i <;> simp [runsInFaulted, instrOpcode]

theorem gated_iff (i : Instr) (s : State) : gated i s ↔ s.state = .faulted ∧ runsInFaulted i = false := by
  rw [gated, runsInFaulted_iff]

/-- The length check is the table of admitted lengths. -/
theorem admitsLength_iff (i : Instr) : admitsLength i = true ↔ lengthAdmitted i := by
  have := two_pow_le_maxWireLen
  cases i <;>
    simp [admitsLength, lengthAdmitted, instrOpcode, Instr.payload, fitsWire_iff, fitsPlain_iff, Config.initLen,
      Config.secretLen, Config.ivLen, Config.le64Len]
  case inflate => omega
  all_goals exact decide_eq_true_iff

theorem statusWord_eq (st : Status) (cause : Byte) :
    statusWord st cause = (cause ++ statusCode st).zeroExtend 32 := rfl

/-- Responding OK and counting the command is `answer 0`. -/
theorem respond_ok_bumpSeq (s : State) (out : Bytes) : (s.respond .ok 0 out).bumpSeq = s.answer 0 out := by
  simp [State.respond, State.bumpSeq, State.answer, statusWord, statusCode]

/-- Refusing and counting the command is an `answer`. -/
theorem refuse_bumpSeq (s : State) (st : Status) (cause : Byte) :
    (s.refuse st cause).bumpSeq = s.answer (statusWord st cause) [] := by
  simp [State.refuse, State.respond, State.bumpSeq, State.answer]

/-- Taking a fatal fault and counting the command is `faultedBy`. -/
theorem raise_bumpSeq (s : State) (kind : FaultKind) (cause : Byte) (opc : Opcode) :
    (s.raise kind cause opc).bumpSeq = s.faultedBy (faultKindCode kind) cause (opcodeByte opc) := by
  cases kind <;> rfl

/-- What an instruction that passes RequireContext, or takes its EngineFault, leaves. -/
theorem bump_requireContext_cases {opc : Opcode} {s u t : State} {perform : Context → Result}
    (h : requireContext opc s perform = .next u) (ht : t = u.bumpSeq) :
    (s.state = .uninit ∧ t = s.faultedBy 1 1 (opcodeByte opc)) ∨
    (s.state = .disposed ∧ t = s.faultedBy 1 2 (opcodeByte opc)) ∨
    ((s.state = .ready ∨ s.state = .faulted) ∧ ∃ k : Context, s.secret = some k.secret ∧ s.srS = some k.srS ∧
      s.srR = some k.srR ∧ perform k = .next u) := by
  subst ht
  rcases requireContext_cases h with ⟨h1, rfl⟩ | ⟨h1, rfl⟩ | h1
  · exact .inl ⟨h1, raise_bumpSeq _ _ _ _⟩
  · exact .inr (.inl ⟨h1, raise_bumpSeq _ _ _ _⟩)
  · exact .inr (.inr h1)

/-- Every meaning is the command cycle around a Perform step. -/
theorem exec_eq_commandCycle (i : Instr) (s : State) : ∃ perform, exec i s = commandCycle i perform s := by
  cases i <;> simp only [exec, execNop, execInit, execDispose, execCsrr, execCsrw, execTag, execEncrypt, execDecrypt,
    execDeflate, execInflate, execEncode, execDecode] <;> exact ⟨_, rfl⟩

/-- The gate, for every command. -/
theorem exec_gated {i : Instr} {s : State} (h : gated i s) :
    exec i s = .next (s.answer ((s.faultKind ++ (0x12 : Byte)).zeroExtend 32) []) := by
  obtain ⟨h1, h2⟩ := (gated_iff i s).mp h
  rw [show ((s.faultKind ++ (0x12 : Byte)).zeroExtend 32 : Word32) = statusWord .rejected s.faultKind from rfl,
    ← refuse_bumpSeq]
  obtain ⟨perform, hp⟩ := exec_eq_commandCycle i s
  rw [hp, commandCycle_gated h1 h2]

/-- The length check, for every command. -/
theorem exec_badLength {i : Instr} {s : State} (h : ¬ gated i s) (hl : ¬ lengthAdmitted i) :
    exec i s = .next (s.answer 0x00000011 []) := by
  have h1 : s.state ≠ .faulted ∨ runsInFaulted i = true := by
    rw [gated_iff] at h
    rcases Decidable.not_and_iff_or_not.mp h with h | h
    · exact .inl h
    · exact .inr (by simpa using h)
  have h2 : admitsLength i = false := by
    rw [← Bool.not_eq_true, admitsLength_iff]; exact hl
  rw [show (0x00000011 : Word32) = statusWord .lengthError 0 from rfl, ← refuse_bumpSeq]
  obtain ⟨perform, hp⟩ := exec_eq_commandCycle i s
  rw [hp, commandCycle_badLength h1 h2]

/-- What DECODE does past RequireContext with a unit that deciphers to a payload `c` and 8 bytes `t`. -/
theorem performDecode_eq {unit c t : Bytes} {s : State} {k : Context} (h : (dec k.secret k.srR unit).1 = c ++ t)
    (ht : t.length = 8) :
    performDecode unit s k =
      let u : State := { s with srR := some (dec k.secret k.srR unit).2, recvCtr := s.recvCtr + 1 }
      if tagsMatch (tag s.recvCtr c k.secret) t = false then
        .next (u.raise .integrity (integrityCode .tagMismatch) .decode)
      else
        match inflate c with
        | .error e => .next (u.raise .decode (decodeCode e) .decode)
        | .ok p => .next (u.respond .ok 0 p) := by
  unfold performDecode finishDecode
  simp only [h, Config.tagLen]
  rw [if_neg (by rw [List.length_append]; omega)]
  have : (c ++ t).length - 8 = c.length := by rw [List.length_append]; omega
  rw [this, List.take_left, List.drop_left]
  all_goals rfl

/-- Everything a command can do when it answers a next state. -/
theorem exec_next {i : Instr} {s t : State} (h : exec i s = .next t) :
    (gated i s ∧ t = s.answer ((s.faultKind ++ (0x12 : Byte)).zeroExtend 32) []) ∨
    (¬ gated i s ∧ ¬ lengthAdmitted i ∧ t = s.answer 0x00000011 []) ∨
    (¬ gated i s ∧ lengthAdmitted i ∧
      match i with
      | .nop _ => t = s.answer 0 []
      | .init p => t = (s.loadContext (initSecret p) (initIvSend p) (initIvRecv p)).answer 0 []
      | .dispose _ => t = s.disposeContext.answer 0 []
      | .csrr c _ => t = s.answer 0 (le64 (csrRead c s))
      | .csrw c p =>
        (c ≠ .compLevel ∧ t = s.answer 0x00000510 []) ∨
        (c = .compLevel ∧ 9 < (operandLE64 p).toNat ∧ t = s.answer 0x00000610 []) ∨
        (c = .compLevel ∧ (operandLE64 p).toNat ≤ 9 ∧
          t = { s.answer 0 [] with compLevel := (operandLE64 p).extractLsb' 0 4 })
      | .tag p =>
        (s.state = .uninit ∧ t = s.faultedBy 1 1 0x10) ∨ (s.state = .disposed ∧ t = s.faultedBy 1 2 0x10) ∨
        (s.state = .ready ∧ ∃ k : Context, s.context = some k ∧
          t = s.answer 0 (tag (operandLE64 p) (tagData p) k.secret))
      | .encrypt e p =>
        (s.state = .uninit ∧ t = s.faultedBy 1 1 0x20) ∨ (s.state = .disposed ∧ t = s.faultedBy 1 2 0x20) ∨
        (s.state = .ready ∧ ∃ k : Context, s.context = some k ∧
          t = (s.setSr e (enc k.secret (k.sr e) p).2).answer 0 (enc k.secret (k.sr e) p).1)
      | .decrypt e p =>
        (s.state = .uninit ∧ t = s.faultedBy 1 1 0x21) ∨ (s.state = .disposed ∧ t = s.faultedBy 1 2 0x21) ∨
        (s.state = .ready ∧ ∃ k : Context, s.context = some k ∧
          t = (s.setSr e (dec k.secret (k.sr e) p).2).answer 0 (dec k.secret (k.sr e) p).1)
      | .deflate p => t = s.answer 0 (deflateLevel s.compLevel p)
      | .inflate p =>
        (∃ e, inflate p = .error e ∧ t = s.faultedBy 2 (decodeCode e) 0x31) ∨
        (∃ q, inflate p = .ok q ∧ t = s.answer 0 q)
      | .encode p =>
        (s.state = .uninit ∧ t = s.faultedBy 1 1 0x40) ∨ (s.state = .disposed ∧ t = s.faultedBy 1 2 0x40) ∨
        (s.state = .ready ∧ ∃ k : Context, s.context = some k ∧
          t = { s.answer 0 (enc k.secret k.srS (framedUnit s.compLevel s.sendCtr k.secret p)).1 with
            srS := some (enc k.secret k.srS (framedUnit s.compLevel s.sendCtr k.secret p)).2
            sendCtr := s.sendCtr + 1 })
      | .decode p =>
        (s.state = .uninit ∧ t = s.faultedBy 1 1 0x41) ∨ (s.state = .disposed ∧ t = s.faultedBy 1 2 0x41) ∨
        (s.state = .ready ∧ ∃ k : Context, s.context = some k ∧
          ((p.length < 8 ∧ t = { s with recvCtr := s.recvCtr + 1 }.faultedBy 3 2 0x41) ∨
          (8 ≤ p.length ∧ ∃ c u : Bytes, u.length = 8 ∧ (dec k.secret k.srR p).1 = c ++ u ∧
            ((u ≠ tag s.recvCtr c k.secret ∧ t = { s with recvCtr := s.recvCtr + 1 }.faultedBy 3 1 0x41) ∨
            (u = tag s.recvCtr c k.secret ∧
              ((∃ e, inflate c = .error e ∧ t = { s with recvCtr := s.recvCtr + 1 }.faultedBy 2 (decodeCode e) 0x41) ∨
              (∃ q, inflate c = .ok q ∧
                t = { s.answer 0 q with
                  srR := some (dec k.secret k.srR p).2
                  recvCtr := s.recvCtr + 1 })))))))) := by
  by_cases hg : gated i s
  · rw [exec_gated hg] at h
    exact .inl ⟨hg, by simpa using h.symm⟩
  by_cases hl : lengthAdmitted i
  case neg =>
    rw [exec_badLength hg hl] at h
    exact .inr (.inl ⟨hg, hl, by simpa using h.symm⟩)
  refine .inr (.inr ⟨hg, hl, ?_⟩)
  have hp : s.state ≠ .faulted ∨ runsInFaulted i = true := by
    rw [gated_iff] at hg
    rcases Decidable.not_and_iff_or_not.mp hg with h | h
    · exact .inl h
    · exact .inr (by simpa using h)
  have ha := (admitsLength_iff i).mpr hl
  have hnf : runsInFaulted i = false → s.state ≠ .faulted := by
    intro hf; rcases hp with h | h
    · exact h
    · simp [hf] at h
  cases i with
  | nop p =>
    rw [exec, execNop, commandCycle_perform hp ha, bumpResult_next, respond_ok_bumpSeq] at h
    simpa using h.symm
  | init p =>
    rw [exec, execInit, commandCycle_perform hp ha, bumpResult_next, respond_ok_bumpSeq] at h
    simpa using h.symm
  | dispose p =>
    rw [exec, execDispose, commandCycle_perform hp ha, bumpResult_next, respond_ok_bumpSeq] at h
    simpa using h.symm
  | csrr c p =>
    rw [exec, execCsrr, commandCycle_perform hp ha, bumpResult_next, respond_ok_bumpSeq] at h
    simpa using h.symm
  | csrw c p =>
    rw [exec, execCsrw, commandCycle_perform hp ha, performCsrw] at h
    split at h
    · rename_i hc
      rw [bumpResult_next, refuse_bumpSeq] at h
      exact .inl ⟨hc, (Host.Outcome.next.inj h).symm⟩
    rename_i hc
    have hc' : c = .compLevel := by simpa using hc
    split at h
    · rename_i hv
      rw [bumpResult_next, refuse_bumpSeq] at h
      exact .inr (.inl ⟨hc', hv, (Host.Outcome.next.inj h).symm⟩)
    · rename_i hv
      rw [bumpResult_next, respond_ok_bumpSeq] at h
      exact .inr (.inr ⟨hc', by omega, (Host.Outcome.next.inj h).symm⟩)
  | tag p =>
    rw [exec, execTag, commandCycle_perform hp ha, bumpResult_eq_next] at h
    obtain ⟨u, hu, ht⟩ := h
    rcases bump_requireContext_cases hu ht with h1 | h1 | ⟨h1, k, h2, h3, h4, h5⟩
    · exact .inl h1
    · exact .inr (.inl h1)
    · refine .inr (.inr ⟨h1.resolve_right (hnf rfl), k, State.context_eq_some.mpr ⟨h2, h3, h4⟩, ?_⟩)
      simp only [Host.Outcome.next.injEq] at h5
      rw [ht, ← h5, respond_ok_bumpSeq]
  | encrypt e p =>
    rw [exec, execEncrypt, commandCycle_perform hp ha, bumpResult_eq_next] at h
    obtain ⟨u, hu, ht⟩ := h
    rcases bump_requireContext_cases hu ht with h1 | h1 | ⟨h1, k, h2, h3, h4, h5⟩
    · exact .inl h1
    · exact .inr (.inl h1)
    · refine .inr (.inr ⟨h1.resolve_right (hnf rfl), k, State.context_eq_some.mpr ⟨h2, h3, h4⟩, ?_⟩)
      simp only [Host.Outcome.next.injEq] at h5
      rw [ht, ← h5, respond_ok_bumpSeq]
  | decrypt e p =>
    rw [exec, execDecrypt, commandCycle_perform hp ha, bumpResult_eq_next] at h
    obtain ⟨u, hu, ht⟩ := h
    rcases bump_requireContext_cases hu ht with h1 | h1 | ⟨h1, k, h2, h3, h4, h5⟩
    · exact .inl h1
    · exact .inr (.inl h1)
    · refine .inr (.inr ⟨h1.resolve_right (hnf rfl), k, State.context_eq_some.mpr ⟨h2, h3, h4⟩, ?_⟩)
      simp only [Host.Outcome.next.injEq] at h5
      rw [ht, ← h5, respond_ok_bumpSeq]
  | deflate p =>
    rw [exec, execDeflate, commandCycle_perform hp ha, bumpResult_next, respond_ok_bumpSeq] at h
    simpa using h.symm
  | inflate p =>
    rw [exec, execInflate, commandCycle_perform hp ha] at h
    cases hi : inflate p with
    | error e =>
      simp only [hi] at h
      rw [bumpResult_next, raise_bumpSeq] at h
      simp only [Host.Outcome.next.injEq] at h
      exact .inl ⟨e, hi, h.symm⟩
    | ok q =>
      simp only [hi] at h
      rw [bumpResult_next, respond_ok_bumpSeq] at h
      exact .inr ⟨q, hi, by simpa using h.symm⟩
  | encode p =>
    rw [exec, execEncode, commandCycle_perform hp ha, bumpResult_eq_next] at h
    obtain ⟨u, hu, ht⟩ := h
    rcases bump_requireContext_cases hu ht with h1 | h1 | ⟨h1, k, h2, h3, h4, h5⟩
    · exact .inl h1
    · exact .inr (.inl h1)
    · refine .inr (.inr ⟨h1.resolve_right (hnf rfl), k, State.context_eq_some.mpr ⟨h2, h3, h4⟩, ?_⟩)
      simp only [performEncode, Host.Outcome.next.injEq] at h5
      rw [ht, ← h5, respond_ok_bumpSeq]
      rfl
  | decode p =>
    rw [exec, execDecode, commandCycle_perform hp ha, bumpResult_eq_next] at h
    obtain ⟨u, hu, ht⟩ := h
    rcases bump_requireContext_cases hu ht with h1 | h1 | ⟨h1, k, h2, h3, h4, h5⟩
    · exact .inl h1
    · exact .inr (.inl h1)
    · refine .inr (.inr ⟨h1.resolve_right (hnf rfl), k, State.context_eq_some.mpr ⟨h2, h3, h4⟩, ?_⟩)
      simp only [performDecode, finishDecode, dec_length, Config.tagLen] at h5
      split at h5
      · rename_i h8
        simp only [Host.Outcome.next.injEq] at h5
        refine .inl ⟨h8, ?_⟩
        rw [ht, ← h5, raise_bumpSeq]
        rfl
      rename_i h8
      refine .inr ⟨by omega, _, _, ?_, (List.take_append_drop (p.length - 8) _).symm, ?_⟩
      · rw [List.length_drop, dec_length]; omega
      have h8' : ((dec k.secret k.srR p).1.drop (p.length - 8)).length = 8 := by
        rw [List.length_drop, dec_length]; omega
      split at h5
      · rename_i hm
        simp only [Host.Outcome.next.injEq] at h5
        rw [← Bool.not_eq_true, tagsMatch_iff_eq (tag_length _ _ _) h8'] at hm
        refine .inl ⟨fun he => hm he.symm, ?_⟩
        rw [ht, ← h5, raise_bumpSeq]
        rfl
      rename_i hm
      rw [Bool.not_eq_false, tagsMatch_iff_eq (tag_length _ _ _) h8'] at hm
      refine .inr ⟨hm.symm, ?_⟩
      split at h5
      · rename_i e he
        simp only [Host.Outcome.next.injEq] at h5
        refine .inl ⟨e, he, ?_⟩
        rw [ht, ← h5, raise_bumpSeq]
        rfl
      · rename_i q hq
        simp only [Host.Outcome.next.injEq] at h5
        refine .inr ⟨q, hq, ?_⟩
        rw [ht, ← h5, respond_ok_bumpSeq]
        rfl

/-! ## A command sees nothing of the channels -/

/-- The state with other channels, another depth and another level of `rst`. -/
abbrev State.withChannels (s : State) (c : Bytes) (rs : List Response) (d : Option Nat) (b : Bool) : State :=
  { s with cmdIn := c, rspOut := rs, rspDepth := d, rst := b }

/-- Where `f` answers a next state, it makes one response, and it does the same whatever stands in the channels, keeping
what stands there (20_memory.md R110, R119). -/
def IgnoresChannels (f : State → Result) : Prop :=
  ∀ s t : State, f s = .next t → ∃ r, t.rspOut = s.rspOut ++ [r] ∧
    ∀ c rs d b, f (s.withChannels c rs d b) = .next (t.withChannels c (rs ++ [r]) d b)

/-- What a step that ignores the channels leaves of them. -/
theorem IgnoresChannels.keeps {f : State → Result} (hf : IgnoresChannels f) {s t : State} (h : f s = .next t) :
    t.cmdIn = s.cmdIn ∧ t.rspDepth = s.rspDepth ∧ t.rst = s.rst := by
  obtain ⟨r, -, h2⟩ := hf s t h
  have h3 := h2 s.cmdIn s.rspOut s.rspDepth s.rst
  rw [show s.withChannels s.cmdIn s.rspOut s.rspDepth s.rst = s from rfl, h] at h3
  simp only [Host.Outcome.next.injEq] at h3
  rw [h3]
  exact ⟨rfl, rfl, rfl⟩

theorem commandCycle_ignoresChannels {i : Instr} {perform : State → Result} (hp : IgnoresChannels perform) :
    IgnoresChannels (commandCycle i perform) := by
  intro s t h
  rcases commandCycle_cases h with ⟨h1, h2, rfl⟩ | ⟨h1, h2, rfl⟩ | ⟨h1, h2, u, h3, rfl⟩
  · exact ⟨_, rfl, fun c rs d b => commandCycle_gated (s := s.withChannels c rs d b) h1 h2⟩
  · exact ⟨_, rfl, fun c rs d b => commandCycle_badLength (s := s.withChannels c rs d b) h1 h2⟩
  · obtain ⟨r, h4, h5⟩ := hp s u h3
    refine ⟨r, h4, fun c rs d b => ?_⟩
    rw [commandCycle_perform (s := s.withChannels c rs d b) h1 h2, h5]
    rfl

theorem requireContext_ignoresChannels {opc : Opcode} {perform : State → Context → Result}
    (hp : ∀ k, IgnoresChannels (perform · k)) : IgnoresChannels fun s => requireContext opc s (perform s) := by
  intro s t h
  rcases requireContext_cases h with ⟨h1, rfl⟩ | ⟨h1, rfl⟩ | ⟨h1, k, h2, h3, h4, h5⟩
  · exact ⟨_, rfl, fun c rs d b => requireContext_uninit (s := s.withChannels c rs d b) h1⟩
  · exact ⟨_, rfl, fun c rs d b => requireContext_disposed (s := s.withChannels c rs d b) h1⟩
  · obtain ⟨r, h6, h7⟩ := hp k s t h5
    refine ⟨r, h6, fun c rs d b => ?_⟩
    have hk : (s.withChannels c rs d b).context = some k := State.context_eq_some.mpr ⟨h2, h3, h4⟩
    rcases h1 with h1 | h1 <;> simp only [requireContext, h1, hk] <;> exact h7 c rs d b

/-- A Perform step whose next state is one response on a state that keeps the channels. -/
theorem respond_ignoresChannels {f : State → Result} (g : State → State) (st : Status) (cause : Byte) (out : State → Bytes)
    (hf : ∀ s, f s = .next ((g s).respond st cause (out s)))
    (hg : ∀ s c rs d b, g (s.withChannels c rs d b) = (g s).withChannels c rs d b)
    (ho : ∀ s c rs d b, out (s.withChannels c rs d b) = out s) : IgnoresChannels f := by
  intro s t h
  rw [hf, Host.Outcome.next.injEq] at h
  subst h
  have hr : (g s).rspOut = s.rspOut := by
    have := congrArg State.rspOut (hg s s.cmdIn s.rspOut s.rspDepth s.rst)
    exact this
  exact ⟨⟨statusWord st cause, if st = .ok then out s else []⟩, by simp [hr], fun c rs d b => by rw [hf, hg, ho]; rfl⟩

theorem performDecode_ignoresChannels (payload : Bytes) (k : Context) : IgnoresChannels (performDecode payload · k) := by
  intro s t h
  simp only [performDecode, finishDecode] at h ⊢
  split at h
  · rename_i h1
    cases h
    exact ⟨_, rfl, fun c rs d b => by rw [if_pos h1]; rfl⟩
  rename_i h1
  split at h
  · rename_i h2
    cases h
    exact ⟨_, rfl, fun c rs d b => by rw [if_neg h1, if_pos h2]; rfl⟩
  rename_i h2
  split at h
  all_goals
    cases h
    exact ⟨_, rfl, fun c rs d b => by rw [if_neg h1, if_neg h2]; rfl⟩

/-- Every command ignores the channels: it makes one response, and what it does does not depend on what waits in them. -/
theorem exec_ignoresChannels (i : Instr) : IgnoresChannels (exec i) := by
  cases i with
  | nop p =>
    exact commandCycle_ignoresChannels (respond_ignoresChannels id .ok 0 (fun _ => []) (fun _ => rfl)
      (fun _ _ _ _ _ => rfl) fun _ _ _ _ _ => rfl)
  | init p =>
    exact commandCycle_ignoresChannels (respond_ignoresChannels (·.loadContext (initSecret p) (initIvSend p) (initIvRecv p))
      .ok 0 (fun _ => []) (fun _ => rfl) (fun _ _ _ _ _ => rfl) fun _ _ _ _ _ => rfl)
  | dispose p =>
    exact commandCycle_ignoresChannels (respond_ignoresChannels State.disposeContext .ok 0 (fun _ => []) (fun _ => rfl)
      (fun _ _ _ _ _ => rfl) fun _ _ _ _ _ => rfl)
  | csrr c p =>
    exact commandCycle_ignoresChannels (respond_ignoresChannels id .ok 0 (fun s => le64 (csrRead c s)) (fun _ => rfl)
      (fun _ _ _ _ _ => rfl) fun _ _ _ _ _ => by cases c <;> rfl)
  | csrw c p =>
    refine commandCycle_ignoresChannels ?_
    unfold performCsrw
    by_cases hc : c ≠ .compLevel
    · exact respond_ignoresChannels id .illegalCommand _ (fun _ => []) (fun _ => if_pos hc) (fun _ _ _ _ _ => rfl)
        fun _ _ _ _ _ => rfl
    by_cases hv : 9 < (operandLE64 p).toNat
    · exact respond_ignoresChannels id .illegalCommand _ (fun _ => [])
        (fun _ => (if_neg hc).trans (if_pos hv)) (fun _ _ _ _ _ => rfl) fun _ _ _ _ _ => rfl
    · exact respond_ignoresChannels (fun s => { s with compLevel := (operandLE64 p).extractLsb' 0 4 }) .ok 0 (fun _ => [])
        (fun _ => (if_neg hc).trans (if_neg hv)) (fun _ _ _ _ _ => rfl) fun _ _ _ _ _ => rfl
  | tag p =>
    exact commandCycle_ignoresChannels (requireContext_ignoresChannels fun k => respond_ignoresChannels id .ok 0
      (fun _ => tag (operandLE64 p) (tagData p) k.secret) (fun _ => rfl) (fun _ _ _ _ _ => rfl) fun _ _ _ _ _ => rfl)
  | encrypt e p =>
    exact commandCycle_ignoresChannels (requireContext_ignoresChannels fun k => respond_ignoresChannels
      (·.setSr e (enc k.secret (k.sr e) p).2) .ok 0 (fun _ => (enc k.secret (k.sr e) p).1) (fun _ => rfl)
      (fun _ _ _ _ _ => by cases e <;> rfl) fun _ _ _ _ _ => rfl)
  | decrypt e p =>
    exact commandCycle_ignoresChannels (requireContext_ignoresChannels fun k => respond_ignoresChannels
      (·.setSr e (dec k.secret (k.sr e) p).2) .ok 0 (fun _ => (dec k.secret (k.sr e) p).1) (fun _ => rfl)
      (fun _ _ _ _ _ => by cases e <;> rfl) fun _ _ _ _ _ => rfl)
  | deflate p =>
    exact commandCycle_ignoresChannels (respond_ignoresChannels id .ok 0 (fun s => deflateLevel s.compLevel p)
      (fun _ => rfl) (fun _ _ _ _ _ => rfl) fun _ _ _ _ _ => rfl)
  | inflate p =>
    refine commandCycle_ignoresChannels ?_
    cases hi : inflate p with
    | error e =>
      intro s t h
      cases h
      exact ⟨_, rfl, fun _ _ _ _ => rfl⟩
    | ok q =>
      exact respond_ignoresChannels id .ok 0 (fun _ => q) (fun _ => rfl) (fun _ _ _ _ _ => rfl) fun _ _ _ _ _ => rfl
  | encode p =>
    exact commandCycle_ignoresChannels (requireContext_ignoresChannels fun k => respond_ignoresChannels
      (fun s =>
        { s with
          srS := some (enc k.secret k.srS (framedUnit s.compLevel s.sendCtr k.secret p)).2
          sendCtr := s.sendCtr + 1 })
      .ok 0 (fun s => (enc k.secret k.srS (framedUnit s.compLevel s.sendCtr k.secret p)).1) (fun _ => rfl)
      (fun _ _ _ _ _ => rfl) fun _ _ _ _ _ => rfl)
  | decode p =>
    exact commandCycle_ignoresChannels (requireContext_ignoresChannels (performDecode_ignoresChannels p))

end Sys2Proof.Machine
end

