-- ==== Sys2Proof/Laws/Inflater.lean ====
section
/-! SUPPORT. Everything each part of the inflater can do when it succeeds, and what the check of the compressor asks for. -/

namespace Sys2Proof.Machine

/-- What a read of one bit gives: a bit, one position further, within the input. -/
theorem readBit_ok {inp : Bytes} {pos b q : Nat} (h : readBit inp pos = .ok (b, q)) :
    q = pos + 1 ∧ pos < 8 * inp.length ∧ b < 2 ∧ ∃ x, inp[pos / 8]? = some x ∧ b = (x.getLsbD (pos % 8)).toNat := by
  unfold readBit at h
  split at h
  · simp at h
  · rename_i x hx
    simp only [Except.ok.injEq, Prod.mk.injEq] at h
    obtain ⟨rfl, rfl⟩ := h
    obtain ⟨hl, _⟩ := List.getElem?_eq_some_iff.mp hx
    exact ⟨rfl, by omega, by cases x.getLsbD (pos % 8) <;> simp, x, hx, rfl⟩

/-- A read past the end is TRUNCATED, and no other read fails. -/
theorem readBit_error {inp : Bytes} {pos : Nat} {e : DecodeCause} :
    readBit inp pos = .error e ↔ 8 * inp.length ≤ pos ∧ e = .truncated := by
  unfold readBit
  split
  · rename_i hx
    have := List.getElem?_eq_none_iff.mp hx
    simp only [Except.error.injEq]
    constructor
    · rintro rfl; exact ⟨by omega, rfl⟩
    · rintro ⟨_, rfl⟩; rfl
  · rename_i x hx
    obtain ⟨hl, _⟩ := List.getElem?_eq_some_iff.mp hx
    simp only [reduceCtorEq, false_iff]
    omega

/-- What a read of `n` bits gives: a value below 2^n, `n` positions further, within the input. -/
theorem readBits_ok {inp : Bytes} {n pos v q : Nat} (h : readBits inp n pos = .ok (v, q)) :
    q = pos + n ∧ v < 2 ^ n ∧ (0 < n → pos + n ≤ 8 * inp.length) := by
  induction n generalizing pos v q with
  | zero =>
    simp only [readBits, Except.ok.injEq, Prod.mk.injEq] at h
    obtain ⟨rfl, rfl⟩ := h
    simp
  | succ n ih =>
    unfold readBits at h
    split at h
    · simp at h
    · rename_i b p hb
      split at h
      · simp at h
      · rename_i w r hw
        simp only [Except.ok.injEq, Prod.mk.injEq] at h
        obtain ⟨rfl, rfl⟩ := h
        obtain ⟨rfl, h1, h2, -⟩ := readBit_ok hb
        obtain ⟨rfl, h3, h4⟩ := ih hw
        rw [Nat.pow_succ]
        refine ⟨by omega, by omega, fun _ => ?_⟩
        rcases Nat.eq_zero_or_pos n with rfl | hn
        · omega
        · have := h4 hn; omega

/-- The decoding of a symbol consumes at least one bit and at most one for each length, within the input. -/
theorem hdecodeFrom_ok {inp : Bytes} {symbols counts : List Nat} {code first index pos sym q : Nat}
    (h : hdecodeFrom inp symbols counts code first index pos = .ok (sym, q)) :
    pos < q ∧ q ≤ pos + counts.length ∧ q ≤ 8 * inp.length := by
  induction counts generalizing code first index pos with
  | nil => simp [hdecodeFrom] at h
  | cons cnt counts ih =>
    unfold hdecodeFrom at h
    split at h
    · simp at h
    · rename_i b p hb
      obtain ⟨rfl, h1, h2, -⟩ := readBit_ok hb
      simp only at h
      split at h
      · simp only [Except.ok.injEq, Prod.mk.injEq] at h
        obtain ⟨-, rfl⟩ := h
        simp only [List.length_cons]
        omega
      · have := ih h
        simp only [List.length_cons]
        omega

/-- A decoded symbol consumes between 1 and 15 bits, within the input. -/
theorem hdecode_ok {lens : List Nat} {inp : Bytes} {pos sym q : Nat} (h : hdecode (huffman lens) inp pos = .ok (sym, q)) :
    pos < q ∧ q ≤ pos + 15 ∧ q ≤ 8 * inp.length := by
  simpa [huffman] using hdecodeFrom_ok h

theorem hdecode_advances {c : Huffman} {inp : Bytes} {pos sym q : Nat} (h : hdecode c inp pos = .ok (sym, q)) :
    pos < q ∧ q ≤ 8 * inp.length := by
  have := hdecodeFrom_ok h
  exact ⟨this.1, this.2.2⟩

@[simp] theorem copyMatch_length (n d : Nat) (out : Bytes) : (copyMatch n d out).length = out.length + n := by
  induction n generalizing out with
  | zero => rfl
  | succ n ih => simp only [copyMatch, ih, List.length_append, List.length_cons, List.length_nil]; omega

/-- Copying only appends. -/
theorem copyMatch_prefix (n d : Nat) (out : Bytes) : out <+: copyMatch n d out := by
  induction n generalizing out with
  | zero => exact List.prefix_rfl
  | succ n ih => exact (List.prefix_append out _).trans (ih _)

/-- Everything a length and distance pair can do. -/
theorem matchData_ok {dist : Huffman} {inp : Bytes} {sym pos q : Nat} {out out' : Bytes}
    (h : matchData dist inp sym pos out = .ok (q, out')) :
    pos < q ∧ q ≤ 8 * inp.length ∧ out'.length ≤ Config.maxPlainLen ∧
      ∃ len d, d ≤ out.length ∧ out' = copyMatch len d out := by
  unfold matchData at h
  generalize lengthTable.getD (sym - 257) (0, 0) = le at h
  obtain ⟨lext, lbase⟩ := le
  simp only [bind, Except.bind] at h
  split at h
  · simp at h
  rename_i r1 h1
  obtain ⟨lbits, p1⟩ := r1
  simp only at h
  split at h
  · simp at h
  rename_i r2 h2
  obtain ⟨dsym, p2⟩ := r2
  simp only at h
  split at h
  · simp at h
  generalize distTable.getD dsym (0, 0) = de at h
  obtain ⟨dext, dbase⟩ := de
  simp only at h
  split at h
  · simp at h
  rename_i r3 h3
  obtain ⟨dbits, p3⟩ := r3
  simp only at h
  split at h
  · simp at h
  rename_i hd
  split at h
  · simp at h
  rename_i hf
  simp only [Except.ok.injEq, Prod.mk.injEq] at h
  obtain ⟨rfl, rfl⟩ := h
  obtain ⟨e1, -, -⟩ := readBits_ok h1
  obtain ⟨h21, h22⟩ := hdecode_advances h2
  obtain ⟨e3, -, h33⟩ := readBits_ok h3
  have hf' : out.length + (lbase + lbits) ≤ Config.maxPlainLen := (fitsPlain_iff _).mp (by simpa using hf)
  have hd' : dbase + dbits ≤ out.length := Nat.not_lt.mp hd
  refine ⟨by omega, ?_, ?_, lbase + lbits, dbase + dbits, hd', rfl⟩
  · rcases Nat.eq_zero_or_pos dext with h0 | h0
    · omega
    · have := h33 h0; omega
  · rw [copyMatch_length]; exact hf'

/-- Everything one turn of Huffman block data can do: at least one bit is consumed, the output grows at its end only, and
stays within MAX_PLAIN_LEN. -/
theorem blockSymbol_ok {lit dist : Huffman} {inp : Bytes} {pos q : Nat} {out out' : Bytes} {done : Bool}
    (h : blockSymbol lit dist inp pos out = .ok (done, q, out')) :
    pos < q ∧ q ≤ 8 * inp.length ∧ out <+: out' ∧
      (out.length ≤ Config.maxPlainLen → out'.length ≤ Config.maxPlainLen) := by
  unfold blockSymbol at h
  split at h
  · simp at h
  rename_i sym p hs
  obtain ⟨h1, h2⟩ := hdecode_advances hs
  split at h
  · split at h
    · simp at h
    · rename_i hf
      have hf' := (fitsPlain_iff _).mp (by simpa using hf)
      simp only [Except.ok.injEq, Prod.mk.injEq] at h
      obtain ⟨-, rfl, rfl⟩ := h
      exact ⟨h1, h2, List.prefix_append _ _, fun _ => by simpa using hf'⟩
  · split at h
    · simp only [Except.ok.injEq, Prod.mk.injEq] at h
      obtain ⟨-, rfl, rfl⟩ := h
      exact ⟨h1, h2, List.prefix_rfl, id⟩
    · split at h
      · simp at h
      · split at h
        · simp at h
        · rename_i p' out1 hm
          obtain ⟨h3, h4, h5, len, d, -, rfl⟩ := matchData_ok hm
          simp only [Except.ok.injEq, Prod.mk.injEq] at h
          obtain ⟨-, rfl, rfl⟩ := h
          exact ⟨by omega, h4, copyMatch_prefix _ _ _, fun _ => h5⟩

/-- Everything Huffman block data can do: as for one turn. -/
theorem blockData_ok {lit dist : Huffman} {inp : Bytes} {fuel pos q : Nat} {out out' : Bytes}
    (h : blockData lit dist inp fuel pos out = .ok (q, out')) :
    pos < q ∧ q ≤ 8 * inp.length ∧ out <+: out' ∧
      (out.length ≤ Config.maxPlainLen → out'.length ≤ Config.maxPlainLen) := by
  induction fuel generalizing pos out with
  | zero => simp [blockData] at h
  | succ fuel ih =>
    unfold blockData at h
    split at h
    · simp at h
    · rename_i hs
      simp only [Except.ok.injEq, Prod.mk.injEq] at h
      obtain ⟨rfl, rfl⟩ := h
      exact blockSymbol_ok hs
    · rename_i hs
      obtain ⟨h1, -, h3, h4⟩ := blockSymbol_ok hs
      obtain ⟨h5, h6, h7, h8⟩ := ih h
      exact ⟨by omega, h6, h3.trans h7, fun ho => h8 (h4 ho)⟩

/-- Everything a stored block can do after its header. -/
theorem storedBlock_ok {inp : Bytes} {pos len q : Nat} {out out' : Bytes}
    (h : storedBlock inp pos out = .ok (len, q, out')) :
    q = alignPos pos + 32 + 8 * len ∧ q ≤ 8 * inp.length ∧ out'.length = out.length + len ∧
      out'.length ≤ Config.maxPlainLen ∧ out' = out ++ (inp.drop ((alignPos pos + 32) / 8)).take len := by
  unfold storedBlock at h
  simp only at h
  split at h
  · simp at h
  split at h
  · simp at h
  split at h
  · simp at h
  rename_i h3
  split at h
  · simp at h
  rename_i hf
  simp only [Except.ok.injEq, Prod.mk.injEq] at h
  obtain ⟨rfl, rfl, rfl⟩ := h
  have hf' := (fitsPlain_iff _).mp (by simpa using hf)
  have ha : alignPos pos % 8 = 0 := by simp [alignPos]
  have hl : ((inp.drop ((alignPos pos + 32) / 8)).take (fromLE ((inp.drop (alignPos pos / 8)).take 2))).length =
      fromLE ((inp.drop (alignPos pos / 8)).take 2) := by
    rw [List.length_take, List.length_drop]; omega
  refine ⟨rfl, by omega, ?_, ?_, rfl⟩
  · rw [List.length_append, hl]
  · rw [List.length_append, hl]; exact hf'

/-- Everything the reading of 3-bit code lengths can do: one length for each three bits. -/
theorem readLens3_ok {inp : Bytes} {n pos q : Nat} {ls : List Nat} (h : readLens3 inp n pos = .ok (ls, q)) :
    q = pos + 3 * n ∧ ls.length = n := by
  induction n generalizing pos ls with
  | zero =>
    simp only [readLens3, Except.ok.injEq, Prod.mk.injEq] at h
    obtain ⟨rfl, rfl⟩ := h
    simp
  | succ n ih =>
    simp only [readLens3, bind, Except.bind] at h
    split at h
    · simp at h
    rename_i r1 h1
    obtain ⟨l, p⟩ := r1
    simp only at h
    split at h
    · simp at h
    rename_i r2 h2
    obtain ⟨ls', p'⟩ := r2
    simp only [Except.ok.injEq, Prod.mk.injEq] at h
    obtain ⟨rfl, rfl⟩ := h
    obtain ⟨rfl, -, -⟩ := readBits_ok h1
    obtain ⟨rfl, h3⟩ := ih h2
    exact ⟨by omega, by simp [h3]⟩

/-- Everything a repeat can do: it adds its length at least `base` times, and never passes `n` lengths. -/
theorem repeatLen_ok {inp : Bytes} {n len base extra pos q : Nat} {lens lens' : List Nat}
    (h : repeatLen inp n lens len base extra pos = .ok (lens', q)) :
    q = pos + extra ∧ lens'.length ≤ n ∧ ∃ k, base ≤ k ∧ lens' = lens ++ List.replicate k len := by
  simp only [repeatLen, bind, Except.bind] at h
  split at h
  · simp at h
  rename_i r1 h1
  obtain ⟨r, p⟩ := r1
  simp only at h
  split at h
  · simp at h
  rename_i hn
  simp only [Except.ok.injEq, Prod.mk.injEq] at h
  obtain ⟨rfl, rfl⟩ := h
  refine ⟨(readBits_ok h1).1, ?_, base + r, Nat.le_add_right _ _, rfl⟩
  rw [List.length_append, List.length_replicate]
  omega

/-- Everything one symbol of the code-length code can do: it consumes at least one bit and adds at least one length. -/
theorem readLenSymbol_ok {clc : Huffman} {inp : Bytes} {n pos q : Nat} {lens lens' : List Nat}
    (h : readLenSymbol clc inp n lens pos = .ok (lens', q)) :
    pos < q ∧ lens <+: lens' ∧ lens.length < lens'.length := by
  simp only [readLenSymbol, bind, Except.bind] at h
  split at h
  · simp at h
  rename_i r1 h1
  obtain ⟨sym, p⟩ := r1
  obtain ⟨h2, -⟩ := hdecode_advances h1
  have repeated {len base extra : Nat} (hb : 0 < base) (hr : repeatLen inp n lens len base extra p = .ok (lens', q)) :
      pos < q ∧ lens <+: lens' ∧ lens.length < lens'.length := by
    obtain ⟨rfl, -, k, hk, rfl⟩ := repeatLen_ok hr
    refine ⟨by omega, List.prefix_append _ _, ?_⟩
    rw [List.length_append, List.length_replicate]
    omega
  simp only at h
  split at h
  · simp only [Except.ok.injEq, Prod.mk.injEq] at h
    obtain ⟨rfl, rfl⟩ := h
    exact ⟨h2, List.prefix_append _ _, by simp⟩
  split at h
  · split at h
    · simp at h
    · exact repeated (by decide) h
  split at h
  · exact repeated (by decide) h
  · exact repeated (by decide) h

/-- Everything the loop over the code lengths can do: it moves forward and only adds lengths. -/
theorem readLens_ok {clc : Huffman} {inp : Bytes} {n fuel pos q : Nat} {lens lens' : List Nat}
    (h : readLens clc inp n fuel lens pos = .ok (lens', q)) : pos ≤ q ∧ lens <+: lens' := by
  induction fuel generalizing lens pos with
  | zero =>
    simp only [readLens, Except.ok.injEq, Prod.mk.injEq] at h
    obtain ⟨rfl, rfl⟩ := h
    exact ⟨Nat.le_refl _, List.prefix_rfl⟩
  | succ fuel ih =>
    unfold readLens at h
    split at h
    · simp only [Except.ok.injEq, Prod.mk.injEq] at h
      obtain ⟨rfl, rfl⟩ := h
      exact ⟨Nat.le_refl _, List.prefix_rfl⟩
    split at h
    · simp at h
    rename_i h1
    obtain ⟨h2, h3, -⟩ := readLenSymbol_ok h1
    obtain ⟨h4, h5⟩ := ih h
    exact ⟨by omega, h3.trans h5⟩

/-- Everything a dynamic header can do: it consumes at least its 14 bits of counts, and its two codes are usable. -/
theorem dynamicHeader_ok {inp : Bytes} {pos q : Nat} {lit dist : Huffman}
    (h : dynamicHeader inp pos = .ok (lit, dist, q)) :
    pos + 14 ≤ q ∧ ∃ litLens distLens, lit = huffman litLens ∧ dist = huffman distLens ∧ codeUsable litLens = true ∧
      codeUsable distLens = true ∧ litLens.getD 256 0 ≠ 0 := by
  unfold dynamicHeader at h
  simp only [bind, Except.bind] at h
  split at h
  · simp at h
  rename_i r1 h1
  split at h
  · simp at h
  rename_i r2 h2
  split at h
  · simp at h
  rename_i r3 h3
  split at h
  · simp at h
  split at h
  · simp at h
  rename_i r4 h4
  split at h
  · simp at h
  split at h
  · simp at h
  rename_i r5 h5
  split at h
  · simp at h
  rename_i h256
  split at h
  · simp at h
  rename_i hu1
  split at h
  · simp at h
  rename_i hu2
  simp only [Except.ok.injEq, Prod.mk.injEq] at h
  obtain ⟨rfl, rfl, rfl⟩ := h
  have e1 := (readBits_ok (v := r1.1) (q := r1.2) h1).1
  have e2 := (readBits_ok (v := r2.1) (q := r2.2) h2).1
  have e3 := (readBits_ok (v := r3.1) (q := r3.2) h3).1
  have e4 := (readLens3_ok (ls := r4.1) (q := r4.2) h4).1
  have e5 := (readLens_ok (lens' := r5.1) (q := r5.2) h5).1
  exact ⟨by omega, _, _, rfl, rfl, by simpa using hu1, by simpa using hu2, h256⟩

/-- Everything a block's body can do to the position and the output. -/
theorem blockBody_ok {inp : Bytes} {btype pos q : Nat} {out out' : Bytes} {kind : BlockKind}
    (h : blockBody inp btype pos out = .ok (kind, q, out')) :
    pos ≤ q ∧ q ≤ 8 * inp.length ∧ out <+: out' ∧
      (out.length ≤ Config.maxPlainLen → out'.length ≤ Config.maxPlainLen) := by
  unfold blockBody at h
  simp only [bind, Except.bind] at h
  split at h
  · split at h
    · simp at h
    rename_i r hr
    obtain ⟨len, p, o⟩ := r
    simp only [Except.ok.injEq, Prod.mk.injEq] at h
    obtain ⟨-, rfl, rfl⟩ := h
    obtain ⟨h0, h1, -, h2, h3⟩ := storedBlock_ok hr
    have ha : pos ≤ alignPos pos := by unfold alignPos; omega
    exact ⟨by omega, h1, h3 ▸ List.prefix_append _ _, fun _ => h2⟩
  · split at h
    · split at h
      · simp at h
      rename_i r hr
      obtain ⟨p, o⟩ := r
      simp only [Except.ok.injEq, Prod.mk.injEq] at h
      obtain ⟨-, rfl, rfl⟩ := h
      obtain ⟨h1, h2⟩ := blockData_ok hr
      exact ⟨by omega, h2⟩
    · split at h
      · split at h
        · simp at h
        rename_i r1 hh
        obtain ⟨lit, dist, p1⟩ := r1
        simp only at h
        split at h
        · simp at h
        rename_i r hr
        obtain ⟨p, o⟩ := r
        simp only [Except.ok.injEq, Prod.mk.injEq] at h
        obtain ⟨-, rfl, rfl⟩ := h
        obtain ⟨h0, -⟩ := dynamicHeader_ok hh
        obtain ⟨h1, h2⟩ := blockData_ok hr
        exact ⟨by omega, h2⟩
      · simp at h

/-- The blocks' loop keeps the output within MAX_PLAIN_LEN. -/
theorem inflateFrom_ok {inp : Bytes} {fuel pos : Nat} {blocks blocks' : List BlockInfo} {out out' : Bytes}
    (h : inflateFrom inp fuel pos blocks out = .ok (blocks', out')) :
    blocks <+: blocks' ∧ out <+: out' ∧
      (out.length ≤ Config.maxPlainLen → out'.length ≤ Config.maxPlainLen) := by
  induction fuel generalizing pos blocks out with
  | zero => simp [inflateFrom] at h
  | succ fuel ih =>
    unfold inflateFrom at h
    split at h
    · simp at h
    split at h
    · simp at h
    split at h
    · simp at h
    rename_i kind p out1 hb
    obtain ⟨-, -, h2, h3⟩ := blockBody_ok hb
    simp only at h
    split at h
    · split at h
      · simp at h
      · simp only [Except.ok.injEq, Prod.mk.injEq] at h
        obtain ⟨rfl, rfl⟩ := h
        exact ⟨List.prefix_append _ _, h2, h3⟩
    · split at h
      · simp only [Except.ok.injEq, Prod.mk.injEq] at h
        obtain ⟨rfl, rfl⟩ := h
        exact ⟨List.prefix_append _ _, h2, h3⟩
      · obtain ⟨h4, h5, h6⟩ := ih h
        exact ⟨(List.prefix_append _ _).trans h4, h2.trans h5, fun ho => h6 (h3 ho)⟩

/-! ## The check of the compressor -/

/-- The marker of a synchronous flush: a non-final stored block of no bytes, and SYNC_MARKER itself, at the end of C, where it
starts on a byte boundary. -/
theorem isSyncBlock_iff {c : Bytes} {b : BlockInfo} :
    isSyncBlock c b = true ↔ b.final = false ∧ b.kind = .stored 0 ∧
      (b.start % 8 = 0 → ∃ d, c = d ++ Config.syncMarker ∧ 8 * d.length = b.start) := by
  simp only [isSyncBlock, Bool.and_eq_true, Bool.not_eq_true', beq_iff_eq, Bool.or_eq_true, bne_iff_ne, ne_eq, and_assoc]
  refine and_congr_right fun _ => and_congr_right fun _ => ?_
  constructor
  · rintro h h0
    rcases h with h | h
    · exact absurd h0 h
    · have hl := congrArg List.length h
      rw [List.length_drop, show Config.syncMarker.length = 5 from rfl] at hl
      refine ⟨c.take (b.start / 8), by rw [← h, List.take_append_drop], ?_⟩
      rw [List.length_take]
      omega
  · intro h
    by_cases h0 : b.start % 8 = 0
    · obtain ⟨d, rfl, hd⟩ := h h0
      right
      rw [← hd, Nat.mul_div_cancel_left _ (by decide), List.drop_left]
    · exact .inl h0

/-- What the check of the compressor's output asks for, in full. -/
theorem admissible_iff {p c : Bytes} :
    admissible p c = true ↔ ∃ blocks, inflateBlocks c = .ok (blocks, p) ∧ (∀ b ∈ blocks, b.final = false) ∧
      (∃ b, blocks.getLast? = some b ∧ isSyncBlock c b = true) ∧ c.length ≤ storedBound p.length := by
  unfold admissible
  cases h : inflateBlocks c with
  | error e => simp
  | ok r =>
    obtain ⟨blocks, out⟩ := r
    simp only [Bool.and_eq_true, beq_iff_eq, List.all_eq_true, Bool.not_eq_true', decide_eq_true_eq, Except.ok.injEq,
      Prod.mk.injEq, Option.any_eq_true]
    constructor
    · rintro ⟨⟨⟨rfl, h1⟩, h2⟩, h3⟩
      exact ⟨blocks, ⟨rfl, rfl⟩, h1, h2, h3⟩
    · rintro ⟨_, ⟨rfl, rfl⟩, h1, h2, h3⟩
      exact ⟨⟨⟨rfl, h1⟩, h2⟩, h3⟩

/-- What a level of 1 to 9 outputs: the implementation's own form where it passes the check, else Deflate0. -/
theorem deflateOpen_cases (l : BitVec 4) (p : Bytes) :
    (admissible p (Config.compressor l p) = true ∧ deflateOpen l p = Config.compressor l p) ∨
      deflateOpen l p = deflate0 p := by
  unfold deflateOpen
  split
  · exact .inl ⟨‹_›, rfl⟩
  · exact .inr rfl

end Sys2Proof.Machine
end

