-- ==== Sys2Proof/Laws/PerInstr.lean ====
section
/-! SUPPORT. Laws stated for every command, one lemma per constructor. -/

namespace Sys2Proof.Laws

/-- The mask and the match of each row of spec/opcode_table.json (30_encoding.md R157). -/
def tableRow : Instr → Word32 × Word32
  | .nop _ => (0xFFFFFFFF, 0x00000000)
  | .init _ => (0xFFFFFFFF, 0x00000001)
  | .dispose _ => (0xFFFFFFFF, 0x00000002)
  | .csrr _ _ => (0x000FFFFF, 0x00000008)
  | .csrw _ _ => (0x000FFFFF, 0x00000009)
  | .tag _ => (0xFFFFFFFF, 0x00000010)
  | .encrypt _ _ => (0xFFFFF0FF, 0x00000020)
  | .decrypt _ _ => (0xFFFFF0FF, 0x00000021)
  | .deflate _ => (0xFFFFFFFF, 0x00000030)
  | .inflate _ => (0xFFFFFFFF, 0x00000031)
  | .encode _ => (0xFFFFFFFF, 0x00000040)
  | .decode _ => (0xFFFFFFFF, 0x00000041)

/-- The word of a command matches its row of the opcode table, whatever the payload, and the command takes 8 bytes and its
payload on the channel (30_encoding.md R152). -/
def OpcodeTable.Statement (i : Instr) : Prop :=
  encodeWord i &&& (tableRow i).1 = (tableRow i).2 ∧ (encode i).length = 8 + i.payload.length

theorem OpcodeTable.nop (payload : Bytes) : OpcodeTable.Statement (.nop payload) :=
  ⟨by simp only [encodeWord, instrCsr, instrSel, instrOpcode, tableRow]; decide, encode_length _⟩

theorem OpcodeTable.init (payload : Bytes) : OpcodeTable.Statement (.init payload) :=
  ⟨by simp only [encodeWord, instrCsr, instrSel, instrOpcode, tableRow]; decide, encode_length _⟩

theorem OpcodeTable.dispose (payload : Bytes) : OpcodeTable.Statement (.dispose payload) :=
  ⟨by simp only [encodeWord, instrCsr, instrSel, instrOpcode, tableRow]; decide, encode_length _⟩

theorem OpcodeTable.csrr (csr : Csr) (payload : Bytes) : OpcodeTable.Statement (.csrr csr payload) :=
  ⟨by cases csr <;> simp only [encodeWord, instrCsr, instrSel, instrOpcode, tableRow] <;> decide,
    encode_length _⟩

theorem OpcodeTable.csrw (csr : Csr) (payload : Bytes) : OpcodeTable.Statement (.csrw csr payload) :=
  ⟨by cases csr <;> simp only [encodeWord, instrCsr, instrSel, instrOpcode, tableRow] <;> decide,
    encode_length _⟩

theorem OpcodeTable.tag (payload : Bytes) : OpcodeTable.Statement (.tag payload) :=
  ⟨by simp only [encodeWord, instrCsr, instrSel, instrOpcode, tableRow]; decide, encode_length _⟩

theorem OpcodeTable.encrypt (sel : Engine) (payload : Bytes) : OpcodeTable.Statement (.encrypt sel payload) :=
  ⟨by cases sel <;> simp only [encodeWord, instrCsr, instrSel, instrOpcode, tableRow] <;> decide,
    encode_length _⟩

theorem OpcodeTable.decrypt (sel : Engine) (payload : Bytes) : OpcodeTable.Statement (.decrypt sel payload) :=
  ⟨by cases sel <;> simp only [encodeWord, instrCsr, instrSel, instrOpcode, tableRow] <;> decide,
    encode_length _⟩

theorem OpcodeTable.deflate (payload : Bytes) : OpcodeTable.Statement (.deflate payload) :=
  ⟨by simp only [encodeWord, instrCsr, instrSel, instrOpcode, tableRow]; decide, encode_length _⟩

theorem OpcodeTable.inflate (payload : Bytes) : OpcodeTable.Statement (.inflate payload) :=
  ⟨by simp only [encodeWord, instrCsr, instrSel, instrOpcode, tableRow]; decide, encode_length _⟩

theorem OpcodeTable.encode (payload : Bytes) : OpcodeTable.Statement (.encode payload) :=
  ⟨by simp only [encodeWord, instrCsr, instrSel, instrOpcode, tableRow]; decide, encode_length _⟩

theorem OpcodeTable.decode (payload : Bytes) : OpcodeTable.Statement (.decode payload) :=
  ⟨by simp only [encodeWord, instrCsr, instrSel, instrOpcode, tableRow]; decide, encode_length _⟩

end Sys2Proof.Laws
end

