-- ==== Sys2Proof/Tests/Slice0.lean ====
section
/-! SUPPORT. Tests. The words are written out from 30_encoding.md R157 and the known answers are those of
95_test_vectors.md; each `meets_` theorem shows an input that meets the hypotheses of the obligation it names. -/

namespace Sys2Proof.Tests

open Sys2Proof Sys2Proof.Machine

-- One theorem after another: the two long kernel evaluations below would else hold a thread for every later theorem.
set_option Elab.async false

/-! ## States and helpers -/

/-- The secret 00 01 … 1F of the vectors' K0. -/
def secret0 : Secret := Vector.ofFn fun i => BitVec.ofNat 8 i.val

/-- The IV A0 A1 … AF of the vectors' K0. -/
def iv0 : Block := Vector.ofFn fun i => BitVec.ofNat 8 (0xA0 + i.val)

def ctx0 : Context := ⟨secret0, iv0, iv0⟩

/-- After `INIT.SAME K0` and `SETLEVEL 0`. -/
def ready : State :=
  { State.reset with state := .ready, secret := some secret0, srS := some iv0, srR := some iv0, compLevel := 0 }

/-- After V-CF5: an INFLATE that ended with DecodeFault BAD_BLOCK_TYPE. -/
def faulted : State :=
  { State.reset with state := .faulted, faultKind := 2, faultCause := 2, faultOpc := 0x31, compLevel := 0 }

def disposed : State := { State.reset with state := .disposed, compLevel := 0 }

/-- The word and the payload of the newest response of a next state. -/
def answerOf : Host.Outcome State Fault Refusal → Option (Word32 × Bytes)
  | .next s => s.rspOut.getLast?.map fun r => (r.word, r.out)
  | .fault _ => none
  | .refused _ => none

/-- One step on the front command of the channel bytes `bs`. -/
def stepOn (s : State) (w : Word32) (p : Bytes) : Option (Word32 × Bytes) := answerOf (step (s.submitCommand w p))

/-! ## Well-formedness and decoding -/

/-- A length of 2^32 does not fit L: the one ill-formed command (30_encoding.md R150). -/
theorem test_wf_refuses_long : (Instr.encode (List.replicate (2 ^ 32) 0)).wf = false := by
  simp only [Instr.wf, Instr.payload, List.length_replicate, Nat.lt_irrefl, decide_false]

theorem test_wf_accepts_longest : (Instr.encode (List.replicate (2 ^ 32 - 1) 0)).wf = true := by
  simp only [Instr.wf, Instr.payload, List.length_replicate, decide_eq_true_eq]
  omega

theorem test_decode_nop : decodeWord 0b00000000000000000000000000000000#32 [] = .ok (.nop []) := by decide +kernel
theorem test_decode_init : decodeWord 0b00000000000000000000000000000001#32 [9] = .ok (.init [9]) := by decide +kernel
theorem test_decode_dispose : decodeWord 0b00000000000000000000000000000010#32 [] = .ok (.dispose []) := by
  decide +kernel
theorem test_decode_csrr : decodeWord 0b00000001000100000000000000001000#32 [] = .ok (.csrr .recvCtr []) := by
  decide +kernel
theorem test_decode_csrw : decodeWord 0b00000010000000000000000000001001#32 [1] = .ok (.csrw .compLevel [1]) := by
  decide +kernel
theorem test_decode_tag : decodeWord 0b00000000000000000000000000010000#32 [] = .ok (.tag []) := by decide +kernel
theorem test_decode_encrypt_send : decodeWord 0b00000000000000000000000000100000#32 [] = .ok (.encrypt .send []) := by
  decide +kernel
theorem test_decode_encrypt_recv : decodeWord 0b00000000000000000000000100100000#32 [] = .ok (.encrypt .recv []) := by
  decide +kernel
theorem test_decode_decrypt_send : decodeWord 0b00000000000000000000000000100001#32 [] = .ok (.decrypt .send []) := by
  decide +kernel
theorem test_decode_decrypt_recv : decodeWord 0b00000000000000000000000100100001#32 [] = .ok (.decrypt .recv []) := by
  decide +kernel
theorem test_decode_deflate : decodeWord 0b00000000000000000000000000110000#32 [] = .ok (.deflate []) := by
  decide +kernel
theorem test_decode_inflate : decodeWord 0b00000000000000000000000000110001#32 [] = .ok (.inflate []) := by
  decide +kernel
theorem test_decode_encode : decodeWord 0b00000000000000000000000001000000#32 [] = .ok (.encode []) := by decide +kernel
theorem test_decode_decode : decodeWord 0b00000000000000000000000001000001#32 [] = .ok (.decode []) := by decide +kernel

/-- The CSR numbers of 10_state.md R61, in W[31:20]. -/
theorem test_decode_csr_numbers :
    ([0x000, 0x001, 0x002, 0x003, 0x004, 0x010, 0x011, 0x020, 0x030, 0x031].map fun n =>
      decodeWord (BitVec.ofNat 32 (n * 2 ^ 20 + 8)) []) = csrs.map fun c => .ok (.csrr c []) := by decide +kernel

/-- V-EN1 to V-EN8: each word is refused with the cause of the first check that fails. -/
theorem test_decode_refusals :
    ([0x000000FF, 0x00101003, 0x00001000, 0x00000100, 0x00000220, 0x00100220, 0x00100000, 0x00500008].map fun w =>
      decodeWord (BitVec.ofNat 32 w) []) =
    [.error .opcode, .error .opcode, .error .reserved, .error .sel, .error .sel, .error .sel, .error .reserved,
      .error .csr] := by decide +kernel

/-- The channel's bytes, little-endian: ENCRYPT.R of one byte, and the first byte of what follows. -/
theorem test_decode_channel :
    decode [0x20, 0x01, 0x00, 0x00, 0x01, 0x00, 0x00, 0x00, 0x07, 0xEE] = .command (.encrypt .recv [7]) [0xEE] := by
  decide +kernel

theorem test_encode_channel :
    encode (.encrypt .recv [7]) = [0x20, 0x01, 0x00, 0x00, 0x01, 0x00, 0x00, 0x00, 0x07] := by decide +kernel

theorem test_table_word : decodeTableWord 32 0x41 = some (.decode []) := by decide +kernel

theorem test_fetch_word : step (State.reset.withFetchWord 32 0) = exec (.nop []) State.reset := by rfl

/-- R700 and R701: a NOP submitted under reset is dropped with the channel, so the release leaves nothing to run; one submitted
after the release runs as the first command. -/
theorem test_reset_drops_submitted :
    ((faulted.driveReset true).submitCommand 0 []).driveReset false = { State.reset with rspDepth := faulted.rspDepth } ∧
    step (((faulted.driveReset true).submitCommand 0 []).driveReset false) = .next State.reset ∧
    stepOn (((faulted.driveReset true).submitCommand 0 []).driveReset false) 0 [] = some (0, []) := by
  refine ⟨?_, ?_, ?_⟩ <;> rfl

/-! ## Known answers -/

/-- The first known answer of 41_checksum.md: "abc". -/
theorem test_sha256_abc :
    (sha256 [0x61, 0x62, 0x63]).take 8 = [0xBA, 0x78, 0x16, 0xBF, 0x8F, 0x01, 0xCF, 0xEA] := by decide +kernel

/-- V-TG5: the tag of Deflate0("hello") at counter 0. -/
theorem test_tag :
    tag 0 [0x00, 0x05, 0x00, 0xFA, 0xFF, 0x68, 0x65, 0x6C, 0x6C, 0x6F, 0x00, 0x00, 0x00, 0xFF, 0xFF] secret0 =
      [0x63, 0x0B, 0x57, 0x46, 0x59, 0xF5, 0xB8, 0xF1] := by decide +kernel

/-- V-CI2: `ENCRYPT.S "A"` after `INIT.SAME K0`. -/
theorem test_encrypt : stepOn ready 0x20 [0x41] = some (0, [0x9D]) := by decide +kernel

/-- V-CI2: the byte deciphers back. -/
theorem test_decrypt : stepOn ready 0x121 [0x9D] = some (0, [0x41]) := by decide +kernel

/-- V-EN9. -/
theorem test_nop_length : stepOn State.reset 0x00 [0x00] = some (0x11, []) := by decide +kernel

/-- V-CX2: the context that INIT loads. -/
theorem test_init :
    (match exec (.init (secret0.toList ++ iv0.toList ++ iv0.toList)) faulted with
      | .next t => (t.state, t.secret, t.srS, t.srR, t.faultKind, t.rspOut)
      | .fault _ => (.uninit, none, none, none, 9, [])
      | .refused _ => (.uninit, none, none, none, 9, [])) =
    (.ready, some secret0, some iv0, some iv0, 0, [⟨0, []⟩]) := by decide +kernel

/-- V-CX4. -/
theorem test_dispose :
    (match exec (.dispose []) ready with
      | .next t => (t.state, t.secret, t.srS, t.srR)
      | .fault _ => (.uninit, none, none, none)
      | .refused _ => (.uninit, none, none, none)) = (.disposed, none, none, none) := by decide +kernel

/-- V-CSR1 and, of the state after V-CF5, the FAULT record as CSRR reads it. -/
theorem test_csrr_id : stepOn State.reset 0x08 [] = some (0, [0x01, 0x00, 0x07, 0x00, 0x00, 0x00, 0x00, 0x00]) := by
  decide +kernel
theorem test_csrr_fault : stepOn faulted 0x00200008 [] = some (0, [0x02, 0x02, 0x31, 0x00, 0x00, 0x00, 0x00, 0x00]) := by
  decide +kernel

/-- V-EN12 to V-EN14, and the two values where the clauses of CSRW meet: 9 is written, 10 is refused. -/
theorem test_csrw :
    stepOn ready 0x02000009 [9, 0, 0, 0, 0, 0, 0, 0] = some (0, []) ∧
    stepOn ready 0x02000009 [10, 0, 0, 0, 0, 0, 0, 0] = some (0x610, []) ∧
    stepOn ready 0x02000009 [0, 0, 0, 0, 0, 0, 0, 0x80] = some (0x610, []) ∧
    stepOn ready 0x00100009 [10, 0, 0, 0, 0, 0, 0, 0] = some (0x510, []) := by decide +kernel

/-- V-CX6 and V-CX7: `TAG 0` in DISPOSED faults, and CSRW in FAULTED is rejected with FAULT_KIND. -/
theorem test_engine_fault : stepOn disposed 0x10 [0, 0, 0, 0, 0, 0, 0, 0] = some (0x201, []) := by decide +kernel
theorem test_rejected : stepOn faulted 0x02000009 [3, 0, 0, 0, 0, 0, 0, 0] = some (0x212, []) := by decide +kernel

/-- V-CO3. -/
theorem test_deflate :
    stepOn ready 0x30 [0x68, 0x69] =
      some (0, [0x00, 0x02, 0x00, 0xFD, 0xFF, 0x68, 0x69, 0x00, 0x00, 0x00, 0xFF, 0xFF]) := by decide +kernel

/-- R370: from a byte boundary the marker is SYNC_MARKER and nothing else, at the start of a stream and after a stored block;
after the fixed block of "a" it starts at bit 18, and its three padding bits are free. -/
theorem test_sync_marker_padding :
    ([([], [0x00, 0x00, 0x00, 0xFF, 0xFF]), ([], [0xF8, 0x00, 0x00, 0xFF, 0xFF]),
      ([7], [0x08, 0x01, 0x00, 0xFE, 0xFF, 0x07, 0x00, 0x00, 0x00, 0xFF, 0xFF]),
      ([7], [0x00, 0x01, 0x00, 0xFE, 0xFF, 0x07, 0x08, 0x00, 0x00, 0xFF, 0xFF]),
      ([0x61], [0x4A, 0x04, 0x00, 0x00, 0x00, 0xFF, 0xFF]), ([0x61], [0x4A, 0x04, 0xE0, 0x00, 0x00, 0xFF, 0xFF])] :
      List (Bytes × Bytes)).map (fun x => admissible x.1 x.2) = [true, false, true, false, true, true] := by
  decide +kernel

/-- V-CO16: a back-reference. -/
theorem test_inflate :
    stepOn State.reset 0x31 [0xCA, 0x48, 0xCD, 0xC9, 0xC9, 0xCF, 0x00, 0x11, 0x00, 0x00, 0x00, 0x00, 0xFF, 0xFF] =
      some (0, [0x68, 0x65, 0x6C, 0x6C, 0x6F, 0x68, 0x65, 0x6C, 0x6C, 0x6F]) := by decide +kernel

/-- V-CF1, V-CF5, V-CF7, V-CF8, V-CF9, V-CF10, V-CF11, V-CF12: one stream for each cause but OUTPUT_LIMIT. -/
theorem test_inflate_faults :
    ([[], [0x07], [0x00, 0x05, 0x00, 0x00, 0x00], [0xF5, 0x00, 0x00], [0x05, 0x00, 0x92, 0x04], [0x1B, 0x03],
      [0x03, 0x02], [0x03, 0x00, 0x00]] : List Bytes).map inflate =
    [.error .truncated, .error .badBlockType, .error .badStoredLen, .error .badCounts, .error .badCode,
      .error .badSymbol, .error .badDistance, .error .trailingData] := by decide +kernel

/-- V-PK7 and its unit: the 8 bytes decipher to the tag of an empty payload at counter 0. -/
theorem test_decipher_unit :
    (dec secret0 iv0 [0x28, 0xBF, 0x79, 0x25, 0x75, 0xD9, 0x6A, 0x4C]).1 =
      [] ++ (sha256 (leBytes 8 ready.recvCtr.toNat ++ [] ++ secret0.toList)).take 8 := by decide +kernel

/-- The unit of the stream 03 00 of V-CO14, an empty plaintext, at counter 0. -/
theorem test_decipher_empty :
    (dec secret0 iv0 [0xDF, 0x2D, 0x36, 0x71, 0x6F, 0xC4, 0xEB, 0xD1, 0xAC, 0x04]).1 =
      [0x03, 0x00] ++ (sha256 (leBytes 8 ready.recvCtr.toNat ++ [0x03, 0x00] ++ secret0.toList)).take 8 := by
  decide +kernel

/-- V-PK5 at n = 0, and V-PK10. -/
theorem test_decode_short : stepOn ready 0x41 [] = some (0x203, []) := by decide +kernel
theorem test_encode_no_context : stepOn State.reset 0x40 [0x68, 0x69] = some (0x101, []) := by decide +kernel

/-! ## Inputs that meet the hypotheses of the obligations -/

/-- The command runs, responds, and the response has this status. -/
def Answers (i : Instr) (s : State) (status : Byte) : Prop :=
  ∃ (t : State) (r : Response), exec i s = .next t ∧ t.rspOut = s.rspOut ++ [r] ∧ r.status = status

theorem ready_hasContext : ready.hasContext ctx0 := ⟨rfl, rfl, rfl, rfl⟩

theorem two_pow_le_maxPlainLen : 2 ^ 22 ≤ Config.maxPlainLen := Nat.le_add_right _ _

theorem answers_nop : Answers (.nop []) ready 0x00 := ⟨_, _, rfl, rfl, by decide⟩
theorem answers_init : Answers (.init (secret0.toList ++ iv0.toList ++ iv0.toList)) faulted 0x00 :=
  ⟨_, _, rfl, rfl, by decide⟩
theorem answers_dispose : Answers (.dispose []) faulted 0x00 := ⟨_, _, rfl, rfl, by decide⟩
theorem answers_csrr : Answers (.csrr .fault []) faulted 0x00 := ⟨_, _, rfl, rfl, by decide⟩
theorem answers_csrw : Answers (.csrw .compLevel [9, 0, 0, 0, 0, 0, 0, 0]) ready 0x00 := ⟨_, _, rfl, rfl, by decide⟩
theorem answers_csrw_value : Answers (.csrw .compLevel [10, 0, 0, 0, 0, 0, 0, 0]) ready 0x10 :=
  ⟨_, _, rfl, rfl, by decide⟩
theorem answers_tag_uninit : Answers (.tag [0, 0, 0, 0, 0, 0, 0, 0]) State.reset 0x01 := ⟨_, _, rfl, rfl, by decide⟩
theorem answers_encrypt : Answers (.encrypt .send []) ready 0x00 := ⟨_, _, rfl, rfl, by decide⟩
theorem answers_decrypt : Answers (.decrypt .recv []) ready 0x00 := ⟨_, _, rfl, rfl, by decide⟩
theorem answers_encrypt_recv : Answers (.encrypt .recv []) ready 0x00 := ⟨_, _, rfl, rfl, by decide⟩
theorem answers_decrypt_send : Answers (.decrypt .send []) ready 0x00 := ⟨_, _, rfl, rfl, by decide⟩
theorem answers_inflate_fault : Answers (.inflate [0x07]) ready 0x02 := ⟨_, _, rfl, rfl, by decide⟩
theorem answers_decode_short : Answers (.decode []) ready 0x03 := ⟨_, _, rfl, rfl, by decide⟩
theorem answers_nop_length : Answers (.nop [0]) faulted 0x11 := ⟨_, _, rfl, rfl, by decide⟩
theorem answers_rejected : Answers (.encode []) faulted 0x12 := ⟨_, _, rfl, rfl, by decide⟩

theorem answers_encode : Answers (.encode []) ready 0x00 := by
  refine ⟨?t, ⟨0, ?o⟩, ?run, ?out, ?st⟩
  case run =>
    rw [exec, execEncode, commandCycle_perform (.inl (by decide)) rfl, requireContext_ready ready_hasContext, performEncode,
      bumpResult_next, respond_ok_bumpSeq]
  case out => rfl
  case st => rfl

theorem answers_decode : Answers (.decode [0xDF, 0x2D, 0x36, 0x71, 0x6F, 0xC4, 0xEB, 0xD1, 0xAC, 0x04]) ready 0x00 := by
  refine ⟨?t, ⟨0, ?o⟩, ?run, ?out, ?st⟩
  case run =>
    rw [exec, execDecode, commandCycle_perform (.inl (by decide)) rfl, requireContext_ready ready_hasContext,
      performDecode_eq test_decipher_empty rfl]
    rw [if_neg (by rw [Bool.not_eq_false]; exact (tagsMatch_iff_eq (tag_length _ _ _) (tag_length _ _ _)).mpr rfl)]
    rw [show inflate [0x03, 0x00] = .ok [] by decide +kernel]
    rw [bumpResult_next, respond_ok_bumpSeq]
  case out => rfl
  case st => rfl

/-- A computed check of `codeAt`. -/
theorem codeAt_of_all {inp : Bytes} {pos len code : Nat}
    (h : ((List.range len).all fun j =>
      (inp[(pos + j) / 8]?.map fun b => b.getLsbD ((pos + j) % 8) == code.testBit (len - 1 - j)) == some true) = true) :
    codeAt inp pos len code := by
  intro j hj
  have hj' := List.all_eq_true.mp h j (List.mem_range.mpr hj)
  generalize inp[(pos + j) / 8]? = o at hj'
  cases o with
  | none => simp at hj'
  | some b => exact ⟨b, rfl, by simpa using hj'⟩

theorem meets_DecodeOfEncode : (Instr.encrypt .recv [7]).wf = true := by decide

theorem meets_EncodeOfDecode :
    decode [0x20, 0x01, 0x00, 0x00, 0x01, 0x00, 0x00, 0x00, 0x07, 0xEE] = .command (.encrypt .recv [7]) [0xEE] :=
  test_decode_channel

/-- A word for each clause: OPCODE, RESERVED (rsvd), SEL on each side, CSR, RESERVED (csr), and a command. -/
theorem meets_DecodeCheckOrder :
    ([0x000000FF, 0x00001000, 0x00000220, 0x00000100, 0x03200008, 0x00100000, 0x03100008].map fun w =>
      decodeWord (BitVec.ofNat 32 w) []) =
    [.error .opcode, .error .reserved, .error .sel, .error .sel, .error .csr, .error .reserved,
      .ok (.csrr .maxWireLen [])] := by decide +kernel

theorem meets_ChannelFraming :
    ([7] : Bytes).length < 2 ^ 32 ∧ 8 < 8 + ([7] : Bytes).length ∧
    splitCommand [0x20, 0x01, 0x00, 0x00, 0x01, 0x00, 0x00, 0x00, 0x07, 0xEE] = some (0x120, [7], [0xEE]) := by
  decide +kernel

theorem meets_AssembledLineDecodes :
    asmLine "SETLEVEL 9".toList = some (some (0x02000009, [9, 0, 0, 0, 0, 0, 0, 0])) ∧
    asmLine "CSRR 0x005".toList = some (some (0x00500008, [])) := by decide +kernel

theorem meets_StatusWordFormat : Answers (.nop []) ready 0x00 ∧ Answers (.nop [0]) faulted 0x11 :=
  ⟨answers_nop, answers_nop_length⟩

theorem meets_StepRunsDecodedCommand :
    (ready.submit (encode (.nop []))).rst = false ∧ (ready.submit (encode (.nop []))).holding = false ∧
    decode (ready.submit (encode (.nop []))).cmdIn = .command (.nop []) [] := by decide +kernel

theorem meets_StepWithoutLegalCommand :
    ready.rst = false ∧ (ready.submitCommand 0xFF [1]).holding = false ∧
    decode (ready.submitCommand 0xFF [1]).cmdIn = .illegal .opcode [] ∧
    decode (ready.submit [0, 0, 0, 0, 1, 0, 0, 0]).cmdIn = .incomplete := by decide +kernel

/-- A response made, one held past a depth of 0, and one made at the depth. -/
theorem meets_HoldKeepsResponses :
    (∃ t, step (ready.submitCommand 0 []) = .next t) ∧
    0 < ({ ready with rspDepth := some 0, rspOut := [⟨0, []⟩] } : State).rspOut.length ∧
    ({ ready with rspDepth := some 1, rspOut := [⟨0, []⟩] } : State).rspOut.length ≤ 1 ∧
    ∃ t, step (({ ready with rspDepth := some 1, rspOut := [⟨0, []⟩] } : State).submitCommand 0 []) = .next t :=
  ⟨⟨_, rfl⟩, by decide, by decide, ⟨_, rfl⟩⟩

/-- A step, a release, and a release after a submission under reset. -/
theorem meets_ResetClearsEverything :
    (faulted.driveReset true).rst = true ∧ (∃ t, step (faulted.driveReset true) = .next t) ∧
    (∃ t, t = (faulted.driveReset true).driveReset false) ∧
    ∃ t, t = ((faulted.driveReset true).submit [0]).driveReset false :=
  ⟨rfl, ⟨_, rfl⟩, ⟨_, rfl⟩, _, rfl⟩

/-- A NOP and a word that does not decode: with no bound on the response channel, and with a depth of 0 and a host that takes
between the steps. -/
theorem meets_CommandsRunInSubmissionOrder :
    (∀ c ∈ ([(0x00, []), (0xFF, [1])] : List (Word32 × Bytes)), c.2.length < 2 ^ 32) ∧
    (ready.cmdIn = [] ∧ ready.rst = false ∧ ready.rspDepth = none) ∧
    (∃ t, runWords [(0x00, []), (0xFF, [1])] ready = .next t) ∧
    ((ready.setDepth (some 0)).cmdIn = [] ∧ (ready.setDepth (some 0)).rst = false ∧
      (ready.setDepth (some 0)).rspOut = []) ∧
    (∃ t, runWords [(0x00, []), (0xFF, [1])] (ready.setDepth (some 0)) = .next t) ∧
    ∃ taken u, runTurns [.step, .step, .take, .step]
      ((ready.setDepth (some 0)).submit (commandsBytes [(0x00, []), (0xFF, [1])])) = .next (taken, u) :=
  ⟨by decide +kernel, by decide +kernel, ⟨_, rfl⟩, by decide +kernel, ⟨_, rfl⟩, _, _, rfl⟩

theorem meets_CmdSeqCountsCommands :
    ready.contextInv ∧ (∃ t, step (ready.submitCommand 0 []) = .next t) ∧
    ∃ t, step (faulted.driveReset true) = .next t := ⟨⟨by decide, by decide, by decide⟩, ⟨_, rfl⟩, _, rfl⟩

/-- Each bound of the table of lengths, on both sides. -/
theorem meets_LengthCheck :
    (¬ gated (.nop [0]) ready ∧ ¬ lengthAdmitted (.nop [0])) ∧ (¬ gated (.nop []) ready ∧ lengthAdmitted (.nop [])) ∧
    gated (.encode []) faulted ∧
    (¬ lengthAdmitted (.init (List.replicate 63 0)) ∧ lengthAdmitted (.init (List.replicate 64 0)) ∧
      ¬ lengthAdmitted (.init (List.replicate 65 0))) ∧
    (¬ lengthAdmitted (.csrw .id (List.replicate 7 0)) ∧ lengthAdmitted (.csrw .id (List.replicate 8 0)) ∧
      ¬ lengthAdmitted (.csrw .id (List.replicate 9 0))) ∧
    (¬ lengthAdmitted (.tag (List.replicate 7 0)) ∧ lengthAdmitted (.tag (List.replicate maxWireLen 0)) ∧
      ¬ lengthAdmitted (.tag (List.replicate (maxWireLen + 1) 0))) ∧
    (lengthAdmitted (.encode (List.replicate Config.maxPlainLen 0)) ∧
      ¬ lengthAdmitted (.encode (List.replicate (Config.maxPlainLen + 1) 0))) ∧
    (lengthAdmitted (.inflate (List.replicate (maxWireLen - 8) 0)) ∧
      ¬ lengthAdmitted (.inflate (List.replicate (maxWireLen - 8 + 1) 0))) := by
  have := two_pow_le_maxWireLen
  simp [gated, lengthAdmitted, instrOpcode, Instr.payload, ready, faulted]
  omega

theorem meets_FaultedGate :
    faulted.state = .faulted ∧ instrOpcode (.csrw .compLevel []) ∈ [Opcode.csrw, .tag, .encrypt, .decrypt, .deflate,
      .inflate, .encode, .decode] ∧ instrOpcode (.csrr .fault []) ∈ [Opcode.nop, .csrr, .init, .dispose] ∧
    opcodeOfByte (BitVec.extractLsb' 0 8 (0xFF : Word32)) = none := by decide +kernel

/-- The three refusals: ILLEGAL_COMMAND, LENGTH_ERROR, REJECTED. -/
theorem meets_RefusalChangesNothing :
    Answers (.csrw .compLevel [10, 0, 0, 0, 0, 0, 0, 0]) ready 0x10 ∧ Answers (.nop [0]) faulted 0x11 ∧
    Answers (.encode []) faulted 0x12 := ⟨answers_csrw_value, answers_nop_length, answers_rejected⟩

/-- The three fatal faults. -/
theorem meets_FatalFaultEntry :
    Answers (.tag [0, 0, 0, 0, 0, 0, 0, 0]) State.reset 0x01 ∧ Answers (.inflate [0x07]) ready 0x02 ∧
    Answers (.decode []) ready 0x03 := ⟨answers_tag_uninit, answers_inflate_fault, answers_decode_short⟩

theorem meets_FaultsByCommand :
    Answers (.tag [0, 0, 0, 0, 0, 0, 0, 0]) State.reset 0x01 ∧ Answers (.inflate [0x07]) ready 0x02 ∧
    Answers (.decode []) ready 0x03 := meets_FatalFaultEntry

theorem meets_LeavingFaulted :
    faulted.state = .faulted ∧ (secret0.toList ++ iv0.toList ++ iv0.toList).length = 64 ∧
    (∃ t, execWord 0x01 (secret0.toList ++ iv0.toList ++ iv0.toList) faulted = .next t ∧ t.state ≠ .faulted) ∧
    ∃ t, execWord 0x02 [] faulted = .next t ∧ t.state ≠ .faulted :=
  ⟨rfl, by simp, ⟨_, rfl, by decide⟩, ⟨_, rfl, by decide⟩⟩

theorem meets_EngineFaultWithoutContext :
    usesContext (.encode []) ∧ lengthAdmitted (.encode []) ∧ State.reset.state = .uninit ∧ disposed.state = .disposed := by
  simp [usesContext, lengthAdmitted, instrOpcode, Instr.payload, State.reset, disposed]

/-- INIT, ENCODE and DECODE with their OK, a DECODE that faults, a word that does not decode, a step of reset, and a step
that waits. -/
theorem meets_CounterWrites :
    Answers (.init (secret0.toList ++ iv0.toList ++ iv0.toList)) faulted 0x00 ∧ Answers (.encode []) ready 0x00 ∧
    Answers (.decode [0xDF, 0x2D, 0x36, 0x71, 0x6F, 0xC4, 0xEB, 0xD1, 0xAC, 0x04]) ready 0x00 ∧
    Answers (.decode []) ready 0x03 ∧
    (decodeWord 0xFF [] = .error .opcode ∧ ∃ t, execWord 0xFF [] ready = .next t) ∧
    (∃ t, step (faulted.driveReset true) = .next t) ∧ ∃ t, step ready = .next t ∧ t.rspOut = ready.rspOut :=
  ⟨answers_init, answers_encode, answers_decode, answers_decode_short, ⟨rfl, _, rfl⟩, ⟨_, rfl⟩, _, rfl, rfl⟩

/-- Every clause of the table: OK of each command that writes, by either engine, a fault, a refusal, NOP and CSRR. -/
theorem meets_WriteTable :
    Answers (.init (secret0.toList ++ iv0.toList ++ iv0.toList)) faulted 0x00 ∧ Answers (.dispose []) faulted 0x00 ∧
    Answers (.csrw .compLevel [9, 0, 0, 0, 0, 0, 0, 0]) ready 0x00 ∧ Answers (.encrypt .send []) ready 0x00 ∧
    Answers (.encrypt .recv []) ready 0x00 ∧ Answers (.decrypt .send []) ready 0x00 ∧
    Answers (.decrypt .recv []) ready 0x00 ∧ Answers (.encode []) ready 0x00 ∧
    Answers (.decode [0xDF, 0x2D, 0x36, 0x71, 0x6F, 0xC4, 0xEB, 0xD1, 0xAC, 0x04]) ready 0x00 ∧
    Answers (.decode []) ready 0x03 ∧ Answers (.nop [0]) faulted 0x11 ∧ Answers (.nop []) ready 0x00 ∧
    Answers (.csrr .fault []) faulted 0x00 ∧ (decodeWord 0xFF [] = .error .opcode ∧ ∃ t, execWord 0xFF [] ready = .next t) ∧
    (faulted.driveReset true).rst = true ∧ ∃ t, step (faulted.driveReset true) = .next t :=
  ⟨answers_init, answers_dispose, answers_csrw, answers_encrypt, answers_encrypt_recv, answers_decrypt_send,
    answers_decrypt, answers_encode, answers_decode, answers_decode_short, answers_nop_length, answers_nop, answers_csrr,
    ⟨rfl, _, rfl⟩, rfl, _, rfl⟩

theorem meets_SecretReachesOnlyCryptoCommands :
    ¬ usesContext (.nop []) ∧ ready.hideContext = { ready with secret := some (Vector.replicate 32 0) }.hideContext ∧
    ∃ t, exec (.nop []) ready = .next t := ⟨by simp [usesContext, instrOpcode], rfl, _, rfl⟩

theorem meets_StepKeepsInv : ready.Inv ∧ ∃ t, step (ready.submitCommand 0 []) = .next t :=
  ⟨⟨⟨by decide, by decide, by decide⟩, by simp [State.levelInv, ready], by simp [State.recordInv, ready, State.reset]⟩, _, rfl⟩

theorem meets_StepKeepsResponsesLegal :
    (∀ r ∈ ready.rspOut, r.legal) ∧ ∃ t, step (ready.submitCommand 0 []) = .next t :=
  ⟨by simp [ready, State.reset], _, rfl⟩

theorem meets_CsrwCompletes : ready.state ≠ .faulted := by decide

theorem meets_TagCompletes :
    ready.hasContext ctx0 ∧ 8 + ([] : Bytes).length ≤ maxWireLen ∧
    8 + (List.replicate (maxWireLen - 8) (0 : Byte)).length ≤ maxWireLen := by
  have := two_pow_le_maxWireLen
  refine ⟨ready_hasContext, ?_, ?_⟩
  · simp only [List.length_nil]; omega
  · simp only [List.length_replicate]; omega

theorem meets_EncryptCompletes : ready.hasContext ctx0 ∧ (List.replicate maxWireLen (0 : Byte)).length ≤ maxWireLen :=
  ⟨ready_hasContext, by rw [List.length_replicate]⟩

theorem meets_DecryptCompletes : ready.hasContext ctx0 ∧ (List.replicate maxWireLen (0 : Byte)).length ≤ maxWireLen :=
  meets_EncryptCompletes

theorem meets_DeflateCompletes :
    ready.state ≠ .faulted ∧ (List.replicate Config.maxPlainLen (0 : Byte)).length ≤ Config.maxPlainLen :=
  ⟨by decide, by rw [List.length_replicate]⟩

theorem meets_InflateCompletes :
    State.reset.state ≠ .faulted ∧ ([0x03, 0x00] : Bytes).length ≤ maxWireLen - 8 ∧ inflate [0x03, 0x00] = .ok [] ∧
    ([] : Bytes).length ≤ maxWireLen - 8 ∧ inflate [] = .error .truncated := by
  have := two_pow_le_maxWireLen
  refine ⟨by decide, ?_, by decide +kernel, Nat.zero_le _, by decide +kernel⟩
  simp only [List.length_cons, List.length_nil]
  omega

theorem meets_EncodeCompletes :
    ready.hasContext ctx0 ∧ (List.replicate Config.maxPlainLen (0 : Byte)).length ≤ Config.maxPlainLen :=
  ⟨ready_hasContext, by rw [List.length_replicate]⟩

theorem meets_DecodeCompletes :
    ready.hasContext ctx0 ∧
    ([0xDF, 0x2D, 0x36, 0x71, 0x6F, 0xC4, 0xEB, 0xD1, 0xAC, 0x04] : Bytes).length ≤ maxWireLen ∧
    (dec ctx0.secret ctx0.srR [0xDF, 0x2D, 0x36, 0x71, 0x6F, 0xC4, 0xEB, 0xD1, 0xAC, 0x04]).1 =
      [0x03, 0x00] ++ (sha256 (leBytes 8 ready.recvCtr.toNat ++ [0x03, 0x00] ++ ctx0.secret.toList)).take 8 ∧
    inflate [0x03, 0x00] = .ok [] := by
  have := two_pow_le_maxWireLen
  refine ⟨ready_hasContext, ?_, test_decipher_empty, by decide +kernel⟩
  simp only [List.length_cons, List.length_nil]
  omega

/-- Seven bytes and eight; a right tag of a payload that does not inflate (V-PK7); the same unit at counter 1, where its tag
is wrong. -/
theorem meets_DecodeFaultPaths :
    ready.hasContext ctx0 ∧ (List.replicate 7 (0 : Byte)).length < 8 ∧
    ([0x28, 0xBF, 0x79, 0x25, 0x75, 0xD9, 0x6A, 0x4C] : Bytes).length ≤ 8 ∧ 8 ≤ maxWireLen ∧
    (dec ctx0.secret ctx0.srR [0x28, 0xBF, 0x79, 0x25, 0x75, 0xD9, 0x6A, 0x4C]).1 =
      [] ++ (sha256 (leBytes 8 ready.recvCtr.toNat ++ [] ++ ctx0.secret.toList)).take 8 ∧
    inflate [] = .error .truncated ∧
    ({ ready with recvCtr := 1 } : State).hasContext ctx0 ∧
    (sha256 (leBytes 8 ready.recvCtr.toNat ++ [] ++ ctx0.secret.toList)).take 8 ≠
      (sha256 (leBytes 8 ({ ready with recvCtr := 1 } : State).recvCtr.toNat ++ [] ++ ctx0.secret.toList)).take 8 := by
  have := two_pow_le_maxWireLen
  exact ⟨ready_hasContext, by decide, by decide, by omega, test_decipher_unit, rfl, ⟨rfl, rfl, rfl, rfl⟩,
    by decide +kernel⟩

/-- The bounds of the padding: 55 bytes leave no zero byte, 56 leave 63. -/
theorem meets_ShaPadding :
    (List.replicate 55 (0 : Byte)).length < 2 ^ 61 ∧ (shaPad (List.replicate 55 0)).length = 64 ∧
    (shaPad (List.replicate 56 0)).length = 128 ∧ (15 : Nat) < 16 := by decide +kernel

theorem meets_SelfSynchronization : 16 ≤ (List.replicate 16 (0 : Byte)).length := by decide

theorem meets_Level0Form : ([1] : Bytes) ≠ [] := by decide

/-- Both ends of the levels and of the lengths; and a stream whose last block starts on a byte boundary. -/
theorem meets_CompressorProperties :
    (1 ≤ (1 : BitVec 4).toNat ∧ (9 : BitVec 4).toNat ≤ 9) ∧
    (List.replicate Config.maxPlainLen (0 : Byte)).length ≤ Config.maxPlainLen ∧
    ready.compLevel = faulted.compLevel ∧ Answers (.deflate []) ready 0x00 ∧
    inflateBlocks (deflate0 []) = .ok ([⟨false, .stored 0, 0⟩], []) ∧ 0 % 8 = 0 :=
  ⟨by decide, by rw [List.length_replicate], rfl, ⟨_, _, rfl, rfl, by decide⟩, by decide +kernel, rfl⟩

theorem meets_DeflateRoundTrip :
    (9 : BitVec 4).toNat ≤ 9 ∧ (List.replicate Config.maxPlainLen (0 : Byte)).length ≤ Config.maxPlainLen :=
  ⟨by decide, by rw [List.length_replicate]⟩

/-- BTYPE = 0 with any BFINAL and padding, and each clause where it meets the next. -/
theorem meets_StoredBlockReading :
    ([0x00, 0x01, 0xF8, 0xF9] : List Byte).map (·.extractLsb' 1 2) = [0, 0, 0, 0] ∧
    ([[0x00, 0x01, 0x00, 0xFE], [0x00, 0x01, 0x00, 0xFE, 0xFE], [0x00, 0x01, 0x00, 0xFE, 0xFF],
      [0xF8, 0x01, 0x00, 0xFE, 0xFF, 0x07], [0x00, 0x00, 0x00, 0xFF, 0xFF], [0x01, 0x01, 0x00, 0xFE, 0xFF, 0x07, 0x00],
      [0x00, 0x01, 0x00, 0xFE, 0xFF, 0x07, 0x03, 0x00]] : List Bytes).map inflate =
    [.error .truncated, .error .badStoredLen, .error .truncated, .ok [0x07], .ok [], .error .trailingData, .ok [0x07]] := by
  decide +kernel

theorem meets_InflateLimits : (0x07 : Byte).extractLsb' 1 2 = 3 ∧ inflate [0x03, 0x00] = .ok [] := by decide +kernel

/-- The first and the last symbol of each range of 43_compression.md R358, its bits in the stream. -/
theorem meets_FixedCodes :
    codeAt [0x0C] 0 (fixedLitCode 0).1 (fixedLitCode 0).2 ∧ codeAt [0xFD] 0 (fixedLitCode 143).1 (fixedLitCode 143).2 ∧
    codeAt [0x13, 0x00] 0 (fixedLitCode 144).1 (fixedLitCode 144).2 ∧
    codeAt [0xFF, 0x01] 0 (fixedLitCode 255).1 (fixedLitCode 255).2 ∧
    codeAt [0x00] 0 (fixedLitCode 256).1 (fixedLitCode 256).2 ∧ codeAt [0x74] 0 (fixedLitCode 279).1 (fixedLitCode 279).2 ∧
    codeAt [0x03] 0 (fixedLitCode 280).1 (fixedLitCode 280).2 ∧ codeAt [0xE3] 0 (fixedLitCode 287).1 (fixedLitCode 287).2 ∧
    codeAt [0x00] 0 5 0 ∧ codeAt [0xF8] 3 5 31 :=
  ⟨codeAt_of_all (by decide), codeAt_of_all (by decide), codeAt_of_all (by decide), codeAt_of_all (by decide),
    codeAt_of_all (by decide), codeAt_of_all (by decide), codeAt_of_all (by decide), codeAt_of_all (by decide),
    codeAt_of_all (by decide), codeAt_of_all (by decide)⟩

/-- The turns the model gives to the loops over two bytes and over 258 code lengths, and more. -/
theorem meets_InflateTerminates : 8 * ([0x03, 0x00] : Bytes).length + 1 ≤ 18 ∧ 258 ≤ 259 := by decide

theorem meets_WireSizes :
    (List.replicate Config.maxPlainLen (0 : Byte)).length ≤ Config.maxPlainLen ∧ ([] : Bytes).length ≤ Config.maxPlainLen :=
  ⟨by rw [List.length_replicate], Nat.zero_le _⟩

theorem meets_PacketRoundTrip :
    ∀ p ∈ [List.replicate Config.maxPlainLen (0 : Byte), []], p.length ≤ Config.maxPlainLen := by
  simp [List.length_replicate]

theorem meets_MirroredStepRoundTrip : mirrored ready ready ∧ ([7] : Bytes).length ≤ Config.maxPlainLen := by
  have := two_pow_le_maxPlainLen
  refine ⟨⟨ctx0, ctx0, ready_hasContext, ready_hasContext, rfl, rfl, rfl⟩, ?_⟩
  simp only [List.length_cons, List.length_nil]
  omega

/-- One ENCODE and one DECODE, both OK. -/
theorem runs_encode_decode :
    ∃ (t : State) (rs : List Response),
      runCommands [.encode [], .decode [0xDF, 0x2D, 0x36, 0x71, 0x6F, 0xC4, 0xEB, 0xD1, 0xAC, 0x04]] ready = .next t ∧
      t.rspOut = ready.rspOut ++ rs ∧ rs.length = 2 ∧ faultFree rs = true := by
  refine ⟨?t, [⟨0, ?o1⟩, ⟨0, ?o2⟩], ?run, ?out, rfl, rfl⟩
  case run =>
    rw [runCommands, exec, execEncode, commandCycle_perform (.inl (by decide)) rfl, requireContext_ready ready_hasContext,
      performEncode, bumpResult_next, respond_ok_bumpSeq]
    dsimp only
    rw [runCommands, exec, execDecode, commandCycle_perform (.inl (by decide)) rfl,
      requireContext_ready (k := ⟨secret0, _, iv0⟩) ⟨rfl, rfl, rfl, rfl⟩, performDecode_eq test_decipher_empty rfl]
    rw [if_neg (by rw [Bool.not_eq_false]; exact (tagsMatch_iff_eq (tag_length _ _ _) (tag_length _ _ _)).mpr rfl)]
    rw [show inflate [0x03, 0x00] = .ok [] by decide +kernel, bumpResult_next, respond_ok_bumpSeq]
    rfl
  case out => rfl

/-- One ENCODE and one DECODE, both OK; and a run with both engines, the shared commands and NOP, of neither direction. -/
theorem meets_DirectionIndependence :
    (∃ (t : State) (rs : List Response),
      runCommands [.encode [], .decode [0xDF, 0x2D, 0x36, 0x71, 0x6F, 0xC4, 0xEB, 0xD1, 0xAC, 0x04]] ready = .next t ∧
      t.rspOut = ready.rspOut ++ rs ∧ rs.length = 2 ∧ faultFree rs = true) ∧
    ∃ (t : State) (rs : List Response),
      runCommands [.init (secret0.toList ++ iv0.toList ++ iv0.toList), .csrw .compLevel [0, 0, 0, 0, 0, 0, 0, 0],
        .encrypt .send [], .decrypt .recv [], .nop [], .tag [], .dispose []] ready =
        .next t ∧
      t.rspOut = ready.rspOut ++ rs ∧ rs.length = 7 ∧ faultFree rs = true :=
  ⟨runs_encode_decode, _, [_, _, _, _, _, _, _], rfl, rfl, rfl, by decide +kernel⟩

/-- An ENCODE that ends with OK and a DECODE that ends with SHORT_UNIT. -/
theorem meets_CountersCountPackets :
    (secret0.toList ++ iv0.toList ++ iv0.toList).length = 64 ∧
    (∀ i ∈ [Instr.encode [], .decode []], instrOpcode i ≠ .init) ∧
    ∃ (t : State) (r : Response) (rs : List Response),
      runCommands (.init (secret0.toList ++ iv0.toList ++ iv0.toList) :: [.encode [], .decode []]) faulted = .next t ∧
      t.rspOut = faulted.rspOut ++ r :: rs ∧ rs.length = 2 :=
  ⟨by simp, by decide, _, _, [_, _], rfl, rfl, rfl⟩

theorem meets_HandBuiltUnit : ready.hasContext ctx0 ∧ ([] : Bytes).length ≤ Config.maxPlainLen :=
  ⟨ready_hasContext, Nat.zero_le _⟩

end Sys2Proof.Tests
end

section
/-! PROOF. The family of 10_state.md: what every command ends with, and the obligations O15, O23 and O24 read off it. -/

namespace Sys2Proof.Machine

/-! ## What a status word says of the response it heads -/

@[simp] theorem Response.status_statusWord (st : Status) (cause : Byte) (out : Bytes) :
    (⟨statusWord st cause, out⟩ : Response).status = statusCode st :=
  statusWord_status st cause

@[simp] theorem Response.cause_statusWord (st : Status) (cause : Byte) (out : Bytes) :
    (⟨statusWord st cause, out⟩ : Response).cause = cause :=
  statusWord_cause st cause

@[simp] theorem Response.isFault_statusWord (st : Status) (cause : Byte) (out : Bytes) :
    (⟨statusWord st cause, out⟩ : Response).isFault = true ↔
      st ∈ [Status.engineFault, .decodeFault, .integrityFault] := by
  cases st <;> simp [Response.isFault, statusCode]

@[simp] theorem Response.isRefusal_statusWord (st : Status) (cause : Byte) (out : Bytes) :
    (⟨statusWord st cause, out⟩ : Response).isRefusal = true ↔
      st ∈ [Status.illegalCommand, .lengthError, .rejected] := by
  cases st <;> simp [Response.isRefusal, statusCode]

@[simp] theorem statusCode_faultStatus (kind : FaultKind) : statusCode (faultStatus kind) = faultKindCode kind := by
  cases kind <;> rfl

/-! ## The ends of a command -/

/-- The value that CSRW writes to COMP_LEVEL is the low four bits of its whole payload (30_encoding.md R158, R160). -/
theorem extractLsb'_operandLE64 {p : Bytes} (h : p.length = 8) :
    (operandLE64 p).extractLsb' 0 4 = BitVec.ofNat 4 (fromLE p) := by
  apply BitVec.eq_of_toNat_eq
  rw [operandLE64, List.take_of_length_le h.le]
  simp only [BitVec.extractLsb'_toNat, BitVec.toNat_ofNat, Nat.shiftRight_zero]
  omega

/-- What a command that ends with OK writes besides its response and CMD_SEQ: `OkWrites i s u` has `u` for the state that
`i` makes of `s` (10_state.md R75). -/
inductive OkWrites : Instr → State → State → Prop
  | nop (p : Bytes) (s : State) : OkWrites (.nop p) s s
  | init (p : Bytes) (s : State) :
    OkWrites (.init p) s (s.loadContext (initSecret p) (initIvSend p) (initIvRecv p))
  | dispose (p : Bytes) (s : State) : OkWrites (.dispose p) s s.disposeContext
  | csrr (c : Csr) (p : Bytes) (s : State) : OkWrites (.csrr c p) s s
  | csrw (p : Bytes) (s : State) :
    OkWrites (.csrw .compLevel p) s { s with compLevel := BitVec.ofNat 4 (fromLE p) }
  | tag (p : Bytes) (s : State) : OkWrites (.tag p) s s
  | encrypt (e : Engine) (p : Bytes) (s : State) (k : Context) (hk : s.context = some k) :
    OkWrites (.encrypt e p) s (s.setSr e (enc k.secret (k.sr e) p).2)
  | decrypt (e : Engine) (p : Bytes) (s : State) (k : Context) (hk : s.context = some k) :
    OkWrites (.decrypt e p) s (s.setSr e (dec k.secret (k.sr e) p).2)
  | deflate (p : Bytes) (s : State) : OkWrites (.deflate p) s s
  | inflate (p : Bytes) (s : State) : OkWrites (.inflate p) s s
  | encode (p : Bytes) (s : State) (k : Context) (hk : s.context = some k) :
    OkWrites (.encode p) s
      { s with
        srS := some (enc k.secret k.srS (framedUnit s.compLevel s.sendCtr k.secret p)).2
        sendCtr := s.sendCtr + 1 }
  | decode (p : Bytes) (s : State) (k : Context) (hk : s.context = some k) :
    OkWrites (.decode p) s { s with srR := some (dec k.secret k.srR p).2, recvCtr := s.recvCtr + 1 }

/-- The part of a faulting command's work that outlives the fault: a DECODE that got past RequireContext has counted its
unit (10_state.md R57; 44_packet.md R462). -/
def State.countedUnit (s : State) (i : Instr) (kind : FaultKind) : State :=
  { s with recvCtr := if instrOpcode i = .decode ∧ kind ≠ .engine then s.recvCtr + 1 else s.recvCtr }

/-- The three ways a command ends (60_exceptions.md R600, R601): `Ends i s t r` when `i`, run in `s`, leaves `t` with the
response `r` added. -/
inductive Ends (i : Instr) (s : State) : State → Response → Prop
  | refused (st : Status) (cause : Byte) (hst : st ∈ [Status.illegalCommand, .lengthError, .rejected]) :
    Ends i s (s.answer (statusWord st cause) []) ⟨statusWord st cause, []⟩
  | faulted (kind : FaultKind) (cause : Byte) (hi : usesContext i ∨ instrOpcode i = .inflate) :
    Ends i s ((s.countedUnit i kind).faultedBy (faultKindCode kind) cause (opcodeByte (instrOpcode i)))
      ⟨statusWord (faultStatus kind) cause, []⟩
  | ok (u : State) (out : Bytes) (hu : OkWrites i s u) :
    Ends i s (u.answer (statusWord .ok 0) out) ⟨statusWord .ok 0, out⟩

theorem OkWrites.rspOut_eq {i : Instr} {s u : State} (h : OkWrites i s u) : u.rspOut = s.rspOut := by
  cases h <;> simp

/-- An end of a command adds its response to those that wait. -/
theorem Ends.rspOut_eq {i : Instr} {s t : State} {r : Response} (h : Ends i s t r) : t.rspOut = s.rspOut ++ [r] := by
  cases h with
  | refused st cause _ => rfl
  | faulted kind cause hi => cases kind <;> rfl
  | ok u out hu => simp [State.answer, hu.rspOut_eq]

/-- An EngineFault of RequireContext is an end. -/
theorem Ends.engineFault {i : Instr} (hi : usesContext i) (s : State) (cause : Byte) :
    Ends i s (s.faultedBy 1 cause (opcodeByte (instrOpcode i))) ⟨statusWord .engineFault cause, []⟩ := by
  have hs : s.countedUnit i .engine = s := by simp [State.countedUnit]
  have h := Ends.faulted (i := i) (s := s) .engine cause (.inl hi)
  rwa [hs] at h

/-- A DECODE past RequireContext that faults has counted its unit. -/
theorem Ends.decodeFaulted (p : Bytes) (s : State) {kind : FaultKind} (hk : kind ≠ .engine) (cause : Byte) :
    Ends (.decode p) s ({ s with recvCtr := s.recvCtr + 1 }.faultedBy (faultKindCode kind) cause 0x41)
      ⟨statusWord (faultStatus kind) cause, []⟩ := by
  have hs : s.countedUnit (.decode p) kind = { s with recvCtr := s.recvCtr + 1 } := by
    simp [State.countedUnit, instrOpcode, hk]
  have h := Ends.faulted (i := .decode p) (s := s) kind cause (.inl (by simp [usesContext, instrOpcode]))
  rwa [hs] at h

/-- A command that needs a context ends by the EngineFault of RequireContext, or as it does with the context. -/
theorem ends_of_context_cases {i : Instr} {s t : State} {P : Context → Prop} (hi : usesContext i)
    (h : (s.state = .uninit ∧ t = s.faultedBy 1 1 (opcodeByte (instrOpcode i))) ∨
      (s.state = .disposed ∧ t = s.faultedBy 1 2 (opcodeByte (instrOpcode i))) ∨
      (s.state = .ready ∧ ∃ k : Context, s.context = some k ∧ P k))
    (hP : ∀ k, s.context = some k → P k → ∃ r, Ends i s t r) : ∃ r, Ends i s t r := by
  obtain ⟨-, rfl⟩ | ⟨-, rfl⟩ | ⟨-, k, hk, hPk⟩ := h
  · exact ⟨_, .engineFault hi s 1⟩
  · exact ⟨_, .engineFault hi s 2⟩
  · exact hP k hk hPk

/-- Every command that answers a next state ends in one of the three ways. -/
theorem exec_ends {i : Instr} {s t : State} (h : exec i s = .next t) : ∃ r, Ends i s t r := by
  obtain ⟨-, rfl⟩ | ⟨-, -, rfl⟩ | ⟨-, hl, h⟩ := exec_next h
  · exact ⟨_, .refused .rejected s.faultKind (by simp)⟩
  · exact ⟨_, .refused .lengthError 0 (by simp)⟩
  cases i with
  | nop p => obtain rfl : t = _ := h; exact ⟨_, .ok _ _ (.nop p s)⟩
  | init p => obtain rfl : t = _ := h; exact ⟨_, .ok _ _ (.init p s)⟩
  | dispose p => obtain rfl : t = _ := h; exact ⟨_, .ok _ _ (.dispose p s)⟩
  | csrr c p => obtain rfl : t = _ := h; exact ⟨_, .ok _ _ (.csrr c p s)⟩
  | csrw c p =>
    obtain ⟨-, rfl⟩ | ⟨-, -, rfl⟩ | ⟨rfl, -, rfl⟩ := h
    · exact ⟨_, .refused .illegalCommand 5 (by simp)⟩
    · exact ⟨_, .refused .illegalCommand 6 (by simp)⟩
    · rw [extractLsb'_operandLE64 (p := p) hl]
      exact ⟨_, .ok _ _ (.csrw p s)⟩
  | tag p =>
    refine ends_of_context_cases (by simp [usesContext, instrOpcode]) h ?_
    rintro k - rfl
    exact ⟨_, .ok _ _ (.tag p s)⟩
  | encrypt e p =>
    refine ends_of_context_cases (by simp [usesContext, instrOpcode]) h ?_
    rintro k hk rfl
    exact ⟨_, .ok _ _ (.encrypt e p s k hk)⟩
  | decrypt e p =>
    refine ends_of_context_cases (by simp [usesContext, instrOpcode]) h ?_
    rintro k hk rfl
    exact ⟨_, .ok _ _ (.decrypt e p s k hk)⟩
  | deflate p => obtain rfl : t = _ := h; exact ⟨_, .ok _ _ (.deflate p s)⟩
  | inflate p =>
    obtain ⟨e, -, rfl⟩ | ⟨q, -, rfl⟩ := h
    · exact ⟨_, .faulted .decode (decodeCode e) (.inr rfl)⟩
    · exact ⟨_, .ok _ _ (.inflate p s)⟩
  | encode p =>
    refine ends_of_context_cases (by simp [usesContext, instrOpcode]) h ?_
    rintro k hk rfl
    exact ⟨_, .ok _ _ (.encode p s k hk)⟩
  | decode p =>
    refine ends_of_context_cases (by simp [usesContext, instrOpcode]) h ?_
    rintro k hk (⟨-, rfl⟩ | ⟨-, c, u, -, -, ⟨-, rfl⟩ | ⟨-, ⟨e, -, rfl⟩ | ⟨q, -, rfl⟩⟩⟩)
    · exact ⟨_, .decodeFaulted p s (kind := .integrity) (by simp) 2⟩
    · exact ⟨_, .decodeFaulted p s (kind := .integrity) (by simp) 1⟩
    · exact ⟨_, .decodeFaulted p s (kind := .decode) (by simp) (decodeCode e)⟩
    · exact ⟨_, .ok _ _ (.decode p s k hk)⟩

/-- The response of a command says how it ended. -/
theorem exec_ends_with {i : Instr} {s t : State} {r : Response} (h : exec i s = .next t)
    (hr : t.rspOut = s.rspOut ++ [r]) : Ends i s t r := by
  obtain ⟨r', hr'⟩ := exec_ends h
  have hrr : r' = r := by simpa using hr'.rspOut_eq.symm.trans hr
  exact hrr ▸ hr'

/-! ## CMD_SEQ, the decoding refusals, and what a step is -/

theorem OkWrites.cmdSeq_eq {i : Instr} {s u : State} (h : OkWrites i s u) : u.cmdSeq = s.cmdSeq := by
  cases h <;> simp

/-- However a command ends, it is counted (10_state.md R59). -/
theorem Ends.cmdSeq_eq {i : Instr} {s t : State} {r : Response} (h : Ends i s t r) : t.cmdSeq = s.cmdSeq + 1 := by
  cases h with
  | refused st cause _ => rfl
  | faulted kind cause hi => rfl
  | ok u out hu => simp [State.answer, hu.cmdSeq_eq]

/-- A word that does not decode is answered, and nothing else happens. -/
theorem execWord_illegal {w : Word32} {p : Bytes} {c : IllegalCause} {s t : State} (hd : decodeWord w p = .error c)
    (h : execWord w p s = .next t) : t = s.answer (statusWord .illegalCommand (illegalCode c)) [] := by
  simpa [execWord, hd, statusWord_eq, eq_comm] using h

/-- Under `rst` a step leaves the reset values. -/
theorem step_of_rst {s t : State} (hr : s.rst = true) (h : step s = .next t) : t = s.inReset := by
  simpa [step, hr, eq_comm] using h

/-- Everything a step out of reset can do: hold or wait, answer a word that does not decode, or run a command. -/
theorem step_running_cases {s t : State} (hr : s.rst = false) (h : step s = .next t) :
    t = s ∨ (∃ c rest, t = (s.consumed rest).illegalCommand c) ∨ ∃ i rest, exec i (s.consumed rest) = .next t := by
  rw [step, if_neg (by simp [hr])] at h
  split at h
  · exact .inl (Host.Outcome.next.inj h).symm
  · split at h
    · exact .inl (Host.Outcome.next.inj h).symm
    · rename_i c rest _
      exact .inr (.inl ⟨c, rest, (Host.Outcome.next.inj h).symm⟩)
    · rename_i i rest _
      exact .inr (.inr ⟨i, rest, h⟩)

/-- A step out of reset changes nothing, or adds one response and counts one command. -/
theorem step_running_counts {s t : State} (hr : s.rst = false) (h : step s = .next t) :
    t = s ∨ ∃ r, t.rspOut = s.rspOut ++ [r] ∧ t.cmdSeq = s.cmdSeq + 1 := by
  obtain rfl | ⟨c, rest, rfl⟩ | ⟨i, rest, he⟩ := step_running_cases hr h
  · exact .inl rfl
  · exact .inr ⟨_, rfl, rfl⟩
  · obtain ⟨r, hr⟩ := exec_ends he
    exact .inr ⟨r, hr.rspOut_eq, hr.cmdSeq_eq⟩

/-! ## Every command answers a next state -/

/-- In READY the context is there (10_state.md R50). -/
theorem State.contextInv.exists_hasContext {s : State} (hc : s.contextInv) (hs : s.state = .ready) :
    ∃ k, s.hasContext k := by
  obtain ⟨hk, ha, hb⟩ := hc
  obtain ⟨k, hk⟩ := Option.isSome_iff_exists.mp (hk.mpr hs)
  obtain ⟨a, ha⟩ := Option.isSome_iff_exists.mp (ha.mpr hs)
  obtain ⟨b, hb⟩ := Option.isSome_iff_exists.mp (hb.mpr hs)
  exact ⟨⟨k, a, b⟩, hs, hk, ha, hb⟩

/-- The cycle answers where Perform does, past the gate. -/
theorem commandCycle_answers {i : Instr} {perform : State → Result} {s : State}
    (hp : s.state ≠ .faulted ∨ runsInFaulted i = true → ∃ u, perform s = .next u) :
    ∃ t, commandCycle i perform s = .next t := by
  by_cases hg : s.state = .faulted ∧ runsInFaulted i = false
  · exact ⟨_, commandCycle_gated hg.1 hg.2⟩
  have hg' : s.state ≠ .faulted ∨ runsInFaulted i = true := by
    rwa [Decidable.not_and_iff_or_not, Bool.not_eq_false] at hg
  cases hl : admitsLength i with
  | false => exact ⟨_, commandCycle_badLength hg' hl⟩
  | true =>
    obtain ⟨u, hu⟩ := hp hg'
    exact ⟨_, by rw [commandCycle_perform hg' hl, hu, bumpResult_next]⟩

/-- RequireContext answers outside FAULTED where the command does with its context. -/
theorem requireContext_answers {opc : Opcode} {s : State} {perform : Context → Result} (hc : s.contextInv)
    (hs : s.state ≠ .faulted) (hp : ∀ k, ∃ u, perform k = .next u) :
    ∃ u, requireContext opc s perform = .next u := by
  cases h : s.state with
  | uninit => exact ⟨_, requireContext_uninit h⟩
  | disposed => exact ⟨_, requireContext_disposed h⟩
  | faulted => exact absurd h hs
  | ready =>
    obtain ⟨k, hk⟩ := hc.exists_hasContext h
    rw [requireContext_ready hk]
    exact hp k

/-- The cycle of a command that needs a context: the gate keeps it out of FAULTED. -/
theorem contextCycle_answers {i : Instr} {opc : Opcode} {s : State} {perform : State → Context → Result}
    (hc : s.contextInv) (hi : runsInFaulted i = false) (hp : ∀ k, ∃ u, perform s k = .next u) :
    ∃ t, commandCycle i (fun s => requireContext opc s (perform s)) s = .next t :=
  commandCycle_answers fun hg => requireContext_answers hc (hg.resolve_right (by simp [hi])) hp

theorem performCsrw_answers (c : Csr) (p : Bytes) (s : State) : ∃ u, performCsrw c p s = .next u := by
  unfold performCsrw
  dsimp only
  split
  · exact ⟨_, rfl⟩
  · split <;> exact ⟨_, rfl⟩

theorem performDecode_answers (p : Bytes) (s : State) (k : Context) : ∃ u, performDecode p s k = .next u := by
  unfold performDecode finishDecode
  dsimp only
  split
  · exact ⟨_, rfl⟩
  split
  · exact ⟨_, rfl⟩
  split <;> exact ⟨_, rfl⟩

/-- Every command answers a next state where the context is as R50 says. -/
theorem exec_answers {s : State} (hc : s.contextInv) (i : Instr) : ∃ t, exec i s = .next t := by
  cases i with
  | nop p => rw [exec, execNop]; exact commandCycle_answers fun _ => ⟨_, rfl⟩
  | init p => rw [exec, execInit]; exact commandCycle_answers fun _ => ⟨_, rfl⟩
  | dispose p => rw [exec, execDispose]; exact commandCycle_answers fun _ => ⟨_, rfl⟩
  | csrr c p => rw [exec, execCsrr]; exact commandCycle_answers fun _ => ⟨_, rfl⟩
  | csrw c p => rw [exec, execCsrw]; exact commandCycle_answers fun _ => performCsrw_answers c p s
  | tag p => rw [exec, execTag]; exact contextCycle_answers hc rfl fun _ => ⟨_, rfl⟩
  | encrypt e p => rw [exec, execEncrypt]; exact contextCycle_answers hc rfl fun _ => ⟨_, rfl⟩
  | decrypt e p => rw [exec, execDecrypt]; exact contextCycle_answers hc rfl fun _ => ⟨_, rfl⟩
  | deflate p => rw [exec, execDeflate]; exact commandCycle_answers fun _ => ⟨_, rfl⟩
  | inflate p =>
    rw [exec, execInflate]
    refine commandCycle_answers fun _ => ?_
    cases inflate p <;> exact ⟨_, rfl⟩
  | encode p => rw [exec, execEncode]; exact contextCycle_answers hc rfl fun _ => ⟨_, rfl⟩
  | decode p => rw [exec, execDecode]; exact contextCycle_answers hc rfl fun k => performDecode_answers p s k

/-- A command word in a state with its context as R50 says: it answers, makes one response, is counted, and leaves what
stands in the channels. -/
theorem execWord_answers {s : State} (hc : s.contextInv) (w : Word32) (p : Bytes) :
    ∃ (t : State) (r : Response), execWord w p s = .next t ∧ t.rspOut = s.rspOut ++ [r] ∧ t.cmdSeq = s.cmdSeq + 1 ∧
      t.cmdIn = s.cmdIn ∧ t.rspDepth = s.rspDepth ∧ t.rst = s.rst := by
  unfold execWord
  cases decodeWord w p with
  | error c => exact ⟨_, _, rfl, rfl, rfl, rfl, rfl, rfl⟩
  | ok i =>
    obtain ⟨t, ht⟩ := exec_answers hc i
    obtain ⟨r, hr⟩ := exec_ends ht
    exact ⟨t, r, ht, hr.rspOut_eq, hr.cmdSeq_eq, (exec_ignoresChannels i).keeps ht⟩

/-- CSRR of CMD_SEQ reads the number of commands before it, in every STATE. -/
theorem exec_csrr_cmdSeq (s : State) : exec (.csrr .cmdSeq []) s = .next (s.answer 0 (leBytes 8 s.cmdSeq.toNat)) := by
  rw [exec, execCsrr, commandCycle_perform (.inr rfl) rfl, bumpResult_next, respond_ok_bumpSeq]
  rfl

/-- Settles O15: a command answers with one response and is counted; a step is one command, or nothing, or reset. -/
theorem cmdSeqCountsCommands : Obligations.CmdSeqCountsCommands := by
  refine ⟨fun w p s hc => execWord_answers hc w p, exec_csrr_cmdSeq, fun s t h => ?_, rfl⟩
  split
  case isTrue hr => rw [step_of_rst hr h]; rfl
  case isFalse hr =>
    obtain rfl | ⟨r, ho, hq⟩ := step_running_counts (by simpa using hr) h
    · simp
    · simp [ho, hq]

/-- Settles O23: the counters after each end of a command; a step that adds no response ran none. -/
theorem counterWrites : Obligations.CounterWrites := by
  refine ⟨fun i s t r h hr => ?_, fun w p c s t hd h => ?_, fun s t h hr => ?_,
    fun s t h hr ho => ?_⟩
  · cases exec_ends_with h hr with
    | refused st cause hst => fin_cases hst <;> simp [State.answer, statusCode]
    | faulted kind cause hi => cases kind <;> simp [State.faultedBy, State.countedUnit, faultKindCode]
    | ok u out hu => cases hu <;> simp [State.answer, instrOpcode, statusCode]
  · rw [execWord_illegal hd h]; exact ⟨rfl, rfl⟩
  · rw [step_of_rst hr h]; exact ⟨rfl, rfl⟩
  · obtain rfl | ⟨r, hr, -⟩ := step_running_counts hr h
    · exact ⟨rfl, rfl⟩
    · simp [ho] at hr

/-- Settles O24: the table row by row, an end of the command at a time; the rows of the engines are read off the context
that ENCRYPT, DECRYPT, ENCODE and DECODE found. -/
theorem writeTable : Obligations.WriteTable := by
  refine ⟨fun i s t r h hr => ?_, fun w p c s t hd h => ⟨_, execWord_illegal hd h⟩, fun s t hr h => ?_⟩
  · cases exec_ends_with h hr with
    | refused st cause hst => fin_cases hst <;> simp [State.answer, statusCode]
    | faulted kind cause hi =>
      have hi' : instrOpcode i ≠ .nop ∧ instrOpcode i ≠ .csrr := by
        constructor <;> intro h <;> simp [usesContext, h] at hi
      cases kind <;> simp [State.faultedBy, State.countedUnit, faultStatus, statusCode, faultKindCode, hi']
    | ok u out hu =>
      cases hu with
      | encrypt e p _ k hk | decrypt e p _ k hk =>
        obtain ⟨hsecret, hsrS, hsrR⟩ := State.context_eq_some.mp hk
        cases e <;> simp [State.answer, instrOpcode, instrSel, selOfEngine, Instr.payload, statusCode, Context.sr,
          hsecret, hsrS, hsrR]
      | encode p _ k hk | decode p _ k hk =>
        obtain ⟨hsecret, hsrS, hsrR⟩ := State.context_eq_some.mp hk
        simp [State.answer, instrOpcode, Instr.payload, statusCode, hsecret, hsrS, hsrR]
      | _ => simp [State.answer, instrOpcode, Instr.payload, statusCode]
  · rw [step_of_rst hr h]
    simp [State.reset, lt_trans Config.defaultCompLevel.isLt (show 10 < 16 by decide)]

end Sys2Proof.Machine
end

section
/-! PROOF. The family of 30_encoding.md, the codec: how bytes are framed into commands, and what the checks of a command
word find in its fields. -/

namespace Sys2Proof

/-! ## The framing of commands (30_encoding.md R152) -/

@[simp] theorem commandBytes_length (w : Word32) (p : Bytes) : (commandBytes w p).length = 8 + p.length := by
  simp [commandBytes]
  omega

/-- Bytes that arrive behind a whole command are left behind it. -/
theorem splitCommand_append {bs : Bytes} {w : Word32} {p rest : Bytes} (h : splitCommand bs = some (w, p, rest))
    (more : Bytes) : splitCommand (bs ++ more) = some (w, p, rest ++ more) := by
  obtain ⟨rfl, hp⟩ := splitCommand_eq_some h
  rw [List.append_assoc, splitCommand_commandBytes w p (rest ++ more) hp]

/-- A command is not seen before its last byte: what would be split off early would be split off the whole command too,
with bytes left over. -/
theorem splitCommand_take_commandBytes (w : Word32) {p : Bytes} {n : Nat} (hp : p.length < 2 ^ 32)
    (hn : n < 8 + p.length) : splitCommand ((commandBytes w p).take n) = none := by
  by_contra hsome
  obtain ⟨⟨w', p', rest⟩, hearly⟩ := Option.ne_none_iff_exists'.mp hsome
  have hlate := splitCommand_append hearly ((commandBytes w p).drop n)
  have hwhole := splitCommand_commandBytes w p [] hp
  rw [List.take_append_drop] at hlate
  rw [List.append_nil, hlate] at hwhole
  have hleft : (commandBytes w p).drop n = [] := by simp_all
  have hlen := List.drop_eq_nil_iff.mp hleft
  rw [commandBytes_length] at hlen
  omega

/-- A whole command whose word does not decode is consumed whole. -/
theorem decode_commandBytes_error {w : Word32} {p : Bytes} {c : IllegalCause} (hp : p.length < 2 ^ 32)
    (hd : decodeWord w p = .error c) (rest : Bytes) : decode (commandBytes w p ++ rest) = .illegal c rest := by
  simp [decode, splitCommand_commandBytes w p rest hp, hd]

theorem decode_commandBytes_ok {w : Word32} {p : Bytes} {i : Instr} (hp : p.length < 2 ^ 32)
    (hd : decodeWord w p = .ok i) (rest : Bytes) : decode (commandBytes w p ++ rest) = .command i rest := by
  simp [decode, splitCommand_commandBytes w p rest hp, hd]

theorem decode_take_commandBytes (w : Word32) {p : Bytes} {n : Nat} (hp : p.length < 2 ^ 32)
    (hn : n < 8 + p.length) : decode ((commandBytes w p).take n) = .incomplete := by
  rw [decode, splitCommand_take_commandBytes w hp hn]

/-- Settles O5: a command goes over the channel as `commandBytes`, so the laws of `splitCommand` say what is read. -/
theorem channelFraming : Obligations.ChannelFraming := by
  refine ⟨fun w p rest hp => ?_, fun w p n hp hn => decode_take_commandBytes w hp hn,
    fun bs w p rest h => Nat.le_pred_of_lt (splitCommand_eq_some h).2, fun r => rfl⟩
  cases hd : decodeWord w p with
  | error c => exact decode_commandBytes_error hp hd rest
  | ok i => exact decode_commandBytes_ok hp hd rest

/-! ## The fields of a command word (30_encoding.md R153) -/

/-- The opcodes that are not reserved (30_encoding.md R157). -/
theorem opcodeOfByte_eq_none (b : Byte) : opcodeOfByte b = none ↔
    b ∉ ([0x00, 0x01, 0x02, 0x08, 0x09, 0x10, 0x20, 0x21, 0x30, 0x31, 0x40, 0x41] : List Byte) := by
  rw [show ([0x00, 0x01, 0x02, 0x08, 0x09, 0x10, 0x20, 0x21, 0x30, 0x31, 0x40, 0x41] : List Byte) =
    opcodes.map opcodeByte from rfl]
  simp [opcodeOfByte]

/-- The numbers that name a CSR (10_state.md R61). -/
theorem csrOfNumber_eq_none (n : BitVec 12) : csrOfNumber n = none ↔
    n ∉ ([0x000, 0x001, 0x002, 0x003, 0x004, 0x010, 0x011, 0x020, 0x030, 0x031] : List (BitVec 12)) := by
  rw [show ([0x000, 0x001, 0x002, 0x003, 0x004, 0x010, 0x011, 0x020, 0x030, 0x031] : List (BitVec 12)) =
    csrs.map csrNumber from rfl]
  simp [csrOfNumber]

theorem engineOfSel_eq_none (n : BitVec 4) : engineOfSel n = none ↔ 1 < n.toNat := by
  unfold engineOfSel
  split_ifs with h0 h1
  · simp [h0]
  · simp [h1]
  · simp only [true_iff]
    bv_omega

theorem opcodeByte_mem_csrOpcodes (o : Opcode) :
    opcodeByte o ∈ ([0x08, 0x09] : List Byte) ↔ o ∈ [Opcode.csrr, .csrw] := by
  cases o <;> decide

theorem opcodeByte_mem_selOpcodes (o : Opcode) :
    opcodeByte o ∈ ([0x20, 0x21] : List Byte) ↔ o ∈ [Opcode.encrypt, .decrypt] := by
  cases o <;> decide

/-- `i` is the command that the fields of a word and a payload say. -/
def Instr.HasFields (i : Instr) (opc : Byte) (sel : BitVec 4) (csr : BitVec 12) (p : Bytes) : Prop :=
  opcodeByte (instrOpcode i) = opc ∧ instrSel i = sel ∧ instrCsr i = csr ∧ i.payload = p

/-! ## The checks of a command word (30_encoding.md R159) -/

theorem decodeWord_reservedOpcode {w : Word32} (ho : opcodeOfByte (fieldOpcode w) = none) (p : Bytes) :
    decodeWord w p = .error .opcode := by
  simp [decodeWord, ho]

theorem decodeWord_reservedBits {w : Word32} {o : Opcode} (ho : opcodeOfByte (fieldOpcode w) = some o)
    (hr : fieldRsvd w ≠ 0) (p : Bytes) : decodeWord w p = .error .reserved := by
  unfold decodeWord
  rw [ho]
  exact if_pos hr

/-- Past the checks of the opcode and of `rsvd` the rest of the decoding depends on the kind of the opcode: it takes a
CSR, or an engine, or neither. -/
theorem decodeWord_cases {w : Word32} {o : Opcode} (ho : opcodeOfByte (fieldOpcode w) = some o) (hr : fieldRsvd w = 0)
    (p : Bytes) :
    (o ∈ [Opcode.csrr, .csrw] ∧ o ∉ [Opcode.encrypt, .decrypt] ∧ ∃ make : Csr → Instr,
      (∀ c, (make c).HasFields (opcodeByte o) 0 (csrNumber c) p) ∧ decodeWord w p = decodeCsr w make) ∨
    (o ∉ [Opcode.csrr, .csrw] ∧ o ∈ [Opcode.encrypt, .decrypt] ∧ ∃ make : Engine → Instr,
      (∀ e, (make e).HasFields (opcodeByte o) (selOfEngine e) 0 p) ∧ decodeWord w p = decodeSel w make) ∨
    (o ∉ [Opcode.csrr, .csrw] ∧ o ∉ [Opcode.encrypt, .decrypt] ∧ ∃ i : Instr,
      i.HasFields (opcodeByte o) 0 0 p ∧ decodeWord w p = decodePlain w i) := by
  unfold decodeWord
  rw [ho]
  dsimp only
  rw [if_neg (not_not.mpr hr)]
  cases o with
  | csrr | csrw => exact .inl ⟨by decide, by decide, _, fun _ => ⟨rfl, rfl, rfl, rfl⟩, rfl⟩
  | encrypt | decrypt => exact .inr (.inl ⟨by decide, by decide, _, fun _ => ⟨rfl, rfl, rfl, rfl⟩, rfl⟩)
  | _ => exact .inr (.inr ⟨by decide, by decide, _, ⟨rfl, rfl, rfl, rfl⟩, rfl⟩)

/-- A command with a CSR: `sel` must be 0, then `csr` name a CSR. -/
theorem decodeCsr_checks {w : Word32} {make : Csr → Instr} {opc : Byte} {p : Bytes}
    (hm : ∀ c, (make c).HasFields opc 0 (csrNumber c) p) :
    if fieldSel w ≠ 0 then decodeCsr w make = .error .sel
    else if csrOfNumber (fieldCsr w) = none then decodeCsr w make = .error .csr
    else ∃ i, decodeCsr w make = .ok i ∧ i.HasFields opc (fieldSel w) (fieldCsr w) p := by
  unfold decodeCsr
  split_ifs with hsel hcsr
  · rfl
  · rw [hcsr]
  · rw [not_not] at hsel
    obtain ⟨c, hc⟩ := Option.ne_none_iff_exists'.mp hcsr
    exact ⟨make c, by rw [hc], by rw [hsel, (csrOfNumber_eq_some _ c).mp hc]; exact hm c⟩

/-- A command with an engine: `sel` must select one, then `csr` be 0. -/
theorem decodeSel_checks {w : Word32} {make : Engine → Instr} {opc : Byte} {p : Bytes}
    (hm : ∀ e, (make e).HasFields opc (selOfEngine e) 0 p) :
    if engineOfSel (fieldSel w) = none then decodeSel w make = .error .sel
    else if fieldCsr w ≠ 0 then decodeSel w make = .error .reserved
    else ∃ i, decodeSel w make = .ok i ∧ i.HasFields opc (fieldSel w) (fieldCsr w) p := by
  unfold decodeSel
  by_cases hsel : engineOfSel (fieldSel w) = none
  · rw [if_pos hsel, hsel]
  obtain ⟨e, he⟩ := Option.ne_none_iff_exists'.mp hsel
  rw [if_neg hsel, he]
  split_ifs with hcsr
  · rfl
  · rw [not_not] at hcsr
    exact ⟨make e, rfl, by rw [hcsr, (engineOfSel_eq_some _ e).mp he]; exact hm e⟩

/-- A command with neither: `sel` must be 0, then `csr`. -/
theorem decodePlain_checks {w : Word32} {i : Instr} {opc : Byte} {p : Bytes} (hi : i.HasFields opc 0 0 p) :
    if fieldSel w ≠ 0 then decodePlain w i = .error .sel
    else if fieldCsr w ≠ 0 then decodePlain w i = .error .reserved
    else ∃ j, decodePlain w i = .ok j ∧ j.HasFields opc (fieldSel w) (fieldCsr w) p := by
  unfold decodePlain
  split_ifs with hsel hcsr
  · rfl
  · rfl
  · rw [not_not] at hsel hcsr
    exact ⟨i, rfl, by rwa [hsel, hcsr]⟩

/-- Settles O4: the checks of the opcode and of `rsvd`, then those of the kind of the opcode. -/
theorem decodeCheckOrder : Obligations.DecodeCheckOrder := by
  intro w p
  rw [show w.extractLsb' 0 8 = fieldOpcode w from rfl, show w.extractLsb' 8 4 = fieldSel w from rfl,
    show w.extractLsb' 12 8 = fieldRsvd w from rfl, show w.extractLsb' 20 12 = fieldCsr w from rfl]
  simp only [← opcodeOfByte_eq_none, ← engineOfSel_eq_none, ← csrOfNumber_eq_none]
  cases ho : opcodeOfByte (fieldOpcode w) with
  | none =>
    rw [if_pos rfl]
    exact decodeWord_reservedOpcode ho p
  | some o =>
    rw [if_neg (Option.some_ne_none o)]
    by_cases hr : fieldRsvd w = 0
    case neg =>
      rw [if_pos hr]
      exact decodeWord_reservedBits ho hr p
    rw [if_neg (not_not.mpr hr), (opcodeOfByte_eq_some _ _).mp ho]
    simp only [opcodeByte_mem_csrOpcodes, opcodeByte_mem_selOpcodes]
    obtain ⟨hc, hs, make, hm, hd⟩ | ⟨hc, hs, make, hm, hd⟩ | ⟨hc, hs, i, hi, hd⟩ := decodeWord_cases ho hr p
    · simpa [hd, hc, hs, Instr.HasFields] using decodeCsr_checks hm
    · simpa [hd, hc, hs, Instr.HasFields] using decodeSel_checks hm
    · simpa [hd, hc, hs, Instr.HasFields] using decodePlain_checks hi

end Sys2Proof
end

section
/-! PROOF. The family of 30_encoding.md, the machine: when a command ends with LENGTH_ERROR, what its status word says, and
what the pseudo-commands of the assembler stand for. -/

namespace Sys2Proof.Machine

/-! ## LENGTH_ERROR (30_encoding.md R160) -/

/-- One more response waits in `t` than in `s`, and it is not LENGTH_ERROR. -/
def AddsOtherThanLengthError (s t : State) : Prop :=
  ∃ (st : Status) (cause : Byte) (out : Bytes), st ≠ .lengthError ∧ t.rspOut = s.rspOut ++ [⟨statusWord st cause, out⟩]

/-- The EngineFault of RequireContext is not LENGTH_ERROR. -/
theorem addsOther_of_context_cases {s t : State} {opc : Byte} {P : Context → Prop}
    (h : (s.state = .uninit ∧ t = s.faultedBy 1 1 opc) ∨ (s.state = .disposed ∧ t = s.faultedBy 1 2 opc) ∨
      (s.state = .ready ∧ ∃ k : Context, s.context = some k ∧ P k))
    (hP : ∀ k, P k → AddsOtherThanLengthError s t) : AddsOtherThanLengthError s t := by
  obtain ⟨-, rfl⟩ | ⟨-, rfl⟩ | ⟨-, k, -, hk⟩ := h
  · exact ⟨.engineFault, 1, _, by decide, rfl⟩
  · exact ⟨.engineFault, 2, _, by decide, rfl⟩
  · exact hP k hk

/-- Past the gate and the length check no command ends with LENGTH_ERROR. -/
theorem exec_addsOther {i : Instr} {s t : State} (hg : ¬ gated i s) (hl : lengthAdmitted i) (h : exec i s = .next t) :
    AddsOtherThanLengthError s t := by
  obtain ⟨hg', -⟩ | ⟨-, hl', -⟩ | ⟨-, -, h⟩ := exec_next h
  · exact absurd hg' hg
  · exact absurd hl hl'
  cases i with
  | nop p | init p | dispose p | csrr c p | deflate p =>
    obtain rfl : t = _ := h
    exact ⟨.ok, 0, _, by decide, rfl⟩
  | csrw c p =>
    obtain ⟨-, rfl⟩ | ⟨-, -, rfl⟩ | ⟨-, -, rfl⟩ := h
    · exact ⟨.illegalCommand, 5, _, by decide, rfl⟩
    · exact ⟨.illegalCommand, 6, _, by decide, rfl⟩
    · exact ⟨.ok, 0, _, by decide, rfl⟩
  | tag p | encode p =>
    refine addsOther_of_context_cases h ?_
    rintro k rfl
    exact ⟨.ok, 0, _, by decide, rfl⟩
  | encrypt e p | decrypt e p =>
    refine addsOther_of_context_cases h ?_
    rintro k rfl
    exact ⟨.ok, 0, _, by decide, congrArg (· ++ _) (State.setSr_rspOut ..)⟩
  | inflate p =>
    obtain ⟨e, -, rfl⟩ | ⟨q, -, rfl⟩ := h
    · exact ⟨.decodeFault, decodeCode e, _, by decide, rfl⟩
    · exact ⟨.ok, 0, _, by decide, rfl⟩
  | decode p =>
    refine addsOther_of_context_cases h ?_
    rintro k (⟨-, rfl⟩ | ⟨-, c, u, -, -, ⟨-, rfl⟩ | ⟨-, ⟨e, -, rfl⟩ | ⟨q, -, rfl⟩⟩⟩)
    · exact ⟨.integrityFault, 2, _, by decide, rfl⟩
    · exact ⟨.integrityFault, 1, _, by decide, rfl⟩
    · exact ⟨.decodeFault, decodeCode e, _, by decide, rfl⟩
    · exact ⟨.ok, 0, _, by decide, rfl⟩

theorem statusCode_eq_ok (st : Status) : statusCode st = 0x00 ↔ st = .ok := by
  cases st <;> decide

theorem statusCode_eq_lengthError (st : Status) : statusCode st = 0x11 ↔ st = .lengthError := by
  cases st <;> decide

/-- LENGTH_ERROR is the answer to a length that is not admitted, past the gate, and to nothing else. -/
theorem not_admitted_of_lengthError {i : Instr} {s t : State} {r : Response} (h : exec i s = .next t)
    (hr : t.rspOut = s.rspOut ++ [r]) (hst : r.status = 0x11) : ¬ gated i s ∧ ¬ lengthAdmitted i := by
  by_cases hg : gated i s
  · rw [exec_gated hg] at h
    obtain rfl := Host.Outcome.next.inj h
    obtain rfl : _ = r := by simpa [State.answer] using hr
    exact absurd (hst.symm.trans (Response.status_statusWord .rejected s.faultKind [])) (by decide)
  refine ⟨hg, fun hl => ?_⟩
  obtain ⟨st, cause, out, hne, ht⟩ := exec_addsOther hg hl h
  obtain rfl : _ = r := by simpa using ht.symm.trans hr
  rw [Response.status_statusWord, statusCode_eq_lengthError] at hst
  exact hne hst

/-- Settles O16: the length check answers so, and no other end of a command does. -/
theorem lengthCheck : Obligations.LengthCheck := by
  refine fun i s => ⟨exec_badLength, fun hok t r h hr hst => ?_⟩
  obtain ⟨hg, hl⟩ := not_admitted_of_lengthError h hr hst
  exact hok.elim hg hl

/-! ## The status word (30_encoding.md R155) -/

theorem cause_of_lengthError {i : Instr} {s t : State} {r : Response} (h : exec i s = .next t)
    (hr : t.rspOut = s.rspOut ++ [r]) (hst : r.status = 0x11) : r.cause = 0 := by
  obtain ⟨hg, hl⟩ := not_admitted_of_lengthError h hr hst
  rw [exec_badLength hg hl] at h
  obtain rfl := Host.Outcome.next.inj h
  obtain rfl : _ = r := by simpa [State.answer] using hr
  rfl

/-- However a command ends, a status word heads its response, and OK comes with no cause. -/
theorem Ends.exists_statusWord {i : Instr} {s t : State} {r : Response} (h : Ends i s t r) :
    ∃ st cause out, r = ⟨statusWord st cause, out⟩ ∧ (st = .ok → cause = 0) := by
  cases h with
  | refused st cause hst => exact ⟨st, cause, _, rfl, by rintro rfl; simp at hst⟩
  | faulted kind cause hi => exact ⟨_, cause, _, rfl, by cases kind <;> simp [faultStatus]⟩
  | ok u out hu => exact ⟨.ok, 0, _, rfl, fun _ => rfl⟩

/-- Settles O8: the fields of `statusWord`, and the causes that come with OK and LENGTH_ERROR. -/
theorem statusWordFormat : Obligations.StatusWordFormat := by
  refine ⟨fun st cause => ⟨statusWord_status st cause, statusWord_cause st cause, statusWord_high st cause⟩,
    ⟨rfl, rfl, rfl, rfl, rfl, rfl, rfl⟩, State.respond_rspOut, fun i s t r h hr => ?_⟩
  obtain ⟨st, cause, out, rfl, hok⟩ := (exec_ends_with h hr).exists_statusWord
  refine ⟨statusWord_high st cause, ?_⟩
  rintro (hst | hst)
  · rw [Response.status_statusWord, statusCode_eq_ok] at hst
    rw [Response.cause_statusWord, hok hst]
  · exact cause_of_lengthError h hr hst

/-! ## The pseudo-commands (30_encoding.md R164) -/

/-- INIT.SAME is INIT with its one IV for both directions. -/
theorem asmCommand_initSame (k a : Bytes) :
    asmCommand .initSame [.data k, .comma, .data a] =
      asmCommand (.plain .init) [.data k, .comma, .data a, .comma, .data a] := by
  simp only [asmCommand, and_self]

theorem asmCsr_compLevel : asmCsr "COMP_LEVEL".toList = some (csrNumber .compLevel) := by decide

/-- SETLEVEL is CSRW of COMP_LEVEL. -/
theorem asmCommand_setLevel (n : List Char) :
    asmCommand .setLevel [.word n] = asmCommand (.plain .csrw) [.word "COMP_LEVEL".toList, .comma, .word n] := by
  simp only [asmCommand, asmCsr_compLevel]
  cases asmInt (2 ^ 64) n <;> rfl

theorem asmCsr_asmCsrName (c : Csr) : asmCsr (asmCsrName c) = some (csrNumber c) := by
  cases c <;> decide

/-- RDSTATE, RDFAULT, RDCTR.S and RDCTR.R are CSRR of their CSR. -/
theorem asmCommand_read (c : Csr) :
    asmCommand (.read c) [] = asmCommand (.plain .csrr) [.word (asmCsrName c)] := by
  simp only [asmCommand, asmCsr_asmCsrName, Option.map_some]

/-- A line that is a reading pseudo-command alone is the line of its CSRR. -/
theorem asmLine_read (c : Csr) {pseudo full : List Char} (hp : asmTokens pseudo.length pseudo = some [.word pseudo])
    (hop : asmOp pseudo = some (.read c))
    (hf : asmTokens full.length full = some [.word "CSRR".toList, .word (asmCsrName c)]) :
    asmLine pseudo = asmLine full := by
  have hcsrr : asmOp "CSRR".toList = some (.plain .csrr) := by decide
  simp only [asmLine, hp, hop, hf, hcsrr, asmCommand_read]

/-- Settles O6: row by row, the operands of INIT.SAME and SETLEVEL at large. -/
theorem assemblerPseudoCommands : Obligations.AssemblerPseudoCommands := by
  refine ⟨fun k a => ⟨by decide, by decide, asmCommand_initSame k a⟩,
    fun n => ⟨by decide, by decide, asmCommand_setLevel n⟩, ?rdstate, ?rdfault, ?rdctrS, ?rdctrR, by decide⟩
  case rdstate => exact asmLine_read .state (by decide) (by decide) (by decide)
  case rdfault => exact asmLine_read .fault (by decide) (by decide) (by decide)
  case rdctrS => exact asmLine_read .sendCtr (by decide) (by decide) (by decide)
  case rdctrR => exact asmLine_read .recvCtr (by decide) (by decide) (by decide)

end Sys2Proof.Machine
end

section
/-! PROOF. The family of 40_context.md: RequireContext comes first in Perform of each command that uses the context. -/

namespace Sys2Proof.Machine

/-- A command that uses the context is the command cycle around RequireContext and what it does with the context. -/
theorem exec_eq_contextCycle {i : Instr} (hi : usesContext i) : ∃ perform : State → Context → Result,
    ∀ s, exec i s = commandCycle i (fun s => requireContext (instrOpcode i) s (perform s)) s := by
  cases i with
  | tag p | encrypt e p | decrypt e p | encode p | decode p => exact ⟨_, fun _ => rfl⟩
  | _ => simp [usesContext, instrOpcode] at hi

/-- Outside FAULTED an admitted length brings the command to RequireContext with the state untouched, so an EngineFault
raised there, whatever the rest of Perform is, ends the command. -/
theorem exec_of_requireContext_raise {i : Instr} {s : State} {cause : Byte} (hi : usesContext i)
    (hl : lengthAdmitted i) (hs : s.state ≠ .faulted)
    (hr : ∀ perform, requireContext (instrOpcode i) s perform = .next (s.raise .engine cause (instrOpcode i))) :
    exec i s = .next (s.faultedBy 1 cause (opcodeByte (instrOpcode i))) := by
  obtain ⟨perform, hp⟩ := exec_eq_contextCycle hi
  calc exec i s = bumpResult (requireContext (instrOpcode i) s (perform s)) := by
        rw [hp, commandCycle_perform (.inl hs) ((admitsLength_iff i).mpr hl)]
    _ = .next (s.faultedBy 1 cause (opcodeByte (instrOpcode i))) := by
        rw [hr, bumpResult_next, raise_bumpSeq]
        rfl

/-- Settles O22: in UNINIT and in DISPOSED RequireContext raises before it hands over to the rest of the command. -/
theorem engineFaultWithoutContext : Obligations.EngineFaultWithoutContext := by
  refine fun i s hi hl => ⟨fun hs => ?uninit, fun hs => ?disposed⟩
  case uninit => exact exec_of_requireContext_raise hi hl (by simp [hs]) fun _ => requireContext_uninit hs
  case disposed => exact exec_of_requireContext_raise hi hl (by simp [hs]) fun _ => requireContext_disposed hs

end Sys2Proof.Machine
end

section
/-! PROOF. The family of 41_checksum.md: the padding of SHA-256 and the blocks the padded message is cut into. -/

namespace Sys2Proof.Machine

/-! ## The padding (41_checksum.md R251) -/

/-- The two words of a 64-bit length are the number's own, modulo 2^32 each. -/
theorem extractLsb'_ofNat_words (n : Nat) :
    (BitVec.ofNat 64 n).extractLsb' 32 32 = BitVec.ofNat 32 (n / 2 ^ 32) ∧
    (BitVec.ofNat 64 n).extractLsb' 0 32 = BitVec.ofNat 32 n := by
  constructor
  all_goals
    apply BitVec.eq_of_toNat_eq
    simp only [BitVec.extractLsb'_toNat, BitVec.toNat_ofNat, Nat.shiftRight_eq_div_pow]
    omega

/-- `shaPad` with its bit length written as two words computed on naturals. -/
theorem shaPad_eq (m : Bytes) :
    shaPad m = m ++ [0x80] ++ List.replicate (shaPadZeros m.length) 0x00 ++
      be32 (BitVec.ofNat 32 (8 * m.length / 2 ^ 32)) ++ be32 (BitVec.ofNat 32 (8 * m.length)) := by
  obtain ⟨hhigh, hlow⟩ := extractLsb'_ofNat_words (8 * m.length)
  rw [shaPad, hhigh, hlow]

/-- The zero bytes leave 8 bytes of the last block. -/
theorem shaPadZeros_spec (n : Nat) : (n + 1 + shaPadZeros n) % 64 = 56 := by
  unfold shaPadZeros
  omega

/-- No smaller number of zero bytes leaves 8 bytes of a block. -/
theorem shaPadZeros_least {n j : Nat} (h : j < shaPadZeros n) : (n + 1 + j) % 64 ≠ 56 := by
  unfold shaPadZeros at h
  omega

/-! ## The blocks and their words (41_checksum.md R251) -/

theorem shaPad_length_eq_blocks (m : Bytes) : (shaPad m).length = 64 * ((shaPad m).length / 64) :=
  (Nat.mul_div_cancel' (Nat.dvd_of_mod_eq_zero (shaPad_length_mod m))).symm

/-- A whole number of blocks is cut without rest. -/
theorem shaChunks_flatten {n : Nat} {p : Bytes} (h : p.length = 64 * n) : (shaChunks n p).flatten = p := by
  induction n generalizing p with
  | zero => exact (List.length_eq_zero_iff.mp h).symm
  | succ n ih =>
    have hrest : (p.drop 64).length = 64 * n := by rw [List.length_drop]; omega
    rw [shaChunks, List.flatten_cons, ih hrest, List.take_append_drop]

/-- Each piece of a whole number of blocks is a full block. -/
theorem length_of_mem_shaChunks {n : Nat} {p b : Bytes} (h : p.length = 64 * n) (hb : b ∈ shaChunks n p) :
    b.length = 64 := by
  induction n generalizing p with
  | zero => simp [shaChunks] at hb
  | succ n ih =>
    rw [shaChunks] at hb
    cases hb with
    | head => rw [List.length_take]; omega
    | tail _ hb => exact ih (by rw [List.length_drop]; omega) hb

/-- Word `t` of a block is read big-endian from its bytes 4t to 4t+3. -/
theorem shaBlockWords_getElem? (b : Bytes) {t : Nat} (ht : t < 16) :
    (shaBlockWords b)[t]? =
      some (b.getD (4 * t) 0 ++ b.getD (4 * t + 1) 0 ++ b.getD (4 * t + 2) 0 ++ b.getD (4 * t + 3) 0) := by
  have hword : (shaBlockWords b)[t]? = some (fromBE32 (b.drop (4 * t))) := by simp [shaBlockWords, ht]
  simp only [hword, fromBE32, List.getD_eq_getElem?_getD, List.getElem?_drop, Nat.add_zero]

/-- Settles O42: the padding, the blocks and the words of a block, each by its lemma above. -/
theorem shaPadding : Obligations.ShaPadding := by
  refine ⟨fun m _ => ⟨shaPadZeros m.length, ?pad, ?spec, ?least⟩, fun m => ⟨?flatten, ?full⟩, ?words⟩
  case pad => exact shaPad_eq m
  case spec => exact shaPadZeros_spec m.length
  case least => exact fun _ => shaPadZeros_least
  case flatten => exact shaChunks_flatten (shaPad_length_eq_blocks m)
  case full => exact fun _ => length_of_mem_shaChunks (shaPad_length_eq_blocks m)
  case words => exact fun b _ => shaBlockWords_getElem? b

end Sys2Proof.Machine
end

section
/-! PROOF. The cipher (42_cipher.md R301, R312 to R314): deciphering against enciphering, chunks, the register after 16
bytes, and the S-box as the affine map of the inverse. -/

namespace Sys2Proof.Machine

/-! ## Deciphering undoes enciphering (42_cipher.md R312) -/

/-- Both engines shift the same ciphertext byte in, so they share every keystream byte and the final register. -/
theorem dec_enc (k : Secret) (sr : Block) (p : Bytes) : dec k sr (enc k sr p).1 = (p, (enc k sr p).2) := by
  induction p generalizing sr with
  | nil => rfl
  | cons b p ih =>
    have hbyte : b ^^^ keystreamByte k sr ^^^ keystreamByte k sr = b := by
      rw [BitVec.xor_assoc, BitVec.xor_self, BitVec.xor_zero]
    rw [enc_cons, dec_cons, ih, hbyte]

/-- Settles O44: `dec_enc`, and DecByte at the first byte. -/
theorem decipherUndoesEncipher : Obligations.DecipherUndoesEncipher := by
  refine ⟨fun k sr p => ?inverse, fun k sr c cs => ⟨?bytes, ?register, ?shift⟩⟩
  case inverse => simp [dec_enc]
  case bytes => rfl
  case register => rfl
  case shift => exact shiftIn_toList sr c

/-! ## Chunks (42_cipher.md R313) -/

/-- The engine goes on after `a` from the register it left there. -/
theorem enc_append (k : Secret) (sr : Block) (a b : Bytes) :
    enc k sr (a ++ b) = ((enc k sr a).1 ++ (enc k (enc k sr a).2 b).1, (enc k (enc k sr a).2 b).2) := by
  induction a generalizing sr with
  | nil => rfl
  | cons p a ih => simp [enc_cons, ih]

/-- The deciphering engine goes on after `a` from the register it left there. -/
theorem dec_append (k : Secret) (sr : Block) (a b : Bytes) :
    dec k sr (a ++ b) = ((dec k sr a).1 ++ (dec k (dec k sr a).2 b).1, (dec k (dec k sr a).2 b).2) := by
  induction a generalizing sr with
  | nil => rfl
  | cons c a ih => simp [dec_cons, ih]

/-- Settles O45: `enc_append` and `dec_append`, bytes and register. -/
theorem chunkIndependence : Obligations.ChunkIndependence := by
  intro k sr a b
  rw [enc_append, dec_append]
  exact ⟨rfl, rfl, rfl, rfl⟩

/-! ## The register after 16 bytes (42_cipher.md R314) -/

/-- The register is a window over the old register followed by the ciphertext. -/
theorem dec_register_toList (k : Secret) (sr : Block) (c : Bytes) :
    (dec k sr c).2.toList = (sr.toList ++ c).drop c.length := by
  induction c generalizing sr with
  | nil => simp
  | cons b c ih =>
    have hwindow : sr.toList.drop 1 ++ b :: c = (sr.toList ++ b :: c).drop 1 :=
      (List.drop_append_of_le_length (by simp)).symm
    calc (dec k sr (b :: c)).2.toList
        = (sr.toList.drop 1 ++ b :: c).drop c.length := by simp [dec_cons, ih]
      _ = (sr.toList ++ b :: c).drop (b :: c).length := by
        rw [hwindow, List.drop_drop, List.length_cons, Nat.add_comm]

/-- After 16 bytes nothing of the old register is left in the window. -/
theorem dec_register_of_long (k : Secret) (sr : Block) {c : Bytes} (h : 16 ≤ c.length) :
    (dec k sr c).2.toList = c.drop (c.length - 16) := by
  rw [dec_register_toList, List.drop_append, Vector.length_toList,
    List.drop_eq_nil_of_le (by rwa [Vector.length_toList]), List.nil_append]

/-- The enciphering engine leaves the register its ciphertext leaves on deciphering. -/
theorem enc_register_of_long (k : Secret) (sr : Block) {p : Bytes} (h : 16 ≤ p.length) :
    (enc k sr p).2.toList = (enc k sr p).1.drop (p.length - 16) := by
  have hlong : 16 ≤ (enc k sr p).1.length := by rwa [enc_length]
  simpa [dec_enc] using dec_register_of_long k sr hlong

/-- Two engines fed the same 16 bytes or more hold the same register. -/
theorem dec_register_eq_of_long (k : Secret) (sr sr' : Block) {c : Bytes} (h : 16 ≤ c.length) :
    (dec k sr c).2 = (dec k sr' c).2 :=
  Vector.toList_inj.mp ((dec_register_of_long k sr h).trans (dec_register_of_long k sr' h).symm)

/-- Settles O46: the window of the register, for one engine of each direction and for two engines. -/
theorem selfSynchronization : Obligations.SelfSynchronization := by
  refine ⟨fun k sr _ => enc_register_of_long k sr, fun k sr _ => dec_register_of_long k sr, ?decDec, ?encDec⟩
  case decDec =>
    intro k sr sr' c d h
    rw [dec_register_eq_of_long k sr sr' h]
  case encDec =>
    intro k sr sr' p d h
    have hlong : 16 ≤ (enc k sr p).1.length := by rwa [enc_length]
    rw [dec_register_eq_of_long k sr' sr hlong, dec_enc]

/-! ## The S-box (42_cipher.md R301) -/

/-- The inverse of the affine map A: the rotations by 1, 3 and 6 undo its five, and 0x05 undoes its 0x63. -/
def sboxAffineInv (b : Byte) : Byte := b.rotateLeft 1 ^^^ b.rotateLeft 3 ^^^ b.rotateLeft 6 ^^^ 0x05

theorem sboxAffine_sboxAffineInv : ∀ b : Byte, sboxAffine (sboxAffineInv b) = b := by decide +kernel

/-- The inverse in GF(2^8), read back from the table through the affine map. -/
def gfInv (a : Byte) : Byte := sboxAffineInv (sbox a)

theorem gfInv_zero : gfInv 0 = 0 := by decide +kernel

/-- One product for each entry of the table: what is read back is the inverse. -/
theorem gfMul_gfInv : ∀ a : Byte, a ≠ 0 → gfMul a (gfInv a) = 1 := by decide +kernel

theorem sbox_eq_sboxAffine_gfInv (a : Byte) : sbox a = sboxAffine (gfInv a) :=
  (sboxAffine_sboxAffineInv (sbox a)).symm

/-- Settles O43: the inverse is read back from the table, so what remains of the claim is that it is the inverse. -/
theorem sboxIsAffineInverse : Obligations.SboxIsAffineInverse :=
  ⟨gfInv, gfInv_zero, gfMul_gfInv, sbox_eq_sboxAffine_gfInv⟩

end Sys2Proof.Machine
end

section
/-! PROOF. The family of 43_compression.md: Deflate0 and its length, what the inflater makes of stored blocks, the round
trip and the marker at every level, and the fixed codes. -/

namespace Sys2Proof.Machine

/-! ## Deflate0 (43_compression.md R371) -/

/-- The turns of Deflate0's loop beyond the length of the plaintext are not used. -/
theorem storedChunks_of_length_le {fuel : Nat} {p : Bytes} (h : p.length ≤ fuel) :
    storedChunks fuel p = storedChunks p.length p := by
  induction hn : p.length using Nat.strongRecOn generalizing fuel p with
  | ind n ih =>
    subst hn
    cases p with
    | nil => cases fuel <;> rfl
    | cons b p =>
      obtain ⟨fuel, rfl⟩ : ∃ m, fuel = m + 1 := ⟨fuel - 1, by simp at h; omega⟩
      have hrest : ((b :: p).drop Config.storedMax).length ≤ p.length := by
        simp [Config.storedMax]
      have hless : ((b :: p).drop Config.storedMax).length < (b :: p).length := Nat.lt_succ_of_le hrest
      have hfuel : p.length ≤ fuel := by simpa using h
      rw [List.length_cons, storedChunks, storedChunks, ih _ hless hrest rfl, ih _ hless (hrest.trans hfuel) rfl]

/-- Deflate0 takes one stored block off the front and goes on with the rest. -/
theorem deflate0_of_ne_nil {p : Bytes} (hp : p ≠ []) :
    deflate0 p = storedChunk (p.take Config.storedMax) ++ deflate0 (p.drop Config.storedMax) := by
  obtain ⟨n, hn⟩ : ∃ n, p.length = n + 1 := Nat.exists_eq_add_one.mpr (List.length_pos_iff.mpr hp)
  have hrest : (p.drop Config.storedMax).length ≤ n := by
    rw [List.length_drop, hn, Config.storedMax]; omega
  rw [deflate0, hn, storedChunks, if_neg hp, storedChunks_of_length_le hrest, List.append_assoc, deflate0]

@[simp] theorem deflate0_nil : deflate0 [] = Config.syncMarker := rfl

/-- The marker is the stored block of no bytes. -/
theorem syncMarker_eq_storedChunk : Config.syncMarker = storedChunk [] := by decide

@[simp] theorem storedChunk_length (ch : Bytes) : (storedChunk ch).length = 5 + ch.length := by
  simp [storedChunk]; omega

/-- Induction along the stored blocks of Deflate0: the empty plaintext, and one block before the rest. -/
theorem storedChunk_induction {motive : Bytes → Prop} (nil : motive [])
    (block : ∀ p, p ≠ [] → motive (p.drop Config.storedMax) → motive p) (p : Bytes) : motive p := by
  induction hn : p.length using Nat.strongRecOn generalizing p with
  | ind n ih =>
    by_cases hp : p = []
    · exact hp ▸ nil
    · have hpos := List.length_pos_iff.mpr hp
      refine block p hp (ih _ ?_ _ rfl)
      rw [← hn, List.length_drop, Config.storedMax]
      omega

/-- The length of Deflate0's output is exactly STORED_BOUND: five bytes for each block and for the marker. -/
theorem deflate0_length (p : Bytes) : (deflate0 p).length = storedBound p.length := by
  induction p using storedChunk_induction with
  | nil => rfl
  | block p hp ih =>
    have hpos := List.length_pos_iff.mpr hp
    rw [deflate0_of_ne_nil hp, List.length_append, storedChunk_length, ih, List.length_take, List.length_drop]
    unfold storedBound Config.storedMax
    omega

/-- Settles O48: the empty case, the first block, and the length by induction along the blocks. -/
theorem level0Form : Obligations.Level0Form := by
  refine ⟨?empty, fun p hp => ?block, fun p => ?length⟩
  case empty => exact deflate0_nil
  case block => rw [deflate0_of_ne_nil hp, storedChunk, List.length_take, Nat.min_comm]; rfl
  case length => rw [deflate0_length, storedBound, Nat.add_comm 65534]

/-! ## Reading a stored block that starts on a byte boundary (43_compression.md R350, R352) -/

/-- A bit of a zero byte is 0. -/
theorem readBit_of_zero_byte {inp : Bytes} {pos : Nat} (h : inp[pos / 8]? = some 0x00) :
    readBit inp pos = .ok (0, pos + 1) := by
  simp [readBit, h]

/-- Bits read within a zero byte are 0. -/
theorem readBits_of_zero_byte {inp : Bytes} {n k pos : Nat} (h : inp[n]? = some 0x00) (hlow : 8 * n ≤ pos)
    (hhigh : pos + k ≤ 8 * n + 8) : readBits inp k pos = .ok (0, pos + k) := by
  induction k generalizing pos with
  | zero => rfl
  | succ k ih =>
    have hbyte : pos / 8 = n := by omega
    rw [readBits, readBit_of_zero_byte (hbyte ▸ h)]
    simp only [ih (pos := pos + 1) (by omega) (by omega)]
    rw [Nat.add_right_comm, Nat.add_assoc]

/-- The three header bits end in the first byte, and LEN starts at the next. -/
theorem alignPos_header (n : Nat) : alignPos (8 * n + 3) = 8 * (n + 1) := by
  unfold alignPos
  omega

/-- A 16-bit number is read back from its two bytes. -/
theorem fromLE_leBytes_two {v : Nat} (h : v < 2 ^ 16) : fromLE (leBytes 2 v) = v := by
  rw [fromLE_leBytes]
  exact Nat.mod_eq_of_lt h

/-- The two length fields of a stored block, and its bytes. -/
def storedBody (ch : Bytes) : Bytes := leBytes 2 ch.length ++ (leBytes 2 (ch.length ^^^ 0xFFFF) ++ ch)

theorem storedChunk_eq_cons (ch : Bytes) : storedChunk ch = 0x00 :: storedBody ch := by
  simp [storedChunk, storedBody]

/-- A stored block with the length fields that Deflate0 writes gives its bytes, and ends after them. -/
theorem storedBlock_storedBody {inp ch rest out : Bytes} {pos : Nat}
    (hinp : inp.drop (alignPos pos / 8) = storedBody ch ++ rest) (hch : ch.length ≤ Config.storedMax)
    (hout : out.length + ch.length ≤ Config.maxPlainLen) :
    storedBlock inp pos out = .ok (ch.length, alignPos pos + 32 + 8 * ch.length, out ++ ch) := by
  have hlen : ch.length < 2 ^ 16 := Nat.lt_succ_of_le hch
  have hnlen : ch.length ^^^ 0xFFFF < 2 ^ 16 := Nat.xor_lt_two_pow hlen (by decide)
  have halign : alignPos pos = 8 * (alignPos pos / 8) := by unfold alignPos; omega
  generalize alignPos pos / 8 = start at hinp halign
  have hsize : inp.length - start = 4 + ch.length + rest.length := by
    rw [← List.length_drop, hinp, storedBody]
    simp only [List.length_append, leBytes_length]
    omega
  have hLen : (inp.drop start).take 2 = leBytes 2 ch.length := by
    rw [hinp, storedBody, List.append_assoc, List.take_left' (leBytes_length _ _)]
  have hafter : inp.drop (start + 2) = leBytes 2 (ch.length ^^^ 0xFFFF) ++ (ch ++ rest) := by
    rw [← List.drop_drop, hinp, storedBody, List.append_assoc, List.drop_left' (leBytes_length _ _), List.append_assoc]
  have hNlen : (inp.drop (start + 2)).take 2 = leBytes 2 (ch.length ^^^ 0xFFFF) := by
    rw [hafter, List.take_left' (leBytes_length _ _)]
  have hbytes : (inp.drop (start + 4)).take ch.length = ch := by
    rw [show start + 4 = start + 2 + 2 from rfl, ← List.drop_drop, hafter, List.drop_left' (leBytes_length _ _),
      List.take_left]
  have hstart : 8 * start / 8 = start := by omega
  have hbody : (8 * start + 32) / 8 = start + 4 := by omega
  unfold storedBlock
  simp only [halign, hstart, hbody, hLen, hNlen, hbytes, fromLE_leBytes_two hlen, fromLE_leBytes_two hnlen]
  rw [if_neg (by omega), if_neg (by simp), if_neg (by omega), if_neg (by simpa [fitsPlain_iff] using hout)]

/-- What one turn of Inflate's loop makes of a block of Deflate0: it ends C, or the loop goes on behind it. -/
theorem inflateFrom_storedChunk {pre ch rest out : Bytes} {fuel : Nat} {blocks : List BlockInfo}
    (hch : ch.length ≤ Config.storedMax) (hout : out.length + ch.length ≤ Config.maxPlainLen) :
    inflateFrom (pre ++ storedChunk ch ++ rest) (fuel + 1) (8 * pre.length) blocks out =
      if rest = [] then .ok (blocks ++ [⟨false, .stored ch.length, 8 * pre.length⟩], out ++ ch)
      else inflateFrom (pre ++ storedChunk ch ++ rest) fuel (8 * (pre ++ storedChunk ch).length)
        (blocks ++ [⟨false, .stored ch.length, 8 * pre.length⟩]) (out ++ ch) := by
  have hsize : (pre ++ storedChunk ch ++ rest).length = (pre ++ storedChunk ch).length + rest.length :=
    List.length_append
  have hend : alignPos (8 * pre.length + 3) + 32 + 8 * ch.length = 8 * (pre ++ storedChunk ch).length := by
    rw [alignPos_header, List.length_append, storedChunk_length]; omega
  have hlast : (8 * (pre ++ storedChunk ch).length + 7) / 8 = (pre ++ storedChunk ch).length := by omega
  have hzero : (pre ++ storedChunk ch ++ rest)[pre.length]? = some 0x00 := by simp [storedChunk_eq_cons]
  have hbody : (pre ++ storedChunk ch ++ rest).drop (alignPos (8 * pre.length + 3) / 8) = storedBody ch ++ rest := by
    rw [alignPos_header, Nat.mul_div_cancel_left _ (by decide)]
    simp [storedChunk_eq_cons, List.drop_append]
  generalize pre ++ storedChunk ch ++ rest = inp at hsize hzero hbody ⊢
  rw [inflateFrom, readBits_of_zero_byte hzero (by omega) (by omega)]
  simp only [readBits_of_zero_byte hzero (Nat.le_add_right _ 1) (k := 2) (by omega), blockBody, if_true,
    storedBlock_storedBody hbody hch hout, hend, bind, Except.bind, hlast, hsize]
  simp

/-- What 43_compression.md R372 asks of the blocks of a stream: none final, the last one the marker of R370. -/
def EndsWithMarker (inp : Bytes) (blocks : List BlockInfo) : Prop :=
  (∀ b ∈ blocks, b.final = false) ∧ ∃ b, blocks.getLast? = some b ∧ isSyncBlock inp b = true

/-- The check of the compressor, with `EndsWithMarker`. -/
theorem admissible_iff_endsWithMarker {p c : Bytes} :
    admissible p c = true ↔
      ∃ blocks, inflateBlocks c = .ok (blocks, p) ∧ EndsWithMarker c blocks ∧ c.length ≤ storedBound p.length := by
  simp only [admissible_iff, EndsWithMarker, and_assoc]

/-- Inflate's loop at the start of Deflate0's output appends the plaintext, in any number of turns above its length. -/
theorem inflateFrom_deflate0 (p : Bytes) {pre out : Bytes} {fuel : Nat} {blocks : List BlockInfo}
    (hfuel : p.length < fuel) (hout : out.length + p.length ≤ Config.maxPlainLen)
    (hblocks : ∀ b ∈ blocks, b.final = false) :
    ∃ blocks', inflateFrom (pre ++ deflate0 p) fuel (8 * pre.length) blocks out = .ok (blocks', out ++ p) ∧
      EndsWithMarker (pre ++ deflate0 p) blocks' := by
  induction p using storedChunk_induction generalizing pre out fuel blocks with
  | nil =>
    obtain ⟨fuel, rfl⟩ := Nat.exists_eq_add_one.mpr (Nat.zero_lt_of_lt hfuel)
    have hread := inflateFrom_storedChunk (pre := pre) (ch := []) (rest := []) (fuel := fuel) (blocks := blocks)
      (Nat.zero_le _) hout
    rw [if_pos rfl, List.append_nil, ← syncMarker_eq_storedChunk] at hread
    refine ⟨_, hread, ?_, _, List.getLast?_concat, isSyncBlock_iff.mpr ⟨rfl, rfl, fun _ => ⟨pre, rfl, rfl⟩⟩⟩
    simpa [or_imp, forall_and] using hblocks
  | block p hp ih =>
    obtain ⟨fuel, rfl⟩ := Nat.exists_eq_add_one.mpr (Nat.zero_lt_of_lt hfuel)
    have hpos := List.length_pos_iff.mpr hp
    have hsplit : (p.take Config.storedMax).length + (p.drop Config.storedMax).length = p.length := by
      rw [← List.length_append, List.take_append_drop]
    have hless : (p.drop Config.storedMax).length < p.length := by
      rw [List.length_drop, Config.storedMax]; omega
    have hrest : deflate0 (p.drop Config.storedMax) ≠ [] := by
      rw [← List.length_pos_iff, deflate0_length]; exact Nat.succ_pos _
    have hread := inflateFrom_storedChunk (pre := pre) (ch := p.take Config.storedMax)
      (rest := deflate0 (p.drop Config.storedMax)) (out := out) (fuel := fuel) (blocks := blocks)
      (List.length_take_le _ _) (by omega)
    rw [if_neg hrest] at hread
    rw [deflate0_of_ne_nil hp, ← List.append_assoc, hread]
    have hnext := ih (pre := pre ++ storedChunk (p.take Config.storedMax)) (out := out ++ p.take Config.storedMax)
      (fuel := fuel) (blocks := blocks ++ [⟨false, .stored (p.take Config.storedMax).length, 8 * pre.length⟩])
      (by omega) (by rw [List.length_append]; omega) (by simpa [or_imp, forall_and] using hblocks)
    rwa [List.append_assoc out, List.take_append_drop] at hnext

/-- Deflate0 has the properties (a) to (d) of 43_compression.md R372 itself. -/
theorem admissible_deflate0 {p : Bytes} (hp : p.length ≤ Config.maxPlainLen) : admissible p (deflate0 p) = true := by
  have hlen : (deflate0 p).length = storedBound p.length := deflate0_length p
  have hfuel : p.length < 8 * (deflate0 p).length + 1 := by rw [hlen, storedBound]; omega
  obtain ⟨blocks, hread, hmarker⟩ :=
    inflateFrom_deflate0 p (pre := []) (out := []) (blocks := []) hfuel (by simpa using hp) (by simp)
  exact admissible_iff_endsWithMarker.mpr ⟨blocks, hread, hmarker, hlen.le⟩

/-! ## Every level (43_compression.md R372, R383) -/

/-- Whatever the level, DEFLATE's output passes the check of R372. -/
theorem admissible_deflateLevel (l : BitVec 4) {p : Bytes} (hp : p.length ≤ Config.maxPlainLen) :
    admissible p (deflateLevel l p) = true := by
  unfold deflateLevel
  split
  · exact admissible_deflate0 hp
  · obtain ⟨hadm, heq⟩ | heq := deflateOpen_cases l p
    · exact heq ▸ hadm
    · exact heq ▸ admissible_deflate0 hp

/-- What passes the check inflates to the plaintext. -/
theorem inflate_of_admissible {p c : Bytes} (h : admissible p c = true) : inflate c = .ok p := by
  obtain ⟨blocks, hread, -⟩ := admissible_iff_endsWithMarker.mp h
  rw [inflate, hread]

/-- Settles O50: every level's output passes the check, and what passes it inflates to the plaintext. -/
theorem deflateRoundTrip : Obligations.DeflateRoundTrip :=
  fun l _ _ hp => inflate_of_admissible (admissible_deflateLevel l hp)

/-- The last block Inflate's loop answers was read by `blockBody`, and where it is not final it ends C. -/
theorem inflateFrom_getLast {inp : Bytes} {fuel pos : Nat} {blocks blocks' : List BlockInfo} {out out' : Bytes}
    (h : inflateFrom inp fuel pos blocks out = .ok (blocks', out')) :
    ∃ (b : BlockInfo) (btype bodyPos q : Nat) (o : Bytes), blocks'.getLast? = some b ∧
      blockBody inp btype bodyPos o = .ok (b.kind, q, out') ∧ (b.final = false → (q + 7) / 8 = inp.length) := by
  induction fuel generalizing pos blocks out with
  | zero => simp [inflateFrom] at h
  | succ fuel ih =>
    unfold inflateFrom at h
    split at h
    · simp at h
    split at h
    · simp at h
    split at h
    · simp at h
    rename_i kind q out1 hbody
    simp only at h
    split at h
    · rename_i hfinal
      split at h
      · simp at h
      · simp only [Except.ok.injEq, Prod.mk.injEq] at h
        obtain ⟨rfl, rfl⟩ := h
        exact ⟨_, _, _, _, _, List.getLast?_concat, hbody, fun hnot => absurd hnot (by simp [hfinal])⟩
    · split at h
      · rename_i hend
        simp only [Except.ok.injEq, Prod.mk.injEq] at h
        obtain ⟨rfl, rfl⟩ := h
        exact ⟨_, _, _, _, _, List.getLast?_concat, hbody, fun _ => hend⟩
      · exact ih h

/-- The length fields of a stored block that is read are its LEN and the complement. -/
theorem storedBlock_fields {inp out out' : Bytes} {pos len q : Nat} (h : storedBlock inp pos out = .ok (len, q, out')) :
    fromLE ((inp.drop (alignPos pos / 8)).take 2) = len ∧
      fromLE ((inp.drop (alignPos pos / 8 + 2)).take 2) = len ^^^ 0xFFFF := by
  unfold storedBlock at h
  simp only at h
  split at h
  · simp at h
  split at h
  · simp at h
  rename_i hnlen
  split at h
  · simp at h
  split at h
  · simp at h
  simp only [Except.ok.injEq, Prod.mk.injEq] at h
  obtain ⟨rfl, -, -⟩ := h
  exact ⟨rfl, not_not.mp hnlen⟩

/-- Only a stored block is read as one. -/
theorem storedBlock_of_blockBody {inp out out' : Bytes} {btype pos len q : Nat}
    (h : blockBody inp btype pos out = .ok (.stored len, q, out')) : storedBlock inp pos out = .ok (len, q, out') := by
  unfold blockBody at h
  simp only [bind, Except.bind] at h
  split at h
  · split at h
    · simp at h
    · rename_i r hr
      obtain ⟨len', q', out''⟩ := r
      simpa [hr] using h
  · repeat' split at h
    all_goals simp at h

/-- Two bytes are those of the number they read as. -/
theorem take_two_eq_leBytes {bs : Bytes} (h : 2 ≤ bs.length) : bs.take 2 = leBytes 2 (fromLE (bs.take 2)) := by
  have hb := leBytes_fromLE (bs.take 2)
  rw [List.length_take, Nat.min_eq_left h] at hb
  exact hb.symm

/-- An empty stored block that ends C is the marker 00 00 FF FF behind its header. -/
theorem eq_append_of_empty_storedBlock {inp out out' : Bytes} {pos q : Nat}
    (h : storedBlock inp pos out = .ok (0, q, out')) (hend : (q + 7) / 8 = inp.length) :
    ∃ d, inp = d ++ [0x00, 0x00, 0xFF, 0xFF] := by
  obtain ⟨hq, -⟩ := storedBlock_ok h
  obtain ⟨hlen, hnlen⟩ := storedBlock_fields h
  have halign : alignPos pos = 8 * (alignPos pos / 8) := by unfold alignPos; omega
  generalize alignPos pos / 8 = start at halign hlen hnlen
  have hsize : inp.length = start + 4 := by omega
  have hLen : (inp.drop start).take 2 = [0x00, 0x00] := by
    rw [take_two_eq_leBytes (by rw [List.length_drop]; omega), hlen]; rfl
  have hNlen : inp.drop (start + 2) = [0xFF, 0xFF] := by
    rw [← List.take_of_length_le (i := 2) (l := inp.drop (start + 2)) (by rw [List.length_drop]; omega),
      take_two_eq_leBytes (by rw [List.length_drop]; omega), hnlen]
    rfl
  refine ⟨inp.take start, ?_⟩
  calc inp = inp.take start ++ ((inp.drop start).take 2 ++ (inp.drop start).drop 2) := by
        rw [List.take_append_drop, List.take_append_drop]
    _ = inp.take start ++ [0x00, 0x00, 0xFF, 0xFF] := by rw [List.drop_drop, hLen, hNlen]; rfl

/-- The marker of a stream that ends with one, wherever in a byte it starts. -/
theorem EndsWithMarker.eq_append {c p : Bytes} {blocks : List BlockInfo} (h : EndsWithMarker c blocks)
    (hread : inflateBlocks c = .ok (blocks, p)) : ∃ d, c = d ++ [0x00, 0x00, 0xFF, 0xFF] := by
  obtain ⟨-, b, hb, hsync⟩ := h
  obtain ⟨hfinal, hkind, -⟩ := isSyncBlock_iff.mp hsync
  obtain ⟨b', btype, bodyPos, q, o, hb', hbody, hend⟩ := inflateFrom_getLast hread
  obtain rfl : b' = b := Option.some.inj (hb'.symm.trans hb)
  exact eq_append_of_empty_storedBlock (storedBlock_of_blockBody (hkind ▸ hbody)) (hend hfinal)

/-- The last block of a stream that ends with the marker: where it starts on a byte boundary, C ends with SYNC_MARKER. -/
theorem EndsWithMarker.getLast {c : Bytes} {blocks : List BlockInfo} (h : EndsWithMarker c blocks) :
    ∃ pos, blocks.getLast? = some ⟨false, .stored 0, pos⟩ ∧
      (pos % 8 = 0 → ∃ d, c = d ++ Config.syncMarker ∧ 8 * d.length = pos) := by
  obtain ⟨-, ⟨final, kind, start⟩, hb, hsync⟩ := h
  obtain ⟨rfl, rfl, hmarker⟩ := isSyncBlock_iff.mp hsync
  exact ⟨start, hb, hmarker⟩

/-- Above level 0 the output is Deflate0's, or the implementation's own within STORED_BOUND. -/
theorem deflateLevel_cases {l : BitVec 4} (hl : l ≠ 0) (p : Bytes) :
    deflateLevel l p = deflate0 p ∨
      deflateLevel l p = Config.compressor l p ∧ (Config.compressor l p).length ≤ storedBound p.length := by
  rw [deflateLevel, if_neg hl]
  obtain ⟨hadm, heq⟩ | heq := deflateOpen_cases l p
  · obtain ⟨-, -, -, hbound⟩ := admissible_iff_endsWithMarker.mp hadm
    exact .inr ⟨heq, hbound⟩
  · exact .inl heq

/-- The response of a DEFLATE that ends with OK holds the plaintext's form at COMP_LEVEL. -/
theorem exec_deflate_ok {p : Bytes} {s t : State} {r : Response} (h : exec (.deflate p) s = .next t)
    (hr : t.rspOut = s.rspOut ++ [r]) (hok : r.status = 0x00) : r = ⟨0, deflateLevel s.compLevel p⟩ := by
  have hanswer {w : Word32} {out : Bytes} (ht : t = s.answer w out) : r = ⟨w, out⟩ := by
    simpa [State.answer, hr] using congrArg State.rspOut ht
  obtain ⟨-, ht⟩ | ⟨-, -, ht⟩ | ⟨-, -, ht⟩ := exec_next h
  · obtain rfl := hanswer ht
    exact absurd (hok.symm.trans (Response.status_statusWord .rejected s.faultKind [])) (by decide)
  · obtain rfl := hanswer ht
    exact absurd hok (by decide)
  · exact hanswer ht

/-- Settles O49: (a) to (d) from the check that every level's output passes, (e) and (f) from the response of DEFLATE. -/
theorem compressorProperties : Obligations.CompressorProperties := by
  refine ⟨fun l p hl _ hp => ?properties, fun p s s' t t' r r' hlevel ht ht' hr hr' hok hok' => ?function⟩
  case properties =>
    have hadm := admissible_deflateLevel l hp
    obtain ⟨blocks, hread, hmarker, hbound⟩ := admissible_iff_endsWithMarker.mp hadm
    exact ⟨inflate_of_admissible hadm, ⟨blocks, hread, hmarker.1, hmarker.getLast⟩, hmarker.eq_append hread, hbound,
      deflateLevel_cases (by rintro rfl; simp at hl) p⟩
  case function =>
    rw [exec_deflate_ok ht hr hok, exec_deflate_ok ht' hr' hok', hlevel]

/-! ## Canonical codes, and the fixed ones (43_compression.md R353, R358) -/

/-- The first bit of a code that stands in the input. -/
theorem readBit_of_codeAt {inp : Bytes} {pos len v : Nat} (h : codeAt inp pos (len + 1) v) :
    readBit inp pos = .ok ((v.testBit len).toNat, pos + 1) := by
  obtain ⟨b, hb, hbit⟩ := h 0 (Nat.succ_pos len)
  simp only [Nat.add_zero, Nat.add_sub_cancel, Nat.sub_zero] at hb hbit
  simp only [readBit, hb, hbit]

/-- The rest of a code stands one bit further. -/
theorem codeAt_tail {inp : Bytes} {pos len v : Nat} (h : codeAt inp pos (len + 1) v) : codeAt inp (pos + 1) len v := by
  intro j hj
  have hbit := h (j + 1) (Nat.succ_lt_succ hj)
  rwa [Nat.add_comm j 1, ← Nat.add_assoc, Nat.add_sub_cancel, ← Nat.sub_sub] at hbit

/-- One more bit read of a code: its bits so far, with the next one behind them. -/
theorem shiftRight_succ_or_testBit (v len : Nat) : ((v >>> (len + 1)) <<< 1) ||| (v.testBit len).toNat = v >>> len := by
  rw [← Nat.shiftLeft_add_eq_or_of_lt (Bool.toNat_lt _), Nat.shiftRight_succ, Nat.shiftLeft_eq, Nat.toNat_testBit,
    Nat.shiftRight_eq_div_pow]
  omega

/-- The first code of the length that comes after `counts`, where the first code of their first length is `first`: that of
43_compression.md R353. -/
def firstCode : List Nat → Nat → Nat
  | [], first => first
  | cnt :: counts, first => firstCode counts ((first + cnt) <<< 1)

/-- What is not below the first code of a later length is, cut shorter, not below the first code of the shorter length. -/
theorem le_shiftRight_of_firstCode_le {counts : List Nat} {first v : Nat} (h : firstCode counts first ≤ v) :
    first ≤ v >>> counts.length := by
  induction counts generalizing first with
  | nil => exact h
  | cons cnt counts ih =>
    have hnext : (first + cnt) <<< 1 ≤ v >>> counts.length := ih h
    rw [Nat.shiftLeft_eq] at hnext
    rw [List.length_cons, Nat.shiftRight_succ]
    omega

/-- The `k`-th code of the length after `counts` gives the `k`-th symbol of that length: cut to
a shorter length, it lies above the codes of that length. -/
theorem hdecodeFrom_of_codeAt {inp : Bytes} {symbols counts counts' : List Nat} {cnt first index pos v : Nat}
    (hv : codeAt inp pos (counts.length + 1) v) (hlow : firstCode counts first ≤ v)
    (hhigh : v < firstCode counts first + cnt) :
    hdecodeFrom inp symbols (counts ++ cnt :: counts') ((v >>> (counts.length + 1)) <<< 1) first index pos =
      .ok (symbols.getD (index + counts.sum + (v - firstCode counts first)) 0, pos + counts.length + 1) := by
  induction counts generalizing first index pos with
  | nil =>
    have hcode : (v >>> 1) <<< 1 ||| (v.testBit 0).toNat = v := shiftRight_succ_or_testBit v 0
    have hhit : v < first + cnt := hhigh
    simp only [List.nil_append, hdecodeFrom, readBit_of_codeAt hv, List.length_nil, Nat.zero_add, hcode, if_pos hhit,
      firstCode, List.sum_nil, Nat.add_zero]
  | cons c counts ih =>
    have habove : ¬ v >>> (counts.length + 1) < first + c := by
      have hnext : (first + c) <<< 1 ≤ v >>> counts.length := le_shiftRight_of_firstCode_le hlow
      rw [Nat.shiftLeft_eq] at hnext
      rw [Nat.shiftRight_succ]
      omega
    have hnext := ih (index := index + c) (codeAt_tail hv) hlow hhigh
    simp only [List.cons_append, hdecodeFrom, readBit_of_codeAt hv, List.length_cons, shiftRight_succ_or_testBit,
      if_neg habove, hnext, firstCode, List.sum_cons]
    congr 3 <;> omega

/-- The same for a whole code: the `k`-th code of a length, counted from that length's first, gives the `k`-th of its
symbols, which stand behind those of the shorter lengths. -/
theorem hdecode_of_codeAt {inp : Bytes} {h : Huffman} (counts : List Nat) {counts' : List Nat} {cnt pos v k sym : Nat}
    (hcounts : h.counts = counts ++ cnt :: counts') (hv : codeAt inp pos (counts.length + 1) v)
    (hvk : v = firstCode counts 0 + k) (hk : k < cnt) (hlen : v < 2 ^ (counts.length + 1))
    (hsym : h.symbols.getD (counts.sum + k) 0 = sym) :
    hdecode h inp pos = .ok (sym, pos + (counts.length + 1)) := by
  have hrun := hdecodeFrom_of_codeAt (symbols := h.symbols) (counts' := counts') (cnt := cnt) (first := 0) (index := 0) hv
    (by omega) (by omega)
  rwa [Nat.shiftRight_eq_zero _ _ hlen, ← hcounts, Nat.zero_add, hvk, Nat.add_sub_cancel_left, hsym] at hrun

/-- The fixed literal/length code: 24 codes of 7 bits, 152 of 8 and 112 of 9, and their symbols in the order of the codes. -/
theorem huffman_fixedLitLens : huffman fixedLitLens =
    { counts := [0, 0, 0, 0, 0, 0, 24, 152, 112, 0, 0, 0, 0, 0, 0]
      symbols := List.range' 256 24 ++ (List.range' 0 144 ++ (List.range' 280 8 ++ List.range' 144 112)) } := by
  decide +kernel

/-- The fixed distance code: 32 codes of 5 bits. -/
theorem huffman_fixedDistLens : huffman fixedDistLens =
    { counts := [0, 0, 0, 0, 32, 0, 0, 0, 0, 0, 0, 0, 0, 0, 0], symbols := List.range' 0 32 } := by
  decide +kernel

/-- Where the symbols of each range of 43_compression.md R358 stand in the order of the codes. -/
theorem fixedLit_symbols_getD :
    (∀ k < 24, (huffman fixedLitLens).symbols.getD (0 + k) 0 = 256 + k) ∧
    (∀ k < 144, (huffman fixedLitLens).symbols.getD (24 + k) 0 = 0 + k) ∧
    (∀ k < 8, (huffman fixedLitLens).symbols.getD (24 + (144 + k)) 0 = 280 + k) ∧
    (∀ k < 112, (huffman fixedLitLens).symbols.getD (176 + k) 0 = 144 + k) := by
  rw [huffman_fixedLitLens]
  decide +kernel

theorem fixedDist_symbols_getD : ∀ k < 32, (huffman fixedDistLens).symbols.getD (0 + k) 0 = k := by
  rw [huffman_fixedDistLens]
  decide +kernel

/-- Every symbol of the fixed literal/length code is decoded from its code: one range of R358 after the other. -/
theorem hdecode_fixedLit {inp : Bytes} {pos sym : Nat} (hsym : sym < 288)
    (hcode : codeAt inp pos (fixedLitCode sym).1 (fixedLitCode sym).2) :
    hdecode (huffman fixedLitLens) inp pos = .ok (sym, pos + (fixedLitCode sym).1) := by
  have hcounts := congrArg Huffman.counts huffman_fixedLitLens
  obtain ⟨hends, hlow, hlast, hhigh⟩ := fixedLit_symbols_getD
  unfold fixedLitCode at hcode ⊢
  split_ifs at hcode ⊢ with h143 h255 h279
  · exact hdecode_of_codeAt [0, 0, 0, 0, 0, 0, 24] (k := sym) hcounts hcode rfl (by omega) (by simp; omega)
      ((hlow sym (by omega)).trans (Nat.zero_add sym))
  · exact hdecode_of_codeAt [0, 0, 0, 0, 0, 0, 24, 152] hcounts hcode rfl (by omega) (by simp; omega)
      ((hhigh (sym - 144) (by omega)).trans (by omega))
  · exact hdecode_of_codeAt [0, 0, 0, 0, 0, 0] hcounts hcode (Nat.zero_add _).symm (by omega) (by simp; omega)
      ((hends (sym - 256) (by omega)).trans (by omega))
  · exact hdecode_of_codeAt [0, 0, 0, 0, 0, 0, 24] hcounts hcode (by simp [firstCode]; omega) (by omega) (by simp; omega)
      ((hlast (sym - 280) (by omega)).trans (by omega))

/-- Every symbol of the fixed distance code is decoded from its five bits. -/
theorem hdecode_fixedDist {inp : Bytes} {pos sym : Nat} (hsym : sym < 32) (hcode : codeAt inp pos 5 sym) :
    hdecode (huffman fixedDistLens) inp pos = .ok (sym, pos + 5) :=
  hdecode_of_codeAt [0, 0, 0, 0] (congrArg Huffman.counts huffman_fixedDistLens) hcode (Nat.zero_add _).symm hsym hsym
    (fixedDist_symbols_getD sym hsym)

/-- Settles O53: the two decodings, and Left of the counts of each code. -/
theorem fixedCodes : Obligations.FixedCodes := by
  refine ⟨fun inp pos sym => hdecode_fixedLit, fun inp pos sym => hdecode_fixedDist, ?litComplete, ?distComplete⟩
  case litComplete => rw [codeLeft, huffman_fixedLitLens]; rfl
  case distComplete => rw [codeLeft, huffman_fixedDistLens]; rfl

end Sys2Proof.Machine
end

section
/-! PROOF. The family of 44_packet.md: the sizes of the compressed payload at every level, and of the wire unit. -/

namespace Sys2Proof.Machine

/-! ## The sizes of the compressed payload (43_compression.md R371, R372) -/

/-- A longer plaintext has no smaller bound. -/
theorem storedBound_mono {m n : Nat} (h : m ≤ n) : storedBound m ≤ storedBound n := by
  unfold storedBound
  omega

/-- At level 0 STORED_BOUND is reached. -/
theorem deflateLevel_zero_length (p : Bytes) : (deflateLevel 0 p).length = storedBound p.length := by
  rw [deflateLevel, if_pos rfl, deflate0_length]

/-- At every level STORED_BOUND is kept. -/
theorem deflateLevel_length_le (l : BitVec 4) (p : Bytes) : (deflateLevel l p).length ≤ storedBound p.length := by
  by_cases hl : l = 0
  · rw [hl, deflateLevel_zero_length]
  · obtain heq | ⟨heq, hbound⟩ := deflateLevel_cases hl p
    · rw [heq, deflate0_length]
    · rwa [heq]

/-- The length fields of the marker are no stream of their own: the block's header bits take a byte before them. -/
theorem inflate_marker_lengthFields : inflate [0x00, 0x00, 0xFF, 0xFF] = .error .truncated := by decide +kernel

/-- What passes the check of R372 holds at least the marker: its four bytes of length fields, and its header before them. -/
theorem five_le_length_of_admissible {p c : Bytes} (h : admissible p c = true) : 5 ≤ c.length := by
  obtain ⟨blocks, hread, hmarker, -⟩ := admissible_iff_endsWithMarker.mp h
  obtain ⟨d, rfl⟩ := hmarker.eq_append hread
  have hd : d ≠ [] := by
    rintro rfl
    have hok := inflate_of_admissible h
    rw [List.nil_append, inflate_marker_lengthFields] at hok
    cases hok
  have hpos := List.length_pos_iff.mpr hd
  rw [List.length_append]
  exact Nat.add_le_add_right hpos 4

/-! ## The sizes of the wire unit (44_packet.md R441) -/

/-- Enciphering keeps the length of `C ++ T`. -/
theorem wireUnit_length (l : BitVec 4) (ctr : Word64) (k : Secret) (sr : Block) (p : Bytes) :
    (enc k sr (framedUnit l ctr k p)).1.length = (deflateLevel l p).length + 8 := by
  rw [enc_length, framedUnit_length]

/-- Settles O55: each size of the unit is that size of the compressed payload, and the 8 bytes of the tag. -/
theorem wireSizes : Obligations.WireSizes := by
  intro l ctr k sr p hp wire
  have hwire : wire.length = (deflateLevel l p).length + 8 := wireUnit_length l ctr k sr p
  have hlevel0 (hl : l = 0) : wire.length = storedBound p.length + 8 := by rw [hwire, hl, deflateLevel_zero_length]
  refine ⟨hwire, ?bound, ?maxWire, hlevel0, ?shortest, ?empty⟩
  case bound => exact hwire ▸ Nat.add_le_add_right (deflateLevel_length_le l p) 8
  case maxWire => exact Nat.add_le_add_right (storedBound_mono hp) Config.tagLen
  case shortest => exact hwire ▸ Nat.add_le_add_right (five_le_length_of_admissible (admissible_deflateLevel l hp)) 8
  case empty =>
    rintro hl rfl
    exact hlevel0 hl

end Sys2Proof.Machine
end

section
/-! PROOF. The family of 60_exceptions.md: the FAULTED gate, what a refusal and a fatal fault leave, and the ways out of
FAULTED. -/

namespace Sys2Proof.Machine

/-! ## The commands that run in FAULTED (60_exceptions.md R612) -/

/-- The commands that the gate lets pass. -/
theorem runsInFaulted_eq_true_iff (i : Instr) :
    runsInFaulted i = true ↔ instrOpcode i ∈ [Opcode.nop, .csrr, .init, .dispose] := by
  rw [← Bool.not_eq_false, runsInFaulted_iff, not_not]

/-- A command that runs in FAULTED and whose Perform answers OK, of an admitted length, ends with OK in every STATE. -/
theorem commandCycle_ok {i : Instr} {perform : State → Result} {s u : State} {out : Bytes}
    (hi : runsInFaulted i = true) (hl : lengthAdmitted i) (hp : perform s = .next (u.respond .ok 0 out)) :
    commandCycle i perform s = .next (u.answer 0 out) := by
  rw [commandCycle_perform (.inr hi) ((admitsLength_iff i).mpr hl), hp, bumpResult_next, respond_ok_bumpSeq]

/-- NOP, CSRR, INIT and DISPOSE of an admitted length end with OK in every STATE. -/
theorem exec_ok_of_runsInFaulted {i : Instr} (hi : runsInFaulted i = true) (hl : lengthAdmitted i) (s : State) :
    ∃ u out, OkWrites i s u ∧ exec i s = .next (u.answer 0 out) := by
  cases i with
  | nop p => exact ⟨_, _, .nop p s, by rw [exec, execNop]; exact commandCycle_ok hi hl rfl⟩
  | init p => exact ⟨_, _, .init p s, by rw [exec, execInit]; exact commandCycle_ok hi hl rfl⟩
  | dispose p => exact ⟨_, _, .dispose p s, by rw [exec, execDispose]; exact commandCycle_ok hi hl rfl⟩
  | csrr c p => exact ⟨_, _, .csrr c p s, by rw [exec, execCsrr]; exact commandCycle_ok hi hl rfl⟩
  | _ => simp [runsInFaulted] at hi

/-- NOP, CSRR, INIT and DISPOSE end with OK or with LENGTH_ERROR in every STATE. -/
theorem exec_ok_or_lengthError {i : Instr} (hi : runsInFaulted i = true) (s : State) :
    ∃ t r, exec i s = .next t ∧ t.rspOut = s.rspOut ++ [r] ∧ (r.status = 0x00 ∨ r.status = 0x11) := by
  by_cases hl : lengthAdmitted i
  · obtain ⟨u, out, hu, he⟩ := exec_ok_of_runsInFaulted hi hl s
    exact ⟨_, ⟨0, out⟩, he, by simp [State.answer, hu.rspOut_eq], .inl rfl⟩
  · have hg : ¬ gated i s := by simp [gated_iff, hi]
    exact ⟨_, ⟨0x00000011, []⟩, exec_badLength hg hl, rfl, .inr rfl⟩

/-- Settles O17: the gate stops every opcode outside the four that it lets pass, and a reserved opcode fails to decode
before the gate is asked. -/
theorem faultedGate : Obligations.FaultedGate := by
  refine fun s hs => ⟨fun i hi => ?rejected, fun i hi => ?runs, fun w p hw => ?reserved⟩
  case rejected =>
    have hstopped : ∀ o ∈ [Opcode.csrw, .tag, .encrypt, .decrypt, .deflate, .inflate, .encode, .decode],
        o ∉ [Opcode.nop, .csrr, .init, .dispose] := by decide
    exact exec_gated ⟨hs, hstopped _ hi⟩
  case runs => exact exec_ok_or_lengthError ((runsInFaulted_eq_true_iff i).mpr hi) s
  case reserved =>
    rw [execWord, decodeWord_reservedOpcode hw]
    rfl

/-! ## Refusals (60_exceptions.md R611) -/

/-- A command that ends with a refusal is answered, and nothing else happens. -/
theorem Ends.eq_answer_of_isRefusal {i : Instr} {s t : State} {r : Response} (h : Ends i s t r)
    (hr : r.isRefusal = true) : t = s.answer r.word [] := by
  cases h with
  | refused st cause _ => rfl
  | faulted kind cause _ => cases kind <;> simp [faultStatus] at hr
  | ok u out _ => simp at hr

/-- Settles O18: a word that does not decode is answered at once, and a command that decodes ends with a refusal only by
answering. -/
theorem refusalChangesNothing : Obligations.RefusalChangesNothing := by
  intro w p s t r h hr href
  cases hd : decodeWord w p with
  | error c =>
    obtain rfl := execWord_illegal hd h
    obtain rfl : _ = r := by simpa [State.answer] using hr
    rfl
  | ok i =>
    have he : exec i s = .next t := by simpa [execWord, hd] using h
    exact (exec_ends_with he hr).eq_answer_of_isRefusal href

/-! ## Fatal-fault entry (60_exceptions.md R610) -/

/-- A command that ends with a fatal fault is in FAULTED with the record of that fault, on the state it left before the
raise. -/
theorem Ends.faulted_of_isFault {i : Instr} {s t : State} {r : Response} (h : Ends i s t r) (hr : r.isFault = true) :
    ∃ kind cause, r = ⟨statusWord (faultStatus kind) cause, []⟩ ∧
      t = (s.countedUnit i kind).faultedBy (faultKindCode kind) cause (opcodeByte (instrOpcode i)) := by
  cases h with
  | refused st cause hst => fin_cases hst <;> simp at hr
  | faulted kind cause _ => exact ⟨kind, cause, rfl, rfl⟩
  | ok u out _ => simp at hr

theorem faultKindCode_eq_engine (kind : FaultKind) : faultKindCode kind = 0x01 ↔ kind = .engine := by
  cases kind <;> decide

/-- Settles O19: the fields of `faultedBy`, on the state with its unit counted. -/
theorem fatalFaultEntry : Obligations.FatalFaultEntry := by
  intro i s t r h hr hfault
  obtain ⟨kind, cause, rfl, rfl⟩ := (exec_ends_with h hr).faulted_of_isFault hfault
  have hopc : (encodeWord i).extractLsb' 0 8 = opcodeByte (instrOpcode i) := fieldOpcode_encodeWord i
  have hkind : faultKindCode kind = 0x01 ∨ faultKindCode kind = 0x02 ∨ faultKindCode kind = 0x03 := by
    cases kind <;> decide
  rw [Response.status_statusWord, Response.cause_statusWord, statusCode_faultStatus, hopc]
  refine ⟨rfl, rfl, rfl, rfl, rfl, rfl, rfl, rfl, rfl, rfl, rfl, ?recvCtr, hkind⟩
  case recvCtr =>
    simp only [ne_eq, faultKindCode_eq_engine]
    rfl

/-! ## Leaving FAULTED (60_exceptions.md R621) -/

/-- The payload goes through decoding unchanged (30_encoding.md R159). -/
theorem payload_of_decodeWord {w : Word32} {p : Bytes} {i : Instr} (h : decodeWord w p = .ok i) : i.payload = p := by
  cases ho : opcodeOfByte (fieldOpcode w) with
  | none => simp [decodeWord_reservedOpcode ho] at h
  | some o =>
    by_cases hr : fieldRsvd w = 0
    case neg => simp [decodeWord_reservedBits ho hr] at h
    obtain ⟨-, -, make, hm, hd⟩ | ⟨-, -, make, hm, hd⟩ | ⟨-, -, j, hj, hd⟩ := decodeWord_cases ho hr p
    all_goals rw [hd] at h
    · obtain ⟨c, rfl⟩ : ∃ c, make c = i := by grind [decodeCsr]
      obtain ⟨-, -, -, hp⟩ := hm c
      exact hp
    · obtain ⟨e, rfl⟩ : ∃ e, make e = i := by grind [decodeSel]
      obtain ⟨-, -, -, hp⟩ := hm e
      exact hp
    · obtain rfl : j = i := by grind [decodePlain]
      obtain ⟨-, -, -, hp⟩ := hj
      exact hp

/-- A command that ends outside FAULTED, run in FAULTED, is INIT or DISPOSE of an admitted length. -/
theorem exec_leaves_faulted {i : Instr} {s t : State} (hs : s.state = .faulted) (h : exec i s = .next t)
    (ht : t.state ≠ .faulted) : lengthAdmitted i ∧ (i = .init i.payload ∨ i = .dispose i.payload) := by
  obtain ⟨-, rfl⟩ | ⟨-, -, rfl⟩ | ⟨hg, hl, -⟩ := exec_next h
  · exact absurd hs ht
  · exact absurd hs ht
  have hi : runsInFaulted i = true := by simpa [gated_iff, hs] using hg
  obtain ⟨u, out, hu, he⟩ := exec_ok_of_runsInFaulted hi hl s
  obtain rfl : u.answer 0 out = t := Host.Outcome.next.inj (he.symm.trans h)
  cases hu with
  | nop p | csrr c p => exact absurd hs ht
  | init p => exact ⟨hl, .inl rfl⟩
  | dispose p => exact ⟨hl, .inr rfl⟩
  | _ => simp [runsInFaulted] at hi

/-- Settles O21: what INIT and DISPOSE write, what reset leaves, and that no other command ends outside FAULTED. -/
theorem leavingFaulted : Obligations.LeavingFaulted := by
  refine fun s hs => ⟨fun p hp => ?init, ?dispose, s.driveReset_assert, fun w p t h ht => ?others⟩
  case init =>
    obtain ⟨u, out, hu, he⟩ := exec_ok_of_runsInFaulted (i := .init p) rfl hp s
    cases hu
    exact ⟨_, he, rfl, rfl, rfl, rfl, rfl, rfl, rfl, rfl⟩
  case dispose =>
    obtain ⟨u, out, hu, he⟩ := exec_ok_of_runsInFaulted (i := .dispose []) rfl rfl s
    cases hu
    exact ⟨_, he, rfl, rfl, rfl, rfl, rfl, rfl, rfl, rfl⟩
  case others =>
    cases hd : decodeWord w p with
    | error c =>
      obtain rfl := execWord_illegal hd h
      exact absurd hs ht
    | ok i =>
      have he : exec i s = .next t := by simpa [execWord, hd] using h
      obtain rfl := payload_of_decodeWord hd
      obtain ⟨hl, hi | hi⟩ := exec_leaves_faulted hs he ht
      all_goals rw [hi] at hl
      · exact .inl ⟨congrArg Except.ok hi, hl⟩
      · exact .inr ⟨congrArg Except.ok hi, List.length_eq_zero_iff.mp hl⟩

end Sys2Proof.Machine
end

section
/-! PROOF. The family of 70_reset_and_hazards.md: the states that reset leaves, and what the block does from them. -/

namespace Sys2Proof.Machine

/-! ## The states that reset leaves (70_reset_and_hazards.md R700) -/

/-- A block that reset would leave as it is: every element at its reset value, both channels empty. The level of `rst` and
the depth of the response channel may be any, since reset sets neither (log entries 4 and 12). -/
def State.atReset (s : State) : Prop := s.inReset = s

theorem State.inReset_atReset (s : State) : s.inReset.atReset := rfl

/-- A reset, asserted or released, leaves the reset values. -/
theorem State.driveReset_atReset {s : State} {level : Bool} (h : s.rst = true ∨ level = true) :
    (s.driveReset level).atReset := by
  rw [State.driveReset, if_pos (by simpa using h)]
  exact State.inReset_atReset _

/-- COMP_LEVEL holds DEFAULT_COMP_LEVEL after reset: the levels up to 9 fit its four bits (10_state.md R76). -/
theorem reset_compLevel_toNat : State.reset.compLevel.toNat = Config.defaultCompLevel.val :=
  (BitVec.toNat_ofNat ..).trans (Nat.mod_eq_of_lt (lt_trans Config.defaultCompLevel.isLt (show 10 < 2 ^ 4 by decide)))

/-! ## Steps under reset and after it -/

theorem step_under_rst {s : State} (h : s.rst = true) : step s = .next s.inReset := by simp [step, h]

/-- A block at its reset values stays as it is: under `rst` by reset itself, out of reset because the command channel is
empty (60_exceptions.md R646). -/
theorem State.atReset.step_eq {s : State} (h : s.atReset) : step s = .next s := by
  cases hr : s.rst with
  | true => rw [step_under_rst hr, h]
  | false =>
    have hcmd : s.cmdIn = [] := congrArg State.cmdIn h.symm
    have hwait : decode s.cmdIn = .incomplete := by rw [hcmd]; rfl
    simp [step, hr, hwait]

/-- Every way R700 names to be in reset or to come out of it: a step under `rst`, the release, the release after a submission
under `rst`, and the assertion. -/
theorem atReset_of_reset {s t : State}
    (h : (s.rst = true ∧ (step s = .next t ∨ t = s.driveReset false ∨ ∃ bs, t = (s.submit bs).driveReset false)) ∨
      t = s.driveReset true) : t.atReset := by
  obtain ⟨hr, hstep | rfl | ⟨bs, rfl⟩⟩ | rfl := h
  · exact step_of_rst hr hstep ▸ s.inReset_atReset
  · exact State.driveReset_atReset (.inl hr)
  · exact State.driveReset_atReset (.inl (by rw [State.submit_rst, hr]))
  · exact State.driveReset_atReset (.inr rfl)

/-- Settles O12: each way through reset ends in a state `atReset`, whose elements are those of `State.reset`, and a step
leaves such a state as it is. -/
theorem resetClearsEverything : Obligations.ResetClearsEverything := by
  refine ⟨fun s t h => ?values, fun s hr => ?underRst, fun s hr => ?released⟩
  case values =>
    have ht : t.inReset = t := atReset_of_reset h
    rw [← ht]
    exact ⟨rfl, rfl, rfl, rfl, rfl, rfl, rfl, rfl, rfl, rfl, rfl, reset_compLevel_toNat, rfl, rfl, rfl⟩
  case underRst => exact ⟨s.inReset, step_under_rst hr, hr⟩
  case released => exact ⟨s.driveReset_rst false, (State.driveReset_atReset (.inl hr)).step_eq⟩

end Sys2Proof.Machine
end

section
/-! PROOF. The codec: the commands are exactly the words that decode, and what a step and an assembled line make of that. -/

namespace Sys2Proof

/-! ## Decoding and encoding are inverse (30_encoding.md R152, R157, R159) -/

/-- The word of a command decodes to it: every check of R159 finds the field that `encodeWord` wrote. -/
theorem decodeWord_encodeWord (i : Instr) : decodeWord (encodeWord i) i.payload = .ok i := by
  have ho : opcodeOfByte (opcodeByte (instrOpcode i)) = some (instrOpcode i) := (opcodeOfByte_eq_some _ _).mpr rfl
  unfold decodeWord
  rw [fieldOpcode_encodeWord, ho]
  simp only [fieldRsvd_encodeWord, ne_eq, not_true_eq_false, if_false]
  cases i with
  | csrr c p | csrw c p =>
    have hc : csrOfNumber (csrNumber c) = some c := (csrOfNumber_eq_some _ _).mpr rfl
    simp [decodeCsr, instrOpcode, instrSel, instrCsr, Instr.payload, hc]
  | encrypt e p | decrypt e p =>
    have he : engineOfSel (selOfEngine e) = some e := (engineOfSel_eq_some _ _).mpr rfl
    simp [decodeSel, instrOpcode, instrSel, instrCsr, Instr.payload, he]
  | _ => simp [decodePlain, instrOpcode, instrSel, instrCsr, Instr.payload]

/-- A word that decodes is the word of its command: the checks leave no field free. -/
theorem decodeWord_eq_ok_iff {w : Word32} {p : Bytes} {i : Instr} :
    decodeWord w p = .ok i ↔ w = encodeWord i ∧ i.payload = p := by
  constructor
  · intro h
    have horder := decodeCheckOrder w p
    simp only [h, reduceCtorEq] at horder
    split_ifs at horder with _ hrsvd
    obtain ⟨j, hj, hopc, hsel, hcsr, hp⟩ := horder
    obtain rfl : i = j := Except.ok.inj hj
    refine ⟨?_, hp⟩
    calc w = fieldCsr w ++ fieldRsvd w ++ fieldSel w ++ fieldOpcode w := word_eq_fields w
      _ = encodeWord i := by
        rw [encodeWord, hopc, hsel, hcsr, show fieldRsvd w = 0 from not_not.mp hrsvd]
        rfl
  · rintro ⟨rfl, rfl⟩
    exact decodeWord_encodeWord i

/-- Settles O1: a command goes over the channel as `commandBytes` of its word. -/
theorem decodeOfEncode : Obligations.DecodeOfEncode := fun i rest hi =>
  decode_commandBytes_ok (of_decide_eq_true hi) (decodeWord_encodeWord i) rest

/-- A command is decoded from a whole command at the front of the channel, whose word decodes. -/
theorem decode_eq_command {bs : Bytes} {i : Instr} {rest : Bytes} (h : decode bs = .command i rest) :
    ∃ w p, splitCommand bs = some (w, p, rest) ∧ decodeWord w p = .ok i := by
  unfold decode at h
  split at h
  · cases h
  · rename_i w p rest' hsplit
    split at h
    · cases h
    · rename_i j hj
      cases h
      exact ⟨w, p, hsplit, hj⟩

/-- Settles O2: what is split off is `commandBytes` of a word and a payload, and both are the command's. -/
theorem encodeOfDecode : Obligations.EncodeOfDecode := by
  intro bs i rest h
  obtain ⟨w, p, hsplit, hword⟩ := decode_eq_command h
  obtain ⟨rfl, hp⟩ := splitCommand_eq_some hsplit
  obtain ⟨rfl, rfl⟩ := decodeWord_eq_ok_iff.mp hword
  exact ⟨decide_eq_true hp, rfl⟩

/-- Settles O3: each word is that of its command. -/
theorem decodeSampleWords : Obligations.DecodeSampleWords := by
  simp only [Obligations.DecodeSampleWords, decodeWord_eq_ok_iff]
  decide

end Sys2Proof

namespace Sys2Proof.Machine

/-! ## One step (20_memory.md R110; 40_context.md R200; 60_exceptions.md R646) -/

/-- Out of reset and with room for a response, a step runs the command at the front of the channel. -/
theorem step_of_command {s : State} {i : Instr} {rest : Bytes} (hr : s.rst = false) (hh : s.holding = false)
    (hd : decode s.cmdIn = .command i rest) : step s = exec i (s.consumed rest) := by
  simp [step, hr, hh, hd]

/-- A whole command that does not decode is answered with its cause. -/
theorem step_of_illegal {s : State} {c : IllegalCause} {rest : Bytes} (hr : s.rst = false) (hh : s.holding = false)
    (hd : decode s.cmdIn = .illegal c rest) : step s = .next ((s.consumed rest).illegalCommand c) := by
  simp [step, hr, hh, hd]

/-- While no command has arrived whole the block waits, whether it holds or not. -/
theorem step_of_incomplete {s : State} (hr : s.rst = false) (hd : decode s.cmdIn = .incomplete) :
    step s = .next s := by
  cases hh : s.holding with
  | true => simp [step, hr, hh]
  | false => simp [step, hr, hh, hd]

/-- Settles O9: the decoded command is the one that runs; it is well formed by the converse of decoding. -/
theorem stepRunsDecodedCommand : Obligations.StepRunsDecodedCommand := by
  intro s i rest hr hh hd
  obtain ⟨hwf, -⟩ := encodeOfDecode _ _ _ hd
  exact ⟨hwf, step_of_command hr hh hd⟩

/-- Settles O10: a decoding refusal answers with its cause, and an incomplete command makes the block wait. -/
theorem stepWithoutLegalCommand : Obligations.StepWithoutLegalCommand := by
  refine ⟨fun s c rest hr hh hd => ?illegal, fun s hr hd => step_of_incomplete hr hd⟩
  case illegal =>
    rw [step_of_illegal hr hh hd]
    cases c <;> rfl

/-! ## The assembler (30_encoding.md R163, R164) -/

/-- The fields of an assembled word are those it was put together from. -/
theorem asmWord_fields (o : Opcode) (sel : BitVec 4) (csr : BitVec 12) :
    fieldOpcode (asmWord o sel csr) = opcodeByte o ∧ fieldSel (asmWord o sel csr) = sel ∧
      fieldRsvd (asmWord o sel csr) = 0 ∧ fieldCsr (asmWord o sel csr) = csr := by
  refine ⟨?opcode, ?sel, ?rsvd, ?csr⟩
  case opcode => exact BitVec.extractLsb'_append_eq_right
  case sel => exact (BitVec.extractLsb'_append_eq_of_le (by decide)).trans BitVec.extractLsb'_append_eq_right
  case rsvd =>
    exact ((BitVec.extractLsb'_append_eq_of_le (by decide)).trans
      (BitVec.extractLsb'_append_eq_of_le (by decide))).trans BitVec.extractLsb'_append_eq_right
  case csr =>
    exact ((BitVec.extractLsb'_append_eq_of_le (by decide)).trans
      (BitVec.extractLsb'_append_eq_of_le (by decide))).trans BitVec.extractLsb'_append_eq_left

/-- An assembled word whose fields are free only where its opcode takes them decodes, but for a `csr` that names no CSR. -/
theorem decodeWord_asmWord {o : Opcode} {sel : BitVec 4} {csr : BitVec 12}
    (hengine : o ∈ [Opcode.encrypt, .decrypt] → engineOfSel sel ≠ none)
    (hplain : o ∉ [Opcode.encrypt, .decrypt] → sel = 0) (hcsr : o ∉ [Opcode.csrr, .csrw] → csr = 0) (p : Bytes) :
    (∃ i, decodeWord (asmWord o sel csr) p = .ok i) ∨
      (o ∈ [Opcode.csrr, .csrw] ∧ decodeWord (asmWord o sel csr) p = .error .csr) := by
  obtain ⟨hopc, hsel', hrsvd, hcsr'⟩ := asmWord_fields o sel csr
  generalize asmWord o sel csr = w at hopc hsel' hrsvd hcsr'
  obtain ⟨hc, hs, make, hm, hd⟩ | ⟨hc, hs, make, hm, hd⟩ | ⟨hc, hs, i, hi, hd⟩ :=
    decodeWord_cases ((opcodeOfByte_eq_some _ _).mpr hopc) hrsvd p
  all_goals rw [hd]
  · have hchecks := decodeCsr_checks (w := w) hm
    rw [hsel', hplain hs, if_neg (not_not.mpr rfl)] at hchecks
    split_ifs at hchecks
    · exact .inr ⟨hc, hchecks⟩
    · obtain ⟨i, hi, -⟩ := hchecks
      exact .inl ⟨i, hi⟩
  · have hchecks := decodeSel_checks (w := w) hm
    rw [hsel', hcsr', if_neg (hengine hs), hcsr hc, if_neg (not_not.mpr rfl)] at hchecks
    obtain ⟨i, hi, -⟩ := hchecks
    exact .inl ⟨i, hi⟩
  · have hchecks := decodePlain_checks (w := w) hi
    rw [hsel', hcsr', hplain hs, if_neg (not_not.mpr rfl), hcsr hc, if_neg (not_not.mpr rfl)] at hchecks
    obtain ⟨j, hj, -⟩ := hchecks
    exact .inl ⟨j, hj⟩

/-- The opcode of each mnemonic, the pseudo-commands by their expansions. -/
def AsmOp.opcode : AsmOp → Opcode
  | .plain o => o
  | .sel o _ => o
  | .initSame => .init
  | .setLevel => .csrw
  | .read _ => .csrr

/-- The `sel` field of each mnemonic. -/
def AsmOp.selField : AsmOp → BitVec 4
  | .sel _ e => selOfEngine e
  | .plain _ | .initSame | .setLevel | .read _ => 0

/-- A mnemonic of the table has an engine suffix exactly where its opcode is ENCRYPT or DECRYPT. -/
theorem asmOp_selField {cs : List Char} {op : AsmOp} (h : asmOp cs = some op) :
    (op.opcode ∈ [Opcode.encrypt, .decrypt] → engineOfSel op.selField ≠ none) ∧
      (op.opcode ∉ [Opcode.encrypt, .decrypt] → op.selField = 0) := by
  obtain ⟨entry, hfind, rfl⟩ := Option.map_eq_some_iff.mp h
  have htable : ∀ entry ∈ asmOps,
      (entry.2.opcode ∈ [Opcode.encrypt, .decrypt] → engineOfSel entry.2.selField ≠ none) ∧
        (entry.2.opcode ∉ [Opcode.encrypt, .decrypt] → entry.2.selField = 0) := by decide
  exact htable entry (List.mem_of_find?_eq_some hfind)

/-- The word of an assembled command: the opcode and the suffix of its mnemonic, and a number where the opcode takes one. The
cases are the patterns of `asmCommand`, in its order. -/
theorem asmCommand_word {op : AsmOp} {operands : List AsmToken} {w : Word32} {p : Bytes}
    (h : asmCommand op operands = some (w, p)) :
    ∃ csr, w = asmWord op.opcode op.selField csr ∧ (op.opcode ∉ [Opcode.csrr, .csrw] → csr = 0) := by
  unfold asmCommand at h
  split at h
  case h_2 | h_3 =>
    split at h
    · cases h
      exact ⟨0, rfl, fun _ => rfl⟩
    · cases h
  case h_5 | h_8 =>
    obtain ⟨x, -, hx⟩ := Option.map_eq_some_iff.mp h
    cases hx
    exact ⟨_, rfl, by simp [AsmOp.opcode]⟩
  case h_9 | h_10 =>
    obtain ⟨x, -, hx⟩ := Option.map_eq_some_iff.mp h
    cases hx
    exact ⟨0, rfl, fun _ => rfl⟩
  case h_6 =>
    cases h
    exact ⟨_, rfl, by simp [AsmOp.opcode]⟩
  case h_7 =>
    split at h
    · cases h
      exact ⟨_, rfl, by simp [AsmOp.opcode]⟩
    · cases h
  case h_16 => cases h
  all_goals
    cases h
    exact ⟨0, rfl, fun _ => rfl⟩

/-- A line with a command is a mnemonic of the table and its operands. -/
theorem asmLine_eq_some {line : List Char} {w : Word32} {p : Bytes} (h : asmLine line = some (some (w, p))) :
    ∃ m op operands, asmOp m = some op ∧ asmCommand op operands = some (w, p) := by
  unfold asmLine at h
  split at h
  case h_3 m operands _ =>
    split at h
    · cases h
    · rename_i op hop
      exact ⟨m, op, operands, hop, by simpa using h⟩
  all_goals cases h

/-- Settles O7: the mnemonic fixes the opcode and `sel`, so the one check of R159 that can fail is that of a CSR number. -/
theorem assembledLineDecodes : Obligations.AssembledLineDecodes := by
  intro line w p h
  obtain ⟨m, op, operands, hop, hcommand⟩ := asmLine_eq_some h
  obtain ⟨csr, rfl, hcsr⟩ := asmCommand_word hcommand
  obtain ⟨hengine, hplain⟩ := asmOp_selField hop
  obtain ⟨hopc, -⟩ := asmWord_fields op.opcode op.selField csr
  refine (decodeWord_asmWord hengine hplain hcsr p).imp_right fun ⟨ho, herror⟩ => ⟨?_, herror⟩
  rw [← opcodeByte_mem_csrOpcodes, ← hopc] at ho
  simpa [fieldOpcode] using ho

end Sys2Proof.Machine
end

section
/-! PROOF. What each command does when it completes: one lemma per command for its whole next state, and the obligations on
commands read off them. -/

namespace Sys2Proof.Machine

/-! ## The commands that run in every STATE (40_context.md R210 to R230) -/

theorem exec_nop (s : State) : exec (.nop []) s = .next (s.answer 0 []) := by
  rw [exec, execNop]
  exact commandCycle_ok rfl rfl rfl

theorem exec_init {p : Bytes} (hp : p.length = 64) (s : State) :
    exec (.init p) s = .next ((s.loadContext (initSecret p) (initIvSend p) (initIvRecv p)).answer 0 []) := by
  rw [exec, execInit]
  exact commandCycle_ok rfl hp rfl

theorem exec_dispose (s : State) : exec (.dispose []) s = .next (s.disposeContext.answer 0 []) := by
  rw [exec, execDispose]
  exact commandCycle_ok rfl rfl rfl

theorem exec_csrr (c : Csr) (s : State) : exec (.csrr c []) s = .next (s.answer 0 (le64 (csrRead c s))) := by
  rw [exec, execCsrr]
  exact commandCycle_ok rfl rfl rfl

/-- A part of a payload that is put together from three is that part. -/
theorem sliceVec_append {n : Nat} (a : Bytes) (v : Vector Byte n) (b : Bytes) :
    sliceVec n (a ++ v.toList ++ b) a.length = v := by
  refine Vector.ext fun i hi => ?_
  have hv : i < v.toList.length := by simpa using hi
  rw [sliceVec, Vector.getElem_ofFn, List.getD_eq_getElem?_getD, List.append_assoc,
    List.getElem?_append_right (Nat.le_add_right _ _), Nat.add_sub_cancel_left, List.getElem?_append_left hv]
  simp [hi]

/-- INIT reads back the secret and the two IVs that its payload holds (30_encoding.md R158). -/
theorem exec_init_append (k : Secret) (a b : Block) (s : State) :
    exec (.init (k.toList ++ a.toList ++ b.toList)) s = .next ((s.loadContext k a b).answer 0 []) := by
  have hk : initSecret (k.toList ++ a.toList ++ b.toList) = k := by
    simpa [initSecret] using sliceVec_append [] k (a.toList ++ b.toList)
  have ha : initIvSend (k.toList ++ a.toList ++ b.toList) = a := by
    simpa [initIvSend] using sliceVec_append k.toList a b.toList
  have hb : initIvRecv (k.toList ++ a.toList ++ b.toList) = b := by
    simpa [initIvRecv] using sliceVec_append (k.toList ++ a.toList) b []
  rw [exec_init (by simp), hk, ha, hb]

/-- Settles O29: NOP's own rule. -/
theorem nopCompletes : Obligations.NopCompletes := exec_nop

/-- Settles O30: INIT's rule on a payload put together from its three parts. -/
theorem initCompletes : Obligations.InitCompletes := exec_init_append

/-- Settles O31: DISPOSE's own rule. -/
theorem disposeCompletes : Obligations.DisposeCompletes := exec_dispose

theorem maxPlainLen_lt : Config.maxPlainLen < 2 ^ 32 := by
  have := Config.maxPlainExtra.isLt
  unfold Config.maxPlainLen
  omega

theorem maxWireLen_lt : maxWireLen < 2 ^ 64 := by
  have := maxPlainLen_lt
  unfold maxWireLen storedBound Config.tagLen
  omega

/-- A number put together from two fields. -/
theorem toNat_append_eq_add {m n : Nat} (a : BitVec m) (b : BitVec n) :
    (a ++ b).toNat = a.toNat * 2 ^ n + b.toNat := by
  rw [BitVec.toNat_append, ← Nat.shiftLeft_add_eq_or_of_lt b.isLt, Nat.shiftLeft_eq]

/-- The fields of the CSR FAULT, as a number (10_state.md R64). -/
theorem toNat_faultFields (opc cause kind : Byte) :
    ((opc ++ cause ++ kind).zeroExtend 64).toNat = kind.toNat + 2 ^ 8 * cause.toNat + 2 ^ 16 * opc.toNat := by
  have hopc := opc.isLt
  have hcause := cause.isLt
  have hkind := kind.isLt
  rw [BitVec.zeroExtend, BitVec.toNat_setWidth, toNat_append_eq_add, toNat_append_eq_add]
  omega

/-- Settles O32: the value of each CSR as a number. -/
theorem csrrCompletes : Obligations.CsrrCompletes := by
  intro c s
  rw [exec_csrr, le64]
  cases c with
  | fault => simp only [csrRead, toNat_faultFields]
  | state => cases h : s.state <;> simp [csrRead, h, stateCode]
  | maxPlainLen =>
    have := maxPlainLen_lt
    simp only [csrRead, BitVec.toNat_ofNat, Nat.mod_eq_of_lt (lt_trans this (by decide : 2 ^ 32 < 2 ^ 64))]
  | maxWireLen => simp only [csrRead, BitVec.toNat_ofNat, Nat.mod_eq_of_lt maxWireLen_lt]
  | compLevel => simp only [csrRead, BitVec.zeroExtend, BitVec.toNat_setWidth_of_le (by decide : 4 ≤ 64)]
  | _ => rfl

/-! ## The commands that need no context (40_context.md R232; 43_compression.md R390, R391) -/

/-- Past the length check and outside FAULTED a command performs. -/
theorem commandCycle_outsideFaulted (i : Instr) {perform : State → Result} {s : State} (hs : s.state ≠ .faulted)
    (hl : lengthAdmitted i) : commandCycle i perform s = bumpResult (perform s) :=
  commandCycle_perform (.inl hs) ((admitsLength_iff i).mpr hl)

/-- The operand of CSRW and of TAG is the number that its eight bytes hold (30_encoding.md R158). -/
theorem operandLE64_append (v : Word64) (p : Bytes) : operandLE64 (leBytes 8 v.toNat ++ p) = v := by
  rw [operandLE64, List.take_left' (leBytes_length _ _)]
  exact ofNat_fromLE_le64 v

/-- Settles O33: the three ends of CSRW's Perform, in their order. -/
theorem csrwCompletes : Obligations.CsrwCompletes := by
  intro c v s hs
  have hv : operandLE64 (leBytes 8 v.toNat) = v := by simpa using operandLE64_append v []
  have hlevel : v.extractLsb' 0 4 = BitVec.ofNat 4 v.toNat := by
    apply BitVec.eq_of_toNat_eq
    rw [BitVec.extractLsb'_toNat, BitVec.toNat_ofNat, Nat.shiftRight_zero]
  have hl : lengthAdmitted (.csrw c (leBytes 8 v.toNat)) := leBytes_length 8 v.toNat
  rw [exec, execCsrw, commandCycle_outsideFaulted _ hs hl, performCsrw, hv, hlevel]
  split_ifs
  · rw [bumpResult_next, refuse_bumpSeq]; rfl
  · rw [bumpResult_next, refuse_bumpSeq]; rfl
  · rw [bumpResult_next, respond_ok_bumpSeq]; rfl

theorem exec_deflate {p : Bytes} {s : State} (hs : s.state ≠ .faulted) (hp : p.length ≤ Config.maxPlainLen) :
    exec (.deflate p) s = .next (s.answer 0 (deflateLevel s.compLevel p)) := by
  rw [exec, execDeflate, commandCycle_outsideFaulted (.deflate p) hs hp, bumpResult_next, respond_ok_bumpSeq]

/-- Settles O37: DEFLATE's rule, the level selected as `deflateLevel` does. -/
theorem deflateCompletes : Obligations.DeflateCompletes := fun _ _ => exec_deflate

theorem exec_inflate_ok {c p : Bytes} {s : State} (hs : s.state ≠ .faulted) (hc : c.length ≤ maxWireLen - 8)
    (hp : inflate c = .ok p) : exec (.inflate c) s = .next (s.answer 0 p) := by
  rw [exec, execInflate, commandCycle_outsideFaulted (.inflate c) hs hc]
  simp only [hp]
  rw [bumpResult_next, respond_ok_bumpSeq]

theorem exec_inflate_error {c : Bytes} {e : DecodeCause} {s : State} (hs : s.state ≠ .faulted)
    (hc : c.length ≤ maxWireLen - 8) (he : inflate c = .error e) :
    exec (.inflate c) s = .next (s.faultedBy 2 (decodeCode e) 0x31) := by
  rw [exec, execInflate, commandCycle_outsideFaulted (.inflate c) hs hc]
  simp only [he]
  exact congrArg Host.Outcome.next (raise_bumpSeq s .decode (decodeCode e) .inflate)

/-- Settles O38: the two outcomes of Inflate. -/
theorem inflateCompletes : Obligations.InflateCompletes := fun _ _ hs hc =>
  ⟨fun _ => exec_inflate_ok hs hc, fun _ => exec_inflate_error hs hc⟩

/-! ## The commands that need a context (40_context.md R201) -/

theorem State.hasContext.not_faulted {s : State} {k : Context} (hk : s.hasContext k) : s.state ≠ .faulted := by
  simp [hk.1]

/-- With its context, a command of an admitted length performs with it. -/
theorem contextCycle_perform (i : Instr) {opc : Opcode} {s : State} {k : Context} {perform : State → Context → Result}
    (hk : s.hasContext k) (hl : lengthAdmitted i) :
    commandCycle i (fun s => requireContext opc s (perform s)) s = bumpResult (perform s k) := by
  rw [commandCycle_outsideFaulted i hk.not_faulted hl, requireContext_ready hk]

theorem exec_tag {c : Word64} {p : Bytes} {k : Context} {s : State} (hk : s.hasContext k)
    (hp : 8 + p.length ≤ maxWireLen) :
    exec (.tag (leBytes 8 c.toNat ++ p)) s = .next (s.answer 0 (tag c p k.secret)) := by
  have hl : lengthAdmitted (.tag (leBytes 8 c.toNat ++ p)) := by
    simpa [lengthAdmitted, instrOpcode, Instr.payload] using hp
  have hdata : tagData (leBytes 8 c.toNat ++ p) = p := List.drop_left' (leBytes_length _ _)
  rw [exec, execTag, contextCycle_perform _ hk hl, operandLE64_append, hdata, bumpResult_next, respond_ok_bumpSeq]

theorem exec_encrypt {p : Bytes} {k : Context} {s : State} (e : Engine) (hk : s.hasContext k)
    (hp : p.length ≤ maxWireLen) :
    exec (.encrypt e p) s =
      .next ((s.setSr e (enc k.secret (k.sr e) p).2).answer 0 (enc k.secret (k.sr e) p).1) := by
  rw [exec, execEncrypt, contextCycle_perform (.encrypt e p) hk hp, bumpResult_next, respond_ok_bumpSeq]

theorem exec_decrypt {p : Bytes} {k : Context} {s : State} (e : Engine) (hk : s.hasContext k)
    (hp : p.length ≤ maxWireLen) :
    exec (.decrypt e p) s =
      .next ((s.setSr e (dec k.secret (k.sr e) p).2).answer 0 (dec k.secret (k.sr e) p).1) := by
  rw [exec, execDecrypt, contextCycle_perform (.decrypt e p) hk hp, bumpResult_next, respond_ok_bumpSeq]

/-- Settles O34: TAG's rule, on a payload put together from the counter and the data. -/
theorem tagCompletes : Obligations.TagCompletes := fun _ _ _ _ => exec_tag

/-- Settles O35: ENCRYPT's rule for each engine. -/
theorem encryptCompletes : Obligations.EncryptCompletes := fun _ _ _ hk hp =>
  ⟨exec_encrypt .send hk hp, exec_encrypt .recv hk hp⟩

/-- Settles O36: DECRYPT's rule for each engine. -/
theorem decryptCompletes : Obligations.DecryptCompletes := fun _ _ _ hk hp =>
  ⟨exec_decrypt .send hk hp, exec_decrypt .recv hk hp⟩

/-! ## The packet commands (44_packet.md R450, R460) -/

theorem exec_encode {p : Bytes} {k : Context} {s : State} (hk : s.hasContext k) (hp : p.length ≤ Config.maxPlainLen) :
    exec (.encode p) s =
      .next
        { s.answer 0 (enc k.secret k.srS (framedUnit s.compLevel s.sendCtr k.secret p)).1 with
          srS := some (enc k.secret k.srS (framedUnit s.compLevel s.sendCtr k.secret p)).2
          sendCtr := s.sendCtr + 1 } := by
  rw [exec, execEncode, contextCycle_perform (.encode p) hk hp, performEncode, bumpResult_next, respond_ok_bumpSeq]
  rfl

/-- Settles O39: ENCODE's rule, the unit before enciphering being C and its tag. -/
theorem encodeCompletes : Obligations.EncodeCompletes := fun _ _ _ => exec_encode

theorem exec_decode_perform {unit : Bytes} {k : Context} {s : State} (hk : s.hasContext k)
    (hl : unit.length ≤ maxWireLen) : exec (.decode unit) s = bumpResult (performDecode unit s k) :=
  contextCycle_perform (.decode unit) hk hl

/-- What DECODE leaves when its unit has deciphered to C and the right tag, and C inflates. -/
theorem exec_decode_ok {unit c p : Bytes} {k : Context} {s : State} (hk : s.hasContext k)
    (hl : unit.length ≤ maxWireLen) (hunit : (dec k.secret k.srR unit).1 = c ++ tag s.recvCtr c k.secret)
    (hp : inflate c = .ok p) :
    exec (.decode unit) s =
      .next { s.answer 0 p with srR := some (dec k.secret k.srR unit).2, recvCtr := s.recvCtr + 1 } := by
  have hmatch : tagsMatch (tag s.recvCtr c k.secret) (tag s.recvCtr c k.secret) = true :=
    (tagsMatch_iff_eq (tag_length _ _ _) (tag_length _ _ _)).mpr rfl
  rw [exec_decode_perform hk hl, performDecode_eq hunit (tag_length _ _ _), hp]
  simp only [hmatch, Bool.true_eq_false, if_false]
  rw [bumpResult_next, respond_ok_bumpSeq]
  rfl

/-- Settles O40: DECODE's rule for a good unit. -/
theorem decodeCompletes : Obligations.DecodeCompletes := fun _ _ _ _ _ => exec_decode_ok

/-- A DECODE past RequireContext that raises a fault has moved RECV_CTR before it. -/
theorem bumpResult_raise_counted (s : State) (b : Block) (kind : FaultKind) (cause : Byte) :
    bumpResult (.next (({ s with srR := some b, recvCtr := s.recvCtr + 1 } : State).raise kind cause .decode)) =
      .next (({ s with recvCtr := s.recvCtr + 1 } : State).faultedBy (faultKindCode kind) cause 0x41) := by
  rw [bumpResult_next, raise_bumpSeq]
  rfl

/-- A unit that does not hold a tag is SHORT_UNIT. -/
theorem exec_decode_short {unit : Bytes} {k : Context} {s : State} (hk : s.hasContext k)
    (hl : unit.length ≤ maxWireLen) (hshort : unit.length < 8) :
    exec (.decode unit) s = .next (({ s with recvCtr := s.recvCtr + 1 } : State).faultedBy 3 2 0x41) := by
  have htag : (dec k.secret k.srR unit).1.length < Config.tagLen := by rwa [dec_length]
  rw [exec_decode_perform hk hl, performDecode, finishDecode, if_pos htag, bumpResult_raise_counted]
  rfl

/-- A unit whose last 8 bytes are not the tag of the rest is TAG_MISMATCH. -/
theorem exec_decode_mismatch {unit c t : Bytes} {k : Context} {s : State} (hk : s.hasContext k)
    (hl : unit.length ≤ maxWireLen) (ht : t.length = 8) (hunit : (dec k.secret k.srR unit).1 = c ++ t)
    (hne : t ≠ tag s.recvCtr c k.secret) :
    exec (.decode unit) s = .next (({ s with recvCtr := s.recvCtr + 1 } : State).faultedBy 3 1 0x41) := by
  have hmatch : tagsMatch (tag s.recvCtr c k.secret) t = false := by
    rw [← Bool.not_eq_true, tagsMatch_iff_eq (tag_length _ _ _) ht]
    exact Ne.symm hne
  rw [exec_decode_perform hk hl, performDecode_eq hunit ht]
  simp only [hmatch, if_true]
  exact bumpResult_raise_counted s _ .integrity 1

/-- A payload with the right tag that does not inflate is the DecodeFault of Inflate. -/
theorem exec_decode_decodeFault {unit c : Bytes} {e : DecodeCause} {k : Context} {s : State} (hk : s.hasContext k)
    (hl : unit.length ≤ maxWireLen) (hunit : (dec k.secret k.srR unit).1 = c ++ tag s.recvCtr c k.secret)
    (he : inflate c = .error e) :
    exec (.decode unit) s =
      .next (({ s with recvCtr := s.recvCtr + 1 } : State).faultedBy 2 (decodeCode e) 0x41) := by
  have hmatch : tagsMatch (tag s.recvCtr c k.secret) (tag s.recvCtr c k.secret) = true :=
    (tagsMatch_iff_eq (tag_length _ _ _) (tag_length _ _ _)).mpr rfl
  rw [exec_decode_perform hk hl, performDecode_eq hunit (tag_length _ _ _), he]
  simp only [hmatch, Bool.true_eq_false, if_false]
  exact bumpResult_raise_counted s _ .decode (decodeCode e)

/-- A unit of 8 bytes or fewer faults: without a tag, with a wrong one, or because an empty payload is TRUNCATED. -/
theorem exec_decode_atMostTag {unit : Bytes} {k : Context} {s : State} (hk : s.hasContext k)
    (hl : unit.length ≤ maxWireLen) (h8 : unit.length ≤ 8) :
    ∃ kind cause, exec (.decode unit) s =
      .next (({ s with recvCtr := s.recvCtr + 1 } : State).faultedBy kind cause 0x41) := by
  by_cases hshort : unit.length < 8
  · exact ⟨_, _, exec_decode_short hk hl hshort⟩
  have hlen : (dec k.secret k.srR unit).1.length = 8 := by rw [dec_length]; omega
  by_cases htag : (dec k.secret k.srR unit).1 = tag s.recvCtr [] k.secret
  · exact ⟨_, _, exec_decode_decodeFault hk hl (c := []) htag (e := .truncated) rfl⟩
  · exact ⟨_, _, exec_decode_mismatch hk hl hlen (c := []) rfl htag⟩

/-- Settles O41: the fault of each check, in the order of the checks. -/
theorem decodeFaultPaths : Obligations.DecodeFaultPaths := by
  refine fun unit k s hk hl => ⟨exec_decode_short hk hl, fun c t => exec_decode_mismatch hk hl,
    fun c e => exec_decode_decodeFault hk hl, fun h8 => ?_⟩
  obtain ⟨kind, cause, he⟩ := exec_decode_atMostTag hk hl h8
  exact ⟨_, he, rfl, rfl⟩

/-! ## Reset (10_state.md R50, R76) -/

/-- Settles O13: COMP_LEVEL's width holds every level, and each other value is the one written. -/
theorem resetValues : Obligations.ResetValues :=
  ⟨rfl, rfl, rfl, rfl, rfl, rfl, rfl, rfl, rfl, rfl, rfl, rfl, reset_compLevel_toNat, rfl, rfl⟩

/-- Settles O27: no context and no record in UNINIT, and a default level within R10's range. -/
theorem invAtReset : Obligations.InvAtReset := by
  refine ⟨⟨by decide, by decide, by decide⟩, ?level, ?record⟩
  case record => exact ⟨by decide, fun _ => rfl, fun _ => ⟨rfl, rfl, rfl⟩, by decide⟩
  case level =>
    rw [State.levelInv, reset_compLevel_toNat]
    exact Nat.le_of_lt_succ Config.defaultCompLevel.isLt

end Sys2Proof.Machine
end

section
/-! PROOF. What every step keeps: the architectural invariant, and the legality of the responses. -/

namespace Sys2Proof.Machine

/-! ## The architectural invariant (10_state.md R50, R58, R68; 60_exceptions.md R614) -/

/-- What a command that ends with OK writes keeps the context present exactly in READY: an engine's register is written only
where the context was found. -/
theorem OkWrites.contextInv {i : Instr} {s u : State} (h : OkWrites i s u) (hs : s.contextInv) : u.contextInv := by
  cases h with
  | init p | dispose p => simp [State.contextInv]
  | encrypt e p _ k hk | decrypt e p _ k hk =>
    obtain ⟨hsecret, hsrS, hsrR⟩ := State.context_eq_some.mp hk
    cases e <;> simpa [State.contextInv, hsecret, hsrS, hsrR] using hs
  | encode p _ k hk | decode p _ k hk =>
    obtain ⟨hsecret, hsrS, hsrR⟩ := State.context_eq_some.mp hk
    simpa [State.contextInv, hsecret, hsrS, hsrR] using hs
  | _ => exact hs

/-- No command that ends with OK writes the fault record but INIT, which clears it. -/
theorem OkWrites.recordInv {i : Instr} {s u : State} (h : OkWrites i s u) (hs : s.recordInv) : u.recordInv := by
  obtain ⟨hkind, hrunning, hclear, hfaulted⟩ := hs
  cases h with
  | init p => simp [State.recordInv]
  | dispose p => exact ⟨hkind, by simp, hclear, by simp⟩
  | encrypt e p _ k hk | decrypt e p _ k hk =>
    cases e <;> exact ⟨hkind, hrunning, hclear, hfaulted⟩
  | _ => exact ⟨hkind, hrunning, hclear, hfaulted⟩

/-- A fatal fault leaves no context, and STATE FAULTED. -/
theorem contextInv_faultedBy (s : State) (kind cause opc : Byte) : (s.faultedBy kind cause opc).contextInv := by
  simp [State.contextInv, State.faultedBy]

/-- A fatal fault leaves the record of one of the three kinds. -/
theorem recordInv_faultedBy (s : State) (kind : FaultKind) (cause opc : Byte) :
    (s.faultedBy (faultKindCode kind) cause opc).recordInv := by
  cases kind <;> simp [State.recordInv, State.faultedBy, faultKindCode]

theorem Ends.contextInv {i : Instr} {s t : State} {r : Response} (h : Ends i s t r) (hs : s.contextInv) :
    t.contextInv := by
  cases h with
  | refused st cause _ => exact hs
  | faulted kind cause _ => exact contextInv_faultedBy ..
  | ok u out hu => exact hu.contextInv hs

theorem Ends.recordInv {i : Instr} {s t : State} {r : Response} (h : Ends i s t r) (hs : s.recordInv) : t.recordInv := by
  cases h with
  | refused st cause _ => exact hs
  | faulted kind cause _ => exact recordInv_faultedBy ..
  | ok u out hu => exact hu.recordInv hs

/-- Only CSRW writes COMP_LEVEL. -/
theorem OkWrites.compLevel_eq {i : Instr} {s u : State} (h : OkWrites i s u) (hi : instrOpcode i ≠ .csrw) :
    u.compLevel = s.compLevel := by
  cases h with
  | csrw p => exact absurd rfl hi
  | _ => simp

theorem Ends.compLevel_eq {i : Instr} {s t : State} {r : Response} (h : Ends i s t r) (hi : instrOpcode i ≠ .csrw) :
    t.compLevel = s.compLevel := by
  cases h with
  | refused st cause _ => rfl
  | faulted kind cause _ => rfl
  | ok u out hu => exact hu.compLevel_eq hi

/-- CSRW has refused every value above 9 before it writes. -/
theorem exec_csrw_levelInv {c : Csr} {p : Bytes} {s t : State} (h : exec (.csrw c p) s = .next t) (hs : s.levelInv) :
    t.levelInv := by
  obtain ⟨-, rfl⟩ | ⟨-, -, rfl⟩ | ⟨-, -, ⟨-, rfl⟩ | ⟨-, -, rfl⟩ | ⟨-, hv, rfl⟩⟩ := exec_next h
  case inr.inr.inr.inr =>
    rw [State.levelInv, BitVec.extractLsb'_toNat]
    exact (Nat.mod_le _ _).trans hv
  all_goals exact hs

theorem exec_levelInv {i : Instr} {s t : State} (h : exec i s = .next t) (hs : s.levelInv) : t.levelInv := by
  by_cases hi : instrOpcode i = .csrw
  · cases i <;> cases hi
    exact exec_csrw_levelInv h hs
  · obtain ⟨r, hr⟩ := exec_ends h
    rw [State.levelInv, hr.compLevel_eq hi]
    exact hs

/-- Every command keeps the invariant. -/
theorem exec_inv {i : Instr} {s t : State} (h : exec i s = .next t) (hs : s.Inv) : t.Inv := by
  obtain ⟨hcontext, hlevel, hrecord⟩ := hs
  obtain ⟨r, hr⟩ := exec_ends h
  exact ⟨hr.contextInv hcontext, exec_levelInv h hlevel, hr.recordInv hrecord⟩

/-- A step answers a next state wherever the context is as R50 says. -/
theorem step_answers {s : State} (hs : s.contextInv) : ∃ t, step s = .next t := by
  unfold step
  split
  · exact ⟨_, rfl⟩
  split
  · exact ⟨_, rfl⟩
  split
  · exact ⟨_, rfl⟩
  · exact ⟨_, rfl⟩
  · rename_i i rest _
    exact exec_answers (s := s.consumed rest) hs i

/-- Settles O26: reset leaves the invariant, and out of reset a step is a command, a refused word, or nothing. -/
theorem stepKeepsInv : Obligations.StepKeepsInv := by
  refine fun s hs => ⟨step_answers hs.1, fun t h => ?_⟩
  cases hr : s.rst with
  | true =>
    rw [step_of_rst hr h]
    exact invAtReset
  | false =>
    obtain rfl | ⟨c, rest, rfl⟩ | ⟨i, rest, he⟩ := step_running_cases hr h
    · exact hs
    · exact hs
    · exact exec_inv he hs

/-! ## The responses (30_encoding.md R155, R158; 60_exceptions.md R601) -/

/-- A plaintext, a compressed payload and a unit all fit MAX_WIRE_LEN. -/
theorem storedBound_add_tag_le_maxWireLen {n : Nat} (h : n ≤ Config.maxPlainLen) : storedBound n + 8 ≤ maxWireLen :=
  Nat.add_le_add_right (storedBound_mono h) Config.tagLen

theorem le_storedBound (n : Nat) : n ≤ storedBound n := by
  unfold storedBound
  omega

/-- What inflates is a plaintext: it fits MAX_PLAIN_LEN. -/
theorem inflate_length_le {c p : Bytes} (h : inflate c = .ok p) : p.length ≤ Config.maxPlainLen := by
  unfold inflate at h
  split at h
  · cases h
  · rename_i blocks out hread
    cases h
    obtain ⟨-, -, hlen⟩ := inflateFrom_ok hread
    exact hlen (Nat.zero_le _)

/-- A response added to those that wait has a payload within MAX_WIRE_LEN. -/
def AddsShort (s t : State) : Prop := ∃ w out, t.rspOut = s.rspOut ++ [⟨w, out⟩] ∧ out.length ≤ maxWireLen

theorem addsShort_faultedBy (s : State) (kind cause opc : Byte) : AddsShort s (s.faultedBy kind cause opc) :=
  ⟨_, _, rfl, Nat.zero_le _⟩

/-- A command that needs a context takes the EngineFault of RequireContext, of the cause that STATE says, or does what it
does with the context. -/
theorem of_context_cases {s t : State} {opc : Byte} {P : Context → Prop} {C : Prop}
    (h : (s.state = .uninit ∧ t = s.faultedBy 1 1 opc) ∨ (s.state = .disposed ∧ t = s.faultedBy 1 2 opc) ∨
      (s.state = .ready ∧ ∃ k : Context, s.context = some k ∧ P k))
    (hfault : ∀ cause, (s.state = .uninit ∧ cause = 1) ∨ (s.state = .disposed ∧ cause = 2) →
      t = s.faultedBy 1 cause opc → C)
    (hP : ∀ k, P k → C) : C := by
  obtain ⟨hs, ht⟩ | ⟨hs, ht⟩ | ⟨-, k, -, hk⟩ := h
  · exact hfault 1 (.inl ⟨hs, rfl⟩) ht
  · exact hfault 2 (.inr ⟨hs, rfl⟩) ht
  · exact hP k hk

/-- The payload of every response fits MAX_WIRE_LEN: those of the cipher are as long as IN, those of the packet commands and
of the compressor are bounded by that of the longest plaintext. -/
theorem exec_addsShort {i : Instr} {s t : State} (h : exec i s = .next t) : AddsShort s t := by
  have hwire := two_pow_le_maxWireLen
  have hengine {opc : Byte} (cause : Byte) (_ : (s.state = .uninit ∧ cause = 1) ∨ (s.state = .disposed ∧ cause = 2))
      (ht : t = s.faultedBy 1 cause opc) : AddsShort s t := ht ▸ addsShort_faultedBy ..
  obtain ⟨-, rfl⟩ | ⟨-, -, rfl⟩ | ⟨-, hl, h⟩ := exec_next h
  · exact ⟨_, _, rfl, Nat.zero_le _⟩
  · exact ⟨_, _, rfl, Nat.zero_le _⟩
  cases i with
  | nop p | init p | dispose p =>
    obtain rfl : t = _ := h
    exact ⟨_, _, rfl, Nat.zero_le _⟩
  | csrr c p =>
    obtain rfl : t = _ := h
    exact ⟨_, _, rfl, by rw [le64_length]; omega⟩
  | csrw c p =>
    obtain ⟨-, rfl⟩ | ⟨-, -, rfl⟩ | ⟨-, -, rfl⟩ := h
    all_goals exact ⟨_, _, rfl, Nat.zero_le _⟩
  | tag p =>
    refine of_context_cases h hengine ?_
    rintro k rfl
    exact ⟨_, _, rfl, by rw [tag_length]; omega⟩
  | encrypt e p | decrypt e p =>
    refine of_context_cases h hengine ?_
    rintro k rfl
    have hp : p.length ≤ maxWireLen := hl
    exact ⟨_, _, congrArg (· ++ _) (State.setSr_rspOut ..), by simpa using hp⟩
  | deflate p =>
    obtain rfl : t = _ := h
    have hfits := storedBound_add_tag_le_maxWireLen (n := p.length) hl
    exact ⟨_, _, rfl, (deflateLevel_length_le _ p).trans (by omega)⟩
  | inflate p =>
    obtain ⟨e, -, rfl⟩ | ⟨q, hq, rfl⟩ := h
    · exact addsShort_faultedBy ..
    · have hfits := storedBound_add_tag_le_maxWireLen (inflate_length_le hq)
      exact ⟨_, _, rfl, (le_storedBound _).trans (by omega)⟩
  | encode p =>
    refine of_context_cases h hengine ?_
    rintro k rfl
    have hfits := storedBound_add_tag_le_maxWireLen (n := p.length) hl
    have hunit := deflateLevel_length_le s.compLevel p
    exact ⟨_, _, rfl, by rw [wireUnit_length]; omega⟩
  | decode p =>
    refine of_context_cases h hengine ?_
    rintro k (⟨-, rfl⟩ | ⟨-, c, u, -, -, ⟨-, rfl⟩ | ⟨-, ⟨e, -, rfl⟩ | ⟨q, hq, rfl⟩⟩⟩)
    · exact ⟨_, _, rfl, Nat.zero_le _⟩
    · exact ⟨_, _, rfl, Nat.zero_le _⟩
    · exact ⟨_, _, rfl, Nat.zero_le _⟩
    · have hfits := storedBound_add_tag_le_maxWireLen (inflate_length_le hq)
      exact ⟨_, _, rfl, (le_storedBound _).trans (by omega)⟩

/-- A response headed by a status word is legal where only OK comes with a payload, and the payload is short enough. -/
theorem legal_statusWord {st : Status} {cause : Byte} {out : Bytes} (hout : st ≠ .ok → out = [])
    (hlen : out.length ≤ maxWireLen) : (⟨statusWord st cause, out⟩ : Response).legal := by
  refine ⟨?kind, statusWord_high st cause, fun hst => hout ?notOk, hlen⟩
  case kind =>
    rw [Response.status_statusWord, Response.isFault_statusWord, Response.isRefusal_statusWord]
    cases st <;> simp [statusCode]
  case notOk =>
    rintro rfl
    exact hst (Response.status_statusWord .ok cause out)

/-- However a command ends, its response is legal. -/
theorem Ends.legal {i : Instr} {s t : State} {r : Response} (h : Ends i s t r) (hlen : r.out.length ≤ maxWireLen) :
    r.legal := by
  cases h with
  | refused st cause _ => exact legal_statusWord (fun _ => rfl) hlen
  | faulted kind cause _ => exact legal_statusWord (fun _ => rfl) hlen
  | ok u out _ => exact legal_statusWord (fun h => absurd rfl h) hlen

/-- A command adds one legal response. -/
theorem exec_adds_legal {i : Instr} {s t : State} (h : exec i s = .next t) :
    ∃ r : Response, t.rspOut = s.rspOut ++ [r] ∧ r.legal := by
  obtain ⟨w, out, hr, hlen⟩ := exec_addsShort h
  exact ⟨_, hr, (exec_ends_with h hr).legal hlen⟩

/-- Settles O28: a step adds no response, that of a refused word, or that of a command. -/
theorem stepKeepsResponsesLegal : Obligations.StepKeepsResponsesLegal := by
  intro s t hs h
  have hadded {r : Response} (ho : t.rspOut = s.rspOut ++ [r]) (hr : r.legal) : ∀ r ∈ t.rspOut, r.legal := by
    rw [ho, List.forall_mem_append]
    exact ⟨hs, by simpa using hr⟩
  cases hrst : s.rst with
  | true =>
    rw [step_of_rst hrst h]
    exact fun r hr => absurd hr List.not_mem_nil
  | false =>
    obtain rfl | ⟨c, rest, rfl⟩ | ⟨i, rest, he⟩ := step_running_cases hrst h
    · exact hs
    · exact hadded (State.illegalCommand_rspOut ..) (legal_statusWord (fun _ => rfl) (Nat.zero_le _))
    · obtain ⟨r, ho, hr⟩ := exec_adds_legal he
      exact hadded ho hr

end Sys2Proof.Machine
end

section
/-! PROOF. Which faults each command can take. -/

namespace Sys2Proof.Machine

/-! ## Faults by command (60_exceptions.md R602) -/

/-- One step adds one response, so two accounts of it agree. -/
theorem added_response_eq {t : State} {rs : List Response} {r r' : Response} (h : t.rspOut = rs ++ [r])
    (h' : t.rspOut = rs ++ [r']) : r = r' := by
  simpa using h.symm.trans h'

/-- A command with a fault for its response runs outside FAULTED, and is one of those that can take a fault. -/
theorem not_faulted_of_isFault {i : Instr} {s t : State} {r : Response} (h : exec i s = .next t)
    (hr : t.rspOut = s.rspOut ++ [r]) (hfault : r.isFault = true) :
    s.state ≠ .faulted ∧ (usesContext i ∨ instrOpcode i = .inflate) := by
  have hends := exec_ends_with h hr
  have hi : usesContext i ∨ instrOpcode i = .inflate := by
    cases hends with
    | refused st cause hst => fin_cases hst <;> simp at hfault
    | faulted kind cause hi => exact hi
    | ok u out _ => simp at hfault
  refine ⟨fun hs => ?_, hi⟩
  have hg : gated i s := by
    refine ⟨hs, ?_⟩
    rcases hi with hi | hi
    · simp only [usesContext, List.mem_cons, List.not_mem_nil, or_false] at hi
      rcases hi with hi | hi | hi | hi | hi <;> simp [hi]
    · simp [hi]
  rw [exec_gated hg] at h
  obtain rfl := Host.Outcome.next.inj h
  obtain rfl := added_response_eq hr rfl
  exact (Response.isFault_statusWord .rejected s.faultKind []).not.mpr (by decide) hfault

/-- The response `r` says that RequireContext raised in `s`. -/
def Response.IsEngineFaultIn (r : Response) (s : State) : Prop :=
  r.status = 0x01 ∧ ((s.state = .uninit ∧ r.cause = 1) ∨ (s.state = .disposed ∧ r.cause = 2))

/-- The response `r` is a DecodeFault of one of the causes of 43_compression.md R382. -/
def Response.IsDecodeFault (r : Response) : Prop := r.status = 0x02 ∧ 1 ≤ r.cause.toNat ∧ r.cause.toNat ≤ 9

theorem decodeCode_range (e : DecodeCause) : 1 ≤ (decodeCode e).toNat ∧ (decodeCode e).toNat ≤ 9 := by
  cases e <;> decide

/-- The response of a fatal fault of a kind, by its record. -/
theorem status_cause_of_faultedBy {s u t : State} {r : Response} (kind : FaultKind) {cause opc : Byte}
    (hu : u.rspOut = s.rspOut) (ht : t = u.faultedBy (faultKindCode kind) cause opc) (hr : t.rspOut = s.rspOut ++ [r]) :
    r.status = faultKindCode kind ∧ r.cause = cause := by
  have ht' : t.rspOut = s.rspOut ++ [⟨statusWord (faultStatus kind) cause, []⟩] := by
    rw [ht, ← hu]
    cases kind <;> rfl
  obtain rfl := added_response_eq hr ht'
  simp

theorem isDecodeFault_of_faultedBy {s u t : State} {r : Response} {e : DecodeCause} {opc : Byte}
    (hu : u.rspOut = s.rspOut) (ht : t = u.faultedBy 2 (decodeCode e) opc) (hr : t.rspOut = s.rspOut ++ [r]) :
    r.IsDecodeFault := by
  obtain ⟨hstatus, hcause⟩ := status_cause_of_faultedBy .decode hu ht hr
  exact ⟨hstatus, hcause ▸ decodeCode_range e⟩

/-- A command that ends with OK has no fault for its response. -/
theorem not_isFault_of_ok {s t : State} {r : Response} {out : Bytes} (hr : t.rspOut = s.rspOut ++ [r])
    (ht : t.rspOut = s.rspOut ++ [⟨0, out⟩]) : ¬ r.isFault = true := by
  obtain rfl := added_response_eq hr ht
  exact (Response.isFault_statusWord .ok 0 out).not.mpr (by decide)

theorem isEngineFaultIn_of_faultedBy {s t : State} {r : Response} {opc : Byte} (hr : t.rspOut = s.rspOut ++ [r])
    (cause : Byte) (hs : (s.state = .uninit ∧ cause = 1) ∨ (s.state = .disposed ∧ cause = 2))
    (ht : t = s.faultedBy 1 cause opc) : r.IsEngineFaultIn s := by
  obtain ⟨hstatus, rfl⟩ := status_cause_of_faultedBy .engine rfl ht hr
  exact ⟨hstatus, hs⟩

/-- Settles O20: the gate keeps faults out of FAULTED, and each command's own rule says which it takes. -/
theorem faultsByCommand : Obligations.FaultsByCommand := by
  intro i s t r h hr hfault
  obtain ⟨hs, hi⟩ := not_faulted_of_isFault h hr hfault
  refine ⟨hs, ?_⟩
  obtain ⟨hg, -⟩ | ⟨-, -, rfl⟩ | ⟨-, hl, h⟩ := exec_next h
  · exact absurd hg.1 hs
  · obtain rfl := added_response_eq hr rfl
    exact absurd hfault (Bool.not_eq_true _ |>.mpr rfl)
  cases i with
  | tag p | encode p =>
    refine of_context_cases h (isEngineFaultIn_of_faultedBy hr) ?_
    rintro k rfl
    exact absurd hfault (not_isFault_of_ok hr rfl)
  | encrypt e p | decrypt e p =>
    refine of_context_cases h (isEngineFaultIn_of_faultedBy hr) ?_
    rintro k rfl
    exact absurd hfault (not_isFault_of_ok hr (congrArg (· ++ _) (State.setSr_rspOut ..)))
  | inflate p =>
    obtain ⟨e, -, ht⟩ | ⟨q, -, rfl⟩ := h
    · exact isDecodeFault_of_faultedBy rfl ht hr
    · exact absurd hfault (not_isFault_of_ok hr rfl)
  | decode p =>
    refine of_context_cases h (fun cause hs ht => .inl (isEngineFaultIn_of_faultedBy hr cause hs ht)) ?_
    rintro k (⟨hshort, ht⟩ | ⟨hlong, c, u, -, -, ⟨-, ht⟩ | ⟨-, ⟨e, -, ht⟩ | ⟨q, -, rfl⟩⟩⟩)
    · obtain ⟨hstatus, hcause⟩ := status_cause_of_faultedBy .integrity rfl ht hr
      exact .inr (.inr ⟨hstatus, .inl ⟨hcause, hshort⟩⟩)
    · obtain ⟨hstatus, hcause⟩ := status_cause_of_faultedBy .integrity rfl ht hr
      exact .inr (.inr ⟨hstatus, .inr ⟨hcause, hlong⟩⟩)
    · exact .inr (.inl (isDecodeFault_of_faultedBy rfl ht hr))
    · exact absurd hfault (not_isFault_of_ok hr rfl)
  | _ => simp [usesContext, instrOpcode] at hi

end Sys2Proof.Machine
end

section
/-! PROOF. What a command does not see: the secret and the engines reach only the commands of the cipher, the tag and the
packets, and each direction is blind to what the other moves. -/

namespace Sys2Proof.Machine

/-! ## Commands that respect a forgetting of state -/

/-- `f` does the same on states that are alike once `N` has forgotten a part of each: it makes the same response, and what it
leaves is alike again. -/
def Respects (N : State → State) (f : State → Result) : Prop :=
  ∀ s e t, N s = N e → f s = .next t →
    ∃ r e', f e = .next e' ∧ t.rspOut = s.rspOut ++ [r] ∧ e'.rspOut = e.rspOut ++ [r] ∧ N t = N e'

/-- What the command cycle asks of a forgetting: it keeps what the gate reads, and commutes with the ends of a command. -/
structure Forgets (N : State → State) : Prop where
  state (s : State) : (N s).state = s.state
  faultKind (s : State) : (N s).faultKind = s.faultKind
  respond (s : State) (st : Status) (cause : Byte) (out : Bytes) :
    N (s.respond st cause out) = N ((N s).respond st cause out)
  bumpSeq (s : State) : N s.bumpSeq = N (N s).bumpSeq
  raise (s : State) (kind : FaultKind) (cause : Byte) (opc : Opcode) :
    N (s.raise kind cause opc) = N ((N s).raise kind cause opc)

section
variable {N : State → State} (hN : Forgets N)
include hN

theorem Forgets.state_eq {s e : State} (h : N s = N e) : s.state = e.state := by
  rw [← hN.state s, h, hN.state]

theorem Forgets.faultKind_eq {s e : State} (h : N s = N e) : s.faultKind = e.faultKind := by
  rw [← hN.faultKind s, h, hN.faultKind]

theorem Forgets.respond_eq {s e : State} (h : N s = N e) (st : Status) (cause : Byte) (out : Bytes) :
    N (s.respond st cause out) = N (e.respond st cause out) := by
  rw [hN.respond s, h, ← hN.respond]

theorem Forgets.bumpSeq_eq {s e : State} (h : N s = N e) : N s.bumpSeq = N e.bumpSeq := by
  rw [hN.bumpSeq s, h, ← hN.bumpSeq]

theorem Forgets.raise_eq {s e : State} (h : N s = N e) (kind : FaultKind) (cause : Byte) (opc : Opcode) :
    N (s.raise kind cause opc) = N (e.raise kind cause opc) := by
  rw [hN.raise s, h, ← hN.raise]

/-- A Perform step of one response, on a state and with a payload that do not depend on what is forgotten. -/
theorem respects_respond {f : State → Result} (g : State → State) (st : Status) (cause : Byte) (out : State → Bytes)
    (hf : ∀ s, f s = .next ((g s).respond st cause (out s))) (hg : ∀ s, N (g s) = N (g (N s)))
    (hrsp : ∀ s, (g s).rspOut = s.rspOut) (hout : ∀ s, out (N s) = out s) : Respects N f := by
  intro s e t h ht
  obtain rfl := Host.Outcome.next.inj ((hf s).symm.trans ht)
  have ho : out s = out e := by rw [← hout s, h, hout]
  refine ⟨_, _, hf e, by rw [State.respond_rspOut, hrsp], by rw [State.respond_rspOut, hrsp, ho], ?_⟩
  rw [ho]
  exact hN.respond_eq (by rw [hg s, h, ← hg]) ..

/-- The cycle respects what its Perform step does. -/
theorem respects_commandCycle {i : Instr} {perform : State → Result} (hp : Respects N perform) :
    Respects N (commandCycle i perform) := by
  intro s e t h ht
  have hstate := hN.state_eq h
  obtain ⟨hs, hi, rfl⟩ | ⟨hg, hl, rfl⟩ | ⟨hg, hl, u, hu, rfl⟩ := commandCycle_cases ht
  · refine ⟨_, _, commandCycle_gated (hstate ▸ hs) hi, rfl, by rw [hN.faultKind_eq h]; rfl, ?_⟩
    rw [hN.faultKind_eq h]
    exact hN.bumpSeq_eq (hN.respond_eq h ..)
  · exact ⟨_, _, commandCycle_badLength (hstate ▸ hg) hl, rfl, rfl, hN.bumpSeq_eq (hN.respond_eq h ..)⟩
  · obtain ⟨r, e', he, hr, hr', hne⟩ := hp s e u h hu
    refine ⟨r, e'.bumpSeq, ?_, hr, hr', hN.bumpSeq_eq hne⟩
    rw [commandCycle_perform (hstate ▸ hg) hl, he, bumpResult_next]

/-- CSRW's Perform step looks at its operands only. -/
theorem respects_performCsrw {c : Csr} {p : Bytes}
    (hwrite : ∀ (s : State) (l : BitVec 4), N { s with compLevel := l } = N { N s with compLevel := l })
    (hid : ∀ s, N (N s) = N s) : Respects N (performCsrw c p) := by
  unfold performCsrw
  by_cases hc : c ≠ .compLevel
  · exact respects_respond hN id .illegalCommand _ (fun _ => []) (fun _ => if_pos hc) (fun s => (hid s).symm)
      (fun _ => rfl) fun _ => rfl
  by_cases hv : 9 < (operandLE64 p).toNat
  · exact respects_respond hN id .illegalCommand _ (fun _ => []) (fun _ => (if_neg hc).trans (if_pos hv))
      (fun s => (hid s).symm) (fun _ => rfl) fun _ => rfl
  · exact respects_respond hN (fun s => { s with compLevel := (operandLE64 p).extractLsb' 0 4 }) .ok 0 (fun _ => [])
      (fun _ => (if_neg hc).trans (if_neg hv)) (fun s => hwrite s _) (fun _ => rfl) fun _ => rfl

end

/-! ## The secret and the engines (20_memory.md R103; 10_state.md R54, R55) -/

theorem hideContext_forgets : Forgets State.hideContext :=
  ⟨fun _ => rfl, fun _ => rfl, fun _ _ _ _ => rfl, fun _ => rfl, fun _ _ _ _ => rfl⟩

/-- A command that uses no context does the same whatever the context is. -/
theorem exec_respects_hideContext {i : Instr} (hi : ¬ usesContext i) : Respects State.hideContext (exec i) := by
  have hN := hideContext_forgets
  cases i with
  | nop p =>
    exact respects_commandCycle hN (respects_respond hN id .ok 0 (fun _ => []) (fun _ => rfl) (fun _ => rfl)
      (fun _ => rfl) fun _ => rfl)
  | init p =>
    exact respects_commandCycle hN (respects_respond hN (·.loadContext (initSecret p) (initIvSend p) (initIvRecv p)) .ok 0
      (fun _ => []) (fun _ => rfl) (fun _ => rfl) (fun _ => rfl) fun _ => rfl)
  | dispose p =>
    exact respects_commandCycle hN (respects_respond hN State.disposeContext .ok 0 (fun _ => []) (fun _ => rfl)
      (fun _ => rfl) (fun _ => rfl) fun _ => rfl)
  | csrr c p =>
    exact respects_commandCycle hN (respects_respond hN id .ok 0 (fun s => le64 (csrRead c s)) (fun _ => rfl)
      (fun _ => rfl) (fun _ => rfl) fun _ => by cases c <;> rfl)
  | csrw c p =>
    exact respects_commandCycle hN (respects_performCsrw hN (fun _ _ => rfl) fun _ => rfl)
  | deflate p =>
    exact respects_commandCycle hN (respects_respond hN id .ok 0 (fun s => deflateLevel s.compLevel p) (fun _ => rfl)
      (fun _ => rfl) (fun _ => rfl) fun _ => rfl)
  | inflate p =>
    refine respects_commandCycle hN ?_
    cases hp : inflate p with
    | error c =>
      intro s e t h ht
      cases ht
      exact ⟨_, _, rfl, rfl, rfl, hN.raise_eq h ..⟩
    | ok q =>
      exact respects_respond hN id .ok 0 (fun _ => q) (fun _ => rfl) (fun _ => rfl) (fun _ => rfl) fun _ => rfl
  | _ => exact absurd (by simp [usesContext, instrOpcode]) hi

/-- Settles O25: every command that uses no context respects the hiding of it. -/
theorem secretReachesOnlyCryptoCommands : Obligations.SecretReachesOnlyCryptoCommands := by
  intro i s s' t hi hs h
  obtain ⟨-, t', ht', -, -, hhide⟩ := exec_respects_hideContext hi s s' t hs h
  exact ⟨t', ht', hhide.symm⟩

end Sys2Proof.Machine
end

section
/-! PROOF. Runs of commands: what each direction of the packet path sees of a run, what the counters count, and the packets
that come back. -/

namespace Sys2Proof.Machine

/-! ## Runs, a response at a time (20_memory.md R110) -/

/-- `Runs f cs s rs t`: performed one after another from `s`, each by `f` on the state the one before it left, `cs` answer
the responses `rs` and leave `t`. -/
inductive Runs {α : Type} (f : α → State → Result) : List α → State → List Response → State → Prop
  | nil (s : State) : Runs f [] s [] s
  | cons {c : α} {cs : List α} {s u t : State} {r : Response} {rs : List Response} (hc : f c s = .next u)
    (hr : u.rspOut = s.rspOut ++ [r]) (h : Runs f cs u rs t) : Runs f (c :: cs) s (r :: rs) t

theorem Runs.rspOut_eq {α : Type} {f : α → State → Result} {cs : List α} {s t : State} {rs : List Response}
    (h : Runs f cs s rs t) : t.rspOut = s.rspOut ++ rs := by
  induction h with
  | nil s => simp
  | cons hc hr h ih => rw [ih, hr, List.append_assoc, List.singleton_append]

theorem Runs.length_eq {α : Type} {f : α → State → Result} {cs : List α} {s t : State} {rs : List Response}
    (h : Runs f cs s rs t) : rs.length = cs.length := by
  induction h with
  | nil s => rfl
  | cons hc hr h ih => rw [List.length_cons, List.length_cons, ih]

/-- A run of commands that answers a next state is a `Runs`. -/
theorem runs_of_runCommands {is : List Instr} {s t : State} (h : runCommands is s = .next t) :
    ∃ rs, Runs exec is s rs t := by
  induction is generalizing s with
  | nil => exact ⟨[], Host.Outcome.next.inj h ▸ .nil s⟩
  | cons i is ih =>
    rw [runCommands] at h
    split at h
    · rename_i u hu
      obtain ⟨r, hr⟩ := exec_ends hu
      obtain ⟨rs, hrs⟩ := ih h
      exact ⟨r :: rs, .cons hu hr.rspOut_eq hrs⟩
    · cases h
    · cases h

theorem Runs.runCommands_eq {is : List Instr} {s t : State} {rs : List Response} (h : Runs exec is s rs t) :
    runCommands is s = .next t := by
  induction h with
  | nil s => rfl
  | cons hc hr h ih => rw [runCommands, hc]; exact ih

/-- The same, with the responses that are known. -/
theorem runs_of_runCommands_with {is : List Instr} {s t : State} {rs : List Response} (h : runCommands is s = .next t)
    (hr : t.rspOut = s.rspOut ++ rs) : Runs exec is s rs t := by
  obtain ⟨rs', hrs⟩ := runs_of_runCommands h
  obtain rfl : rs' = rs := List.append_cancel_left (hrs.rspOut_eq.symm.trans hr)
  exact hrs

/-! ## What one direction sees (20_memory.md R116) -/

/-- The commands of the direction of an engine. -/
def inDirection : Engine → Instr → Bool
  | .send => ofSendDirection
  | .recv => ofRecvDirection

/-- The block that stands for a register of the other direction, of which no more is seen than that it is there. -/
def unseenBlock : Block := Vector.replicate 16 0

/-- What one direction sees of the state: the other engine is present or absent and no more, and the other counter, CMD_SEQ,
the responses and the rest of the fault record are not seen at all. -/
def State.seenBy : Engine → State → State
  | .send, s =>
    { s with
      srR := s.srR.map fun _ => unseenBlock
      recvCtr := 0, faultCause := 0, faultOpc := 0, faultSeq := 0, cmdSeq := 0, rspOut := [] }
  | .recv, s =>
    { s with
      srS := s.srS.map fun _ => unseenBlock
      sendCtr := 0, faultCause := 0, faultOpc := 0, faultSeq := 0, cmdSeq := 0, rspOut := [] }

/-- What one direction sees of a context. -/
def Context.seenBy : Engine → Context → Context
  | .send, k => { k with srR := unseenBlock }
  | .recv, k => { k with srS := unseenBlock }

theorem seenBy_forgets (d : Engine) : Forgets (State.seenBy d) := by
  cases d
  all_goals
    refine ⟨fun s => rfl, fun s => rfl, fun s st cause out => ?_, fun s => ?_, fun s kind cause opc => ?_⟩
    all_goals simp [State.seenBy, State.respond, State.bumpSeq, State.raise, State.dropContext, Function.comp_def]

/-- The context is seen exactly where it is there. -/
theorem context_seenBy (d : Engine) (s : State) : (s.seenBy d).context = s.context.map (Context.seenBy d) := by
  obtain ⟨_, secret, srS, srR⟩ := s
  cases d <;> cases secret <;> cases srS <;> cases srR <;> rfl

/-- RequireContext shows a direction no more than its own part of the context. -/
theorem respects_requireContext {d : Engine} {opc : Opcode} {perform : State → Context → Result}
    (hseen : ∀ s k, perform s (k.seenBy d) = perform s k) (hp : ∀ k, Respects (State.seenBy d) (perform · k)) :
    Respects (State.seenBy d) fun s => requireContext opc s (perform s) := by
  have hN := seenBy_forgets d
  intro s e t h ht
  have hstate := hN.state_eq h
  obtain ⟨hs, rfl⟩ | ⟨hs, rfl⟩ | ⟨hs, k, hsecret, hsrS, hsrR, hk⟩ := requireContext_cases ht
  · exact ⟨_, _, requireContext_uninit (hstate ▸ hs), rfl, rfl, hN.raise_eq h ..⟩
  · exact ⟨_, _, requireContext_disposed (hstate ▸ hs), rfl, rfl, hN.raise_eq h ..⟩
  · have hcontext : e.context.map (Context.seenBy d) = some (k.seenBy d) := by
      rw [← context_seenBy, ← h, context_seenBy, State.context_eq_some.mpr ⟨hsecret, hsrS, hsrR⟩, Option.map_some]
    obtain ⟨k', hk', hkk⟩ := Option.map_eq_some_iff.mp hcontext
    obtain ⟨r, e', he, hrest⟩ := hp k s e t h hk
    refine ⟨r, e', ?_, hrest⟩
    have hperform : perform e k' = .next e' := by
      rw [← hseen e k', hkk, hseen]
      exact he
    rw [hstate] at hs
    rcases hs with hs | hs <;> simpa only [requireContext, hs, hk'] using hperform

/-- What DECODE does with a deciphered unit does not depend on the rest of the state. -/
theorem finishDecode_cases (u : Bytes) (ctr : Word64) (secret : Secret) :
    (∃ kind cause, ∀ s, finishDecode u ctr secret s = .next (s.raise kind cause .decode)) ∨
      ∃ p, ∀ s, finishDecode u ctr secret s = .next (s.respond .ok 0 p) := by
  unfold finishDecode
  dsimp only
  split_ifs
  · exact .inl ⟨_, _, fun _ => rfl⟩
  · exact .inl ⟨_, _, fun _ => rfl⟩
  · split
    · exact .inl ⟨_, _, fun _ => rfl⟩
    · exact .inr ⟨_, fun _ => rfl⟩

theorem respects_performDecode (p : Bytes) (k : Context) : Respects (State.seenBy .recv) (performDecode p · k) := by
  have hN := seenBy_forgets .recv
  intro s e t h ht
  have hctr : s.recvCtr = e.recvCtr := by simpa [State.seenBy] using congrArg State.recvCtr h
  have hcounted (b : Block) : State.seenBy .recv { s with srR := some b, recvCtr := s.recvCtr + 1 } =
      State.seenBy .recv { e with srR := some b, recvCtr := e.recvCtr + 1 } := by
    have := congrArg (fun u : State => { u with srR := some b, recvCtr := u.recvCtr + 1 }) h
    exact this
  simp only [performDecode, hctr] at ht ⊢
  rw [hctr] at hcounted
  obtain ⟨kind, cause, hf⟩ | ⟨q, hf⟩ := finishDecode_cases (dec k.secret k.srR p).1 e.recvCtr k.secret
  all_goals
    rw [hf] at ht
    obtain rfl := Host.Outcome.next.inj ht
  · exact ⟨_, _, hf _, rfl, rfl, hN.raise_eq (hcounted _) ..⟩
  · exact ⟨_, _, hf _, rfl, rfl, hN.respond_eq (hcounted _) ..⟩

/-- A command of a direction does the same on states that the direction cannot tell apart. -/
theorem exec_respects_seenBy {d : Engine} {i : Instr} (hi : inDirection d i = true) :
    Respects (State.seenBy d) (exec i) := by
  have hN := seenBy_forgets d
  have hid (s : State) : (s.seenBy d).seenBy d = s.seenBy d := by
    cases d <;> simp [State.seenBy, Function.comp_def]
  cases i with
  | init p =>
    exact respects_commandCycle hN (respects_respond hN (·.loadContext (initSecret p) (initIvSend p) (initIvRecv p)) .ok 0
      (fun _ => []) (fun _ => rfl) (fun _ => by cases d <;> rfl) (fun _ => rfl) fun _ => rfl)
  | dispose p =>
    exact respects_commandCycle hN (respects_respond hN State.disposeContext .ok 0 (fun _ => []) (fun _ => rfl)
      (fun _ => by cases d <;> rfl) (fun _ => rfl) fun _ => rfl)
  | csrw c p =>
    exact respects_commandCycle hN (respects_performCsrw hN
      (fun _ _ => by cases d <;> simp [State.seenBy, Function.comp_def]) hid)
  | tag p =>
    exact respects_commandCycle hN (respects_requireContext (fun _ _ => by cases d <;> rfl) fun k =>
      respects_respond hN id .ok 0 (fun _ => tag (operandLE64 p) (tagData p) k.secret) (fun _ => rfl)
      (fun s => (hid s).symm) (fun _ => rfl) fun _ => rfl)
  | encrypt e p =>
    obtain rfl : e = d := by cases d <;> simpa [inDirection, ofSendDirection, ofRecvDirection] using hi
    exact respects_commandCycle hN (respects_requireContext (fun _ _ => by cases e <;> rfl) fun k =>
      respects_respond hN (·.setSr e (enc k.secret (k.sr e) p).2) .ok 0 (fun _ => (enc k.secret (k.sr e) p).1)
      (fun _ => rfl) (fun _ => by cases e <;> simp [State.seenBy, State.setSr, Function.comp_def])
      (fun _ => State.setSr_rspOut ..) fun _ => rfl)
  | decrypt e p =>
    obtain rfl : e = d := by cases d <;> simpa [inDirection, ofSendDirection, ofRecvDirection] using hi
    exact respects_commandCycle hN (respects_requireContext (fun _ _ => by cases e <;> rfl) fun k =>
      respects_respond hN (·.setSr e (dec k.secret (k.sr e) p).2) .ok 0 (fun _ => (dec k.secret (k.sr e) p).1)
      (fun _ => rfl) (fun _ => by cases e <;> simp [State.seenBy, State.setSr, Function.comp_def])
      (fun _ => State.setSr_rspOut ..) fun _ => rfl)
  | encode p =>
    obtain rfl : d = .send := by cases d <;> simp_all [inDirection, ofRecvDirection]
    exact respects_commandCycle hN (respects_requireContext (fun _ _ => rfl) fun k => respects_respond hN
      (fun s =>
        { s with
          srS := some (enc k.secret k.srS (framedUnit s.compLevel s.sendCtr k.secret p)).2
          sendCtr := s.sendCtr + 1 })
      .ok 0 (fun s => (enc k.secret k.srS (framedUnit s.compLevel s.sendCtr k.secret p)).1) (fun _ => rfl)
      (fun _ => by simp [State.seenBy, Function.comp_def]) (fun _ => rfl) fun _ => rfl)
  | decode p =>
    obtain rfl : d = .recv := by cases d <;> simp_all [inDirection, ofSendDirection]
    exact respects_commandCycle hN (respects_requireContext (fun _ _ => rfl) (respects_performDecode p))
  | _ => cases d <;> cases hi

/-- A command of neither kind, in a run without a fault, moves nothing that the direction sees. -/
theorem seenBy_eq_of_not_inDirection {d : Engine} {i : Instr} {s t : State} {r : Response} (hi : inDirection d i = false)
    (h : exec i s = .next t) (hr : t.rspOut = s.rspOut ++ [r]) (hfault : r.isFault = false) :
    t.seenBy d = s.seenBy d := by
  cases exec_ends_with h hr with
  | refused st cause _ => cases d <;> rfl
  | faulted kind cause _ =>
    have hkind : faultStatus kind ∈ [Status.engineFault, .decodeFault, .integrityFault] := by cases kind <;> decide
    rw [(Response.isFault_statusWord (faultStatus kind) cause []).mpr hkind] at hfault
    cases hfault
  | ok u out hu =>
    have hanswer : (u.answer (statusWord .ok 0) out).seenBy d = u.seenBy d := by cases d <;> rfl
    rw [hanswer]
    cases hu with
    | nop p | csrr c p | deflate p | inflate p => rfl
    | init p | dispose p | csrw p | tag p => cases d <;> cases hi
    | encrypt e p _ k hk | decrypt e p _ k hk =>
      obtain ⟨-, hsrS, hsrR⟩ := State.context_eq_some.mp hk
      cases d <;> cases e <;> simp_all [inDirection, ofSendDirection, ofRecvDirection, State.seenBy, State.setSr]
    | encode p _ k hk | decode p _ k hk =>
      obtain ⟨-, hsrS, hsrR⟩ := State.context_eq_some.mp hk
      cases d <;> simp_all [inDirection, ofSendDirection, ofRecvDirection, State.seenBy]

/-- What the run of a direction's commands alone answers: their responses in the whole run. -/
def directionResponses (d : Engine) (is : List Instr) (rs : List Response) : List Response :=
  ((is.zip rs).filter fun x => inDirection d x.1).map (·.2)

/-- A direction's commands alone, from a state that it cannot tell from the run's, answer as they do in the run. -/
theorem Runs.direction_alone {d : Engine} {is : List Instr} {s t : State} {rs : List Response} (h : Runs exec is s rs t)
    (hfree : faultFree rs = true) {e : State} (he : s.seenBy d = e.seenBy d) :
    ∃ te, Runs exec (is.filter (inDirection d)) e (directionResponses d is rs) te ∧ t.seenBy d = te.seenBy d := by
  induction h generalizing e with
  | nil s => exact ⟨e, .nil e, he⟩
  | @cons i is s u t r rs hi hr h ih =>
    obtain ⟨hr', hrs⟩ : r.isFault = false ∧ faultFree rs = true := by simpa [faultFree] using hfree
    cases hdir : inDirection d i with
    | true =>
      obtain ⟨r', e', hexec, hs, hr'', hseen⟩ := exec_respects_seenBy hdir s e u he hi
      obtain rfl := added_response_eq hr hs
      obtain ⟨te, hruns, hte⟩ := ih hrs hseen
      refine ⟨te, ?_, hte⟩
      simpa [directionResponses, hdir] using Runs.cons hexec hr'' hruns
    | false =>
      obtain ⟨te, hruns, hte⟩ := ih hrs ((seenBy_eq_of_not_inDirection hdir hi hr hr').trans he)
      refine ⟨te, ?_, hte⟩
      simpa [directionResponses, hdir] using hruns

/-- Settles O58: what a direction sees of the end of a run is its register and its counter. -/
theorem directionIndependence : Obligations.DirectionIndependence := by
  intro is s t rs h hr _ hfree
  have hruns := runs_of_runCommands_with h hr
  refine ⟨?send, ?recv⟩
  case send =>
    obtain ⟨te, hsend, hseen⟩ := hruns.direction_alone (d := .send) hfree rfl
    exact ⟨te, hsend.runCommands_eq, hsend.rspOut_eq, (congrArg State.srS hseen).symm,
      (congrArg State.sendCtr hseen).symm⟩
  case recv =>
    obtain ⟨te, hrecv, hseen⟩ := hruns.direction_alone (d := .recv) hfree rfl
    exact ⟨te, hrecv.runCommands_eq, hrecv.rspOut_eq, (congrArg State.srR hseen).symm,
      (congrArg State.recvCtr hseen).symm⟩

/-! ## What the counters count (10_state.md R56, R57; 44_packet.md R452, R462) -/

/-- An ENCODE that ended with OK. -/
def countsSent (x : Instr × Response) : Bool := instrOpcode x.1 == .encode && x.2.status == 0x00

/-- A DECODE that got past RequireContext. -/
def countsReceived (x : Instr × Response) : Bool :=
  instrOpcode x.1 == .decode && (x.2.status == 0x00 || x.2.status == 0x02 || x.2.status == 0x03)

/-- One command without INIT moves the counters as it is counted. -/
theorem exec_counters {i : Instr} {s t : State} {r : Response} (h : exec i s = .next t)
    (hr : t.rspOut = s.rspOut ++ [r]) (hi : instrOpcode i ≠ .init) :
    t.sendCtr = s.sendCtr + BitVec.ofNat 64 (if countsSent (i, r) then 1 else 0) ∧
      t.recvCtr = s.recvCtr + BitVec.ofNat 64 (if countsReceived (i, r) then 1 else 0) := by
  obtain ⟨hsend, hrecv⟩ := counterWrites.1 i s t r h hr
  rw [hsend, hrecv]
  simp only [hi, false_and, if_false, countsSent, countsReceived, Bool.and_eq_true, Bool.or_eq_true, beq_iff_eq, or_assoc]
  constructor <;> split_ifs <;> simp

/-- A run without INIT moves the counters as its commands are counted. -/
theorem Runs.counters {is : List Instr} {s t : State} {rs : List Response} (h : Runs exec is s rs t)
    (hi : ∀ i ∈ is, instrOpcode i ≠ .init) :
    t.sendCtr = s.sendCtr + BitVec.ofNat 64 ((is.zip rs).countP countsSent) ∧
      t.recvCtr = s.recvCtr + BitVec.ofNat 64 ((is.zip rs).countP countsReceived) := by
  induction h with
  | nil s => simp
  | @cons i is s u t r rs hexec hr h ih =>
    obtain ⟨hsend, hrecv⟩ := exec_counters hexec hr (hi i List.mem_cons_self)
    obtain ⟨hsends, hrecvs⟩ := ih fun j hj => hi j (List.mem_cons_of_mem i hj)
    rw [List.zip_cons_cons, List.countP_cons, List.countP_cons, BitVec.ofNat_add, BitVec.ofNat_add, hsends, hrecvs, hsend,
      hrecv]
    constructor <;> ac_rfl

/-- Settles O59: INIT clears both counters, and the rest of the run is counted from there. -/
theorem countersCountPackets : Obligations.CountersCountPackets := by
  intro k is s t r rs hk hi h hr _
  cases runs_of_runCommands_with h hr with
  | cons hinit _ hruns =>
    obtain rfl := Host.Outcome.next.inj ((exec_init hk s).symm.trans hinit)
    obtain ⟨hsend, hrecv⟩ := hruns.counters hi
    rw [hsend, hrecv]
    exact ⟨BitVec.zero_add _, BitVec.zero_add _⟩

/-! ## Packets between mirrored blocks (44_packet.md R470) -/

/-- A unit of an admitted plaintext fits MAX_WIRE_LEN. -/
theorem wireUnit_length_le (l : BitVec 4) (ctr : Word64) (k : Secret) (sr : Block) {p : Bytes}
    (hp : p.length ≤ Config.maxPlainLen) : (enc k sr (framedUnit l ctr k p)).1.length ≤ maxWireLen := by
  rw [wireUnit_length]
  exact (Nat.add_le_add_right (deflateLevel_length_le l p) 8).trans (storedBound_add_tag_le_maxWireLen hp)

/-- One packet between mirrored blocks: B deciphers with A's register, checks the tag at A's counter, and inflates what A
compressed at its level; both registers and both counters move together. -/
theorem mirrored_step {p : Bytes} {a b : State} (hm : mirrored a b) (hp : p.length ≤ Config.maxPlainLen) :
    ∃ (unit : Bytes) (a' b' : State), exec (.encode p) a = .next a' ∧ a'.rspOut = a.rspOut ++ [⟨0, unit⟩] ∧
      exec (.decode unit) b = .next b' ∧ b'.rspOut = b.rspOut ++ [⟨0, p⟩] ∧ mirrored a' b' ∧
      a'.sendCtr = a.sendCtr + 1 := by
  obtain ⟨ka, kb, ha, hb, hsecret, hsr, hctr⟩ := hm
  have hdec := dec_enc ka.secret ka.srS (framedUnit a.compLevel a.sendCtr ka.secret p)
  have hlen := wireUnit_length_le a.compLevel a.sendCtr ka.secret ka.srS hp
  have hunit : (dec kb.secret kb.srR (enc ka.secret ka.srS (framedUnit a.compLevel a.sendCtr ka.secret p)).1).1 =
      deflateLevel a.compLevel p ++ tag b.recvCtr (deflateLevel a.compLevel p) kb.secret := by
    rw [← hsecret, ← hsr, hdec, ← hctr]
    rfl
  have hB := exec_decode_ok hb hlen hunit (inflate_of_admissible (admissible_deflateLevel _ hp))
  rw [← hsecret, ← hsr, hdec] at hB
  have hA := exec_encode ha hp
  generalize enc ka.secret ka.srS (framedUnit a.compLevel a.sendCtr ka.secret p) = wire at hA hB
  obtain ⟨haReady, haSecret, -, haR⟩ := ha
  obtain ⟨hbReady, hbSecret, hbS, -⟩ := hb
  exact ⟨wire.1, _, _, hA, rfl, hB, rfl,
    ⟨⟨ka.secret, wire.2, ka.srR⟩, ⟨kb.secret, kb.srS, wire.2⟩, ⟨haReady, haSecret, rfl, haR⟩,
      ⟨hbReady, hbSecret, hbS, rfl⟩, hsecret, rfl, congrArg (· + 1) hctr⟩, rfl⟩

/-- Settles O57: `mirrored_step`, but for the counter's value. -/
theorem mirroredStepRoundTrip : Obligations.MirroredStepRoundTrip := by
  intro p a b hm hp
  obtain ⟨unit, a', b', hA, hrA, hB, hrB, hm', -⟩ := mirrored_step hm hp
  exact ⟨unit, a', b', hA, hrA, hB, hrB, hm'⟩

/-- Any number of packets between mirrored blocks. -/
theorem mirrored_packets {ps : List Bytes} (hp : ∀ p ∈ ps, p.length ≤ Config.maxPlainLen) {a b : State}
    (hm : mirrored a b) :
    ∃ (units : List Bytes) (a' b' : State), Runs exec (ps.map .encode) a (units.map (⟨0, ·⟩)) a' ∧
      Runs exec (units.map .decode) b (ps.map (⟨0, ·⟩)) b' ∧ mirrored a' b' ∧
      a'.sendCtr = a.sendCtr + BitVec.ofNat 64 ps.length := by
  induction ps generalizing a b with
  | nil => exact ⟨[], a, b, .nil a, .nil b, hm, by simp⟩
  | cons p ps ih =>
    obtain ⟨unit, a1, b1, hA, hrA, hB, hrB, hm1, hctr⟩ := mirrored_step hm (hp p List.mem_cons_self)
    obtain ⟨units, a', b', hAs, hBs, hm', hctrs⟩ := ih (fun q hq => hp q (List.mem_cons_of_mem p hq)) hm1
    refine ⟨unit :: units, a', b', .cons hA hrA hAs, .cons hB hrB hBs, hm', ?_⟩
    rw [hctrs, hctr, List.length_cons, BitVec.ofNat_add]
    ac_rfl

/-- Settles O56: after the two INITs the blocks are mirrored, and stay so packet by packet. -/
theorem packetRoundTrip : Obligations.PacketRoundTrip := by
  intro k iv ivA ivB ps a b hp
  have hm : mirrored ((a.loadContext k iv ivA).answer 0 []) ((b.loadContext k ivB iv).answer 0 []) :=
    ⟨⟨k, iv, ivA⟩, ⟨k, ivB, iv⟩, ⟨rfl, rfl, rfl, rfl⟩, ⟨rfl, rfl, rfl, rfl⟩, rfl, rfl, rfl⟩
  obtain ⟨units, a', b', hAs, hBs, ⟨-, -, -, -, -, -, hctr⟩, hcount⟩ := mirrored_packets hp hm
  have hA : Runs exec _ a _ a' := .cons (exec_init_append k iv ivA a) rfl hAs
  have hB : Runs exec _ b _ b' := .cons (exec_init_append k ivB iv b) rfl hBs
  exact ⟨units, a', b', hA.runCommands_eq, hB.runCommands_eq, hA.rspOut_eq, hB.rspOut_eq, hctr.symm,
    hcount.trans (BitVec.zero_add _)⟩

/-- Settles O60: the compressed payload and its tag are what ENCODE enciphers; no command but ENCODE moves SEND_CTR. -/
theorem handBuiltUnit : Obligations.HandBuiltUnit := by
  intro p k s hk hp
  have hwire := storedBound_add_tag_le_maxWireLen hp
  have hc := deflateLevel_length_le s.compLevel p
  exact ⟨_, _, _, _, _, _, _, exec_deflate hk.not_faulted hp, rfl,
    exec_tag (k := k) hk (by omega), rfl,
    exec_encrypt (k := k) .send hk (by rw [List.length_append, tag_length]; omega), rfl,
    exec_encode hk hp, rfl, rfl, rfl, rfl⟩

end Sys2Proof.Machine
end

section
/-! PROOF. The channels: a full response channel holds the block, and the commands that the host submits run in the order of
their submission whatever the host does with the responses. -/

namespace Sys2Proof.Machine

/-! ## The hold (20_memory.md R120) -/

theorem holding_iff {s : State} : s.holding = true ↔ ∃ d, s.rspDepth = some d ∧ d < s.rspOut.length := by
  unfold State.holding
  split <;> simp_all

theorem step_of_holding {s : State} (hr : s.rst = false) (hh : s.holding = true) : step s = .next s := by
  simp [step, hr, hh]

theorem run_succ_of_next {s t : State} (h : step s = .next t) (n : Nat) :
    Sys2Proof.core.run (n + 1) s = Sys2Proof.core.run n t := by
  have hstep : Sys2Proof.core.step s = .next t := h
  simp only [Host.Core.run, hstep]

theorem run_succ_of_fault {s : State} {f : Fault} (h : step s = .fault f) (n : Nat) :
    Sys2Proof.core.run (n + 1) s = .fault f := by
  have hstep : Sys2Proof.core.step s = .fault f := h
  simp only [Host.Core.run, hstep]

/-- A state that a step leaves as it is, any number of steps leave as it is. -/
theorem run_of_step_eq {s : State} (h : step s = .next s) (n : Nat) : Sys2Proof.core.run n s = .next s := by
  induction n with
  | zero => rfl
  | succ n ih => rw [run_succ_of_next h, ih]

/-- Settles O11: a step adds one response behind those that wait, or none; and one that holds leaves the state as it is. -/
theorem holdKeepsResponses : Obligations.HoldKeepsResponses := by
  refine ⟨fun s t hr h => ?keeps, fun s d hr hd hlen n => ?holds, fun s t d hr _ hlen h => ?depth⟩
  case keeps =>
    obtain rfl | ⟨r, ho, -⟩ := step_running_counts hr h
    · exact List.prefix_rfl
    · exact ho ▸ List.prefix_append _ _
  case holds => exact run_of_step_eq (step_of_holding hr (holding_iff.mpr ⟨d, hd, hlen⟩)) n
  case depth =>
    obtain rfl | ⟨r, ho, -⟩ := step_running_counts hr h
    · exact Nat.le_succ_of_le hlen
    · rw [ho, List.length_append]
      exact Nat.succ_le_succ hlen

/-! ## A command word and the channels (20_memory.md R110, R119) -/

/-- A command word, decoded or not, does the same whatever stands in the channels. -/
theorem execWord_ignoresChannels (c : Word32 × Bytes) : IgnoresChannels (execWord c.1 c.2) := by
  intro s t h
  cases hd : decodeWord c.1 c.2 with
  | error cause =>
    obtain rfl := execWord_illegal hd h
    exact ⟨_, rfl, fun _ _ _ _ => by rw [execWord, hd]; rfl⟩
  | ok i =>
    have hexec (u : State) : execWord c.1 c.2 u = exec i u := by rw [execWord, hd]
    obtain ⟨r, hr, hchannels⟩ := exec_ignoresChannels i s t (by rw [← hexec, h])
    exact ⟨r, hr, fun cmd rs d b => by rw [hexec, hchannels]⟩

/-- What a command word does with other channels, it does with the state's own. -/
theorem IgnoresChannels.of_withChannels {f : State → Result} (hf : IgnoresChannels f) {s v : State} {c : Bytes}
    {rs : List Response} {d : Option Nat} {b : Bool} (h : f (s.withChannels c rs d b) = .next v) :
    ∃ t r, f s = .next t ∧ t.rspOut = s.rspOut ++ [r] ∧ v = t.withChannels c (rs ++ [r]) d b := by
  obtain ⟨r, -, hback⟩ := hf _ _ h
  have hs := hback s.cmdIn s.rspOut s.rspDepth s.rst
  obtain ⟨r', hr', hforth⟩ := hf s _ hs
  obtain rfl : r = r' := added_response_eq rfl hr'
  refine ⟨_, r, hs, rfl, ?_⟩
  exact Host.Outcome.next.inj (h.symm.trans (hforth c rs d b))

/-- Out of reset and with room for a response, a step performs the command word at the front of the channel. -/
theorem step_of_commandBytes {s : State} {c : Word32 × Bytes} {rest : Bytes} (hr : s.rst = false)
    (hh : s.holding = false) (hc : c.2.length < 2 ^ 32) (hcmd : s.cmdIn = commandBytes c.1 c.2 ++ rest) :
    step s = execWord c.1 c.2 (s.consumed rest) := by
  cases hd : decodeWord c.1 c.2 with
  | error cause =>
    have hillegal : decode s.cmdIn = .illegal cause rest := by rw [hcmd, decode_commandBytes_error hc hd]
    rw [step_of_illegal hr hh hillegal, execWord, hd]
    exact congrArg Host.Outcome.next (refuse_bumpSeq (s.consumed rest) .illegalCommand (illegalCode cause))
  | ok i =>
    have hcommand : decode s.cmdIn = .command i rest := by rw [hcmd, decode_commandBytes_ok hc hd]
    rw [step_of_command hr hh hcommand, execWord, hd]

/-- With an empty command channel the block waits. -/
theorem step_of_cmdIn_nil {s : State} (hr : s.rst = false) (hcmd : s.cmdIn = []) : step s = .next s :=
  step_of_incomplete hr (by rw [hcmd]; rfl)

/-! ## No command is refused by the model -/

/-- `f` is refused by the model on no state. -/
def NeverRefused (f : State → Result) : Prop := ∀ s r, f s ≠ .refused r

theorem NeverRefused.of_answers {f : State → Result} (hf : ∀ s, ∃ u, f s = .next u) : NeverRefused f := by
  intro s r h
  obtain ⟨u, hu⟩ := hf s
  rw [hu] at h
  cases h

theorem NeverRefused.requireContext {opc : Opcode} {perform : State → Context → Result}
    (hp : ∀ k, NeverRefused (perform · k)) : NeverRefused fun s => requireContext opc s (perform s) := by
  intro s r
  unfold Machine.requireContext
  dsimp only
  split
  · simp
  · simp
  all_goals
    split
    · exact hp _ s r
    · simp

theorem NeverRefused.commandCycle {i : Instr} {perform : State → Result} (hp : NeverRefused perform) :
    NeverRefused (commandCycle i perform) := by
  intro s r
  unfold Machine.commandCycle
  split_ifs
  · simp [bumpResult]
  · simp [bumpResult]
  · cases hs : perform s with
    | refused r => exact absurd hs (hp s r)
    | _ => simp [bumpResult]

/-- Every arm of `exec` has its meaning, so none is refused. -/
theorem exec_neverRefused (i : Instr) : NeverRefused (exec i) := by
  cases i with
  | nop p | init p | dispose p | csrr c p | deflate p => exact .commandCycle (.of_answers fun _ => ⟨_, rfl⟩)
  | csrw c p => exact .commandCycle (.of_answers (performCsrw_answers c p))
  | inflate p =>
    refine .commandCycle (.of_answers fun s => ?_)
    cases inflate p <;> exact ⟨_, rfl⟩
  | tag p | encrypt e p | decrypt e p | encode p =>
    exact .commandCycle (.requireContext fun k => .of_answers fun _ => ⟨_, rfl⟩)
  | decode p => exact .commandCycle (.requireContext fun k => .of_answers (performDecode_answers p · k))

/-- A command word answers, or stops at the model's one fault. -/
theorem execWord_next_or_fault (c : Word32 × Bytes) (s : State) :
    (∃ t, execWord c.1 c.2 s = .next t) ∨ execWord c.1 c.2 s = .fault .contextAbsent := by
  cases hd : decodeWord c.1 c.2 with
  | error cause => exact .inl ⟨_, by rw [execWord, hd]⟩
  | ok i =>
    have hexec : execWord c.1 c.2 s = exec i s := by rw [execWord, hd]
    rw [hexec]
    cases h : exec i s with
    | next t => exact .inl ⟨t, rfl⟩
    | fault f => exact .inr rfl
    | refused f => exact absurd h (exec_neverRefused i s f)

/-! ## Command words, one after another (20_memory.md R110) -/

theorem runWords_cons_of_next {c : Word32 × Bytes} {s t : State} (h : execWord c.1 c.2 s = .next t)
    (cs : List (Word32 × Bytes)) : runWords (c :: cs) s = runWords cs t := by
  simp only [runWords, h]

theorem runWords_cons_of_fault {c : Word32 × Bytes} {s : State} {f : Fault} (h : execWord c.1 c.2 s = .fault f)
    (cs : List (Word32 × Bytes)) : runWords (c :: cs) s = .fault f := by
  simp only [runWords, h]

/-- Command words that run to a next state have answered one after another. -/
theorem runs_of_runWords {cs : List (Word32 × Bytes)} {s t : State} (h : runWords cs s = .next t) :
    ∃ rs, Runs (fun c => execWord c.1 c.2) cs s rs t := by
  induction cs generalizing s with
  | nil => exact ⟨[], Host.Outcome.next.inj h ▸ .nil s⟩
  | cons c cs ih =>
    obtain ⟨u, hu⟩ | hu := execWord_next_or_fault c s
    · rw [runWords_cons_of_next hu] at h
      obtain ⟨r, hr, -⟩ := execWord_ignoresChannels c s u hu
      obtain ⟨rs, hrs⟩ := ih h
      exact ⟨r :: rs, .cons hu hr hrs⟩
    · rw [runWords_cons_of_fault hu] at h
      cases h

theorem Runs.runWords_eq {cs : List (Word32 × Bytes)} {s t : State} {rs : List Response}
    (h : Runs (fun c => execWord c.1 c.2) cs s rs t) : runWords cs s = .next t := by
  induction h with
  | nil s => rfl
  | cons hc hr h ih => rw [runWords_cons_of_next hc, ih]

/-- A run of two lists of commands is a run of the first and then one of the second. -/
theorem Runs.of_append {α : Type} {f : α → State → Result} {cs cs' : List α} {s t : State} {rs : List Response}
    (h : Runs f (cs ++ cs') s rs t) : ∃ u rs1 rs2, Runs f cs s rs1 u ∧ Runs f cs' u rs2 t := by
  induction cs generalizing s rs with
  | nil => exact ⟨s, [], rs, .nil s, h⟩
  | cons c cs ih =>
    cases h with
    | cons hc hr h =>
      obtain ⟨u, rs1, rs2, h1, h2⟩ := ih h
      exact ⟨u, _, rs2, .cons hc hr h1, h2⟩

/-- After any number of the commands, the responses so far are theirs, and those to come stand behind. -/
theorem runWords_take {cs : List (Word32 × Bytes)} {s t : State} (h : runWords cs s = .next t) {n : Nat}
    (hn : n ≤ cs.length) :
    ∃ (u : State) (rs rs' : List Response), runWords (cs.take n) s = .next u ∧ u.rspOut = s.rspOut ++ rs ∧
      rs.length = n ∧ t.rspOut = u.rspOut ++ rs' ∧ rs'.length = cs.length - n := by
  obtain ⟨rs, hrs⟩ := runs_of_runWords h
  rw [← List.take_append_drop n cs] at hrs
  obtain ⟨u, rs1, rs2, h1, h2⟩ := hrs.of_append
  exact ⟨u, rs1, rs2, h1.runWords_eq, h1.rspOut_eq, by rw [h1.length_eq, List.length_take, Nat.min_eq_left hn],
    h2.rspOut_eq, by rw [h2.length_eq, List.length_drop]⟩

/-! ## Submitted commands, a step at a time (20_memory.md R110, R120; log entries 4 and 5) -/

/-- The block in state `s` with the commands `cs` still queued, and `o` for the responses that the host has not taken. -/
def State.queued (s : State) (cs : List (Word32 × Bytes)) (o : List Response) : State :=
  s.withChannels (commandsBytes cs) o s.rspDepth s.rst

/-- The state of the channels that submitted commands find and leave. -/
structure State.Open (s : State) : Prop where
  rst : s.rst = false
  cmdIn : s.cmdIn = []

theorem State.Open.submit_eq {s : State} (hs : s.Open) (cs : List (Word32 × Bytes)) :
    s.submit (commandsBytes cs) = s.queued cs s.rspOut := by
  rw [State.submit_running hs.rst, hs.cmdIn]
  rfl

theorem State.Open.queued_nil {s : State} (hs : s.Open) : s.queued [] s.rspOut = s := by
  rw [State.queued, show commandsBytes [] = s.cmdIn from hs.cmdIn.symm]

theorem State.Open.execWord {s t : State} (hs : s.Open) {c : Word32 × Bytes} (h : execWord c.1 c.2 s = .next t) :
    t.Open ∧ t.rspDepth = s.rspDepth := by
  obtain ⟨hcmd, hdepth, hrst⟩ := (execWord_ignoresChannels c).keeps h
  exact ⟨⟨hrst.trans hs.rst, hcmd.trans hs.cmdIn⟩, hdepth⟩

/-- A step with room for a response performs the command queued first, on the state without the queue. -/
theorem step_queued {s : State} (hs : s.Open) {c : Word32 × Bytes} {cs : List (Word32 × Bytes)} {o : List Response}
    (hc : c.2.length < 2 ^ 32) (hh : (s.queued (c :: cs) o).holding = false) :
    step (s.queued (c :: cs) o) =
      execWord c.1 c.2 (s.withChannels (commandsBytes cs) o s.rspDepth s.rst) :=
  step_of_commandBytes hs.rst hh hc rfl

/-- Where the command answers, so does the step. -/
theorem step_queued_of_next {s t : State} (hs : s.Open) {c : Word32 × Bytes} {cs : List (Word32 × Bytes)}
    {o : List Response} {r : Response} (hc : c.2.length < 2 ^ 32) (hh : (s.queued (c :: cs) o).holding = false)
    (h : execWord c.1 c.2 s = .next t) (hr : t.rspOut = s.rspOut ++ [r]) :
    step (s.queued (c :: cs) o) = .next (t.queued cs (o ++ [r])) := by
  obtain ⟨r', hr', hchannels⟩ := execWord_ignoresChannels c s t h
  obtain rfl := added_response_eq hr hr'
  obtain ⟨ht, hdepth⟩ := hs.execWord h
  rw [step_queued hs hc hh, hchannels, State.queued, hdepth, ht.rst, hs.rst]

/-- Where the step answers, so does the command. -/
theorem execWord_of_step_queued {s v : State} (hs : s.Open) {c : Word32 × Bytes} {cs : List (Word32 × Bytes)}
    {o : List Response} (hc : c.2.length < 2 ^ 32) (hh : (s.queued (c :: cs) o).holding = false)
    (h : step (s.queued (c :: cs) o) = .next v) :
    ∃ t r, execWord c.1 c.2 s = .next t ∧ t.rspOut = s.rspOut ++ [r] ∧ v = t.queued cs (o ++ [r]) := by
  obtain ⟨t, r, ht, hr, -⟩ := (execWord_ignoresChannels c).of_withChannels ((step_queued hs hc hh).symm.trans h)
  exact ⟨t, r, ht, hr, Host.Outcome.next.inj (h.symm.trans (step_queued_of_next hs hc hh ht hr))⟩

/-- Where the command stops, so does the step. -/
theorem step_queued_of_fault {s : State} (hs : s.Open) {c : Word32 × Bytes} {cs : List (Word32 × Bytes)}
    {o : List Response} (hc : c.2.length < 2 ^ 32) (hh : (s.queued (c :: cs) o).holding = false)
    (h : execWord c.1 c.2 s = .fault .contextAbsent) : step (s.queued (c :: cs) o) = .fault .contextAbsent := by
  obtain ⟨v, hv⟩ | hv := execWord_next_or_fault c (s.withChannels (commandsBytes cs) o s.rspDepth s.rst)
  · obtain ⟨t, r, ht, -⟩ := (execWord_ignoresChannels c).of_withChannels hv
    rw [h] at ht
    cases ht
  · rw [step_queued hs hc hh, hv]

/-- With no bound on the response channel, as many steps as commands are the commands' own run. -/
theorem run_queued_unbounded {cs : List (Word32 × Bytes)} (hcs : ∀ c ∈ cs, c.2.length < 2 ^ 32) {s : State}
    (hs : s.Open) (hd : s.rspDepth = none) :
    Sys2Proof.core.run cs.length (s.queued cs s.rspOut) = runWords cs s := by
  induction cs generalizing s with
  | nil => exact congrArg Host.Outcome.next hs.queued_nil
  | cons c cs ih =>
    have hc := hcs c List.mem_cons_self
    have hh : (s.queued (c :: cs) s.rspOut).holding = false := by simp [State.holding, State.queued, hd]
    rw [List.length_cons]
    obtain ⟨t, ht⟩ | ht := execWord_next_or_fault c s
    · obtain ⟨r, hr, -⟩ := execWord_ignoresChannels c s t ht
      obtain ⟨hopen, hdepth⟩ := hs.execWord ht
      rw [run_succ_of_next (step_queued_of_next hs hc hh ht hr), runWords_cons_of_next ht, ← hr]
      exact ih (fun c' hc' => hcs c' (List.mem_cons_of_mem c hc')) hopen (hdepth.trans hd)
    · rw [run_succ_of_fault (step_queued_of_fault hs hc hh ht), runWords_cons_of_fault ht]
      rfl

/-! ## The host's turns (20_memory.md R120) -/

theorem runTurns_step_of_next {s t : State} (h : step s = .next t) (turns : List HostTurn) :
    runTurns (.step :: turns) s = runTurns turns t := by
  simp only [runTurns, h]

theorem step_of_runTurns_step {turns : List HostTurn} {s u : State} {rs : List Response}
    (h : runTurns (.step :: turns) s = .next (rs, u)) : ∃ t, step s = .next t ∧ runTurns turns t = .next (rs, u) := by
  rw [runTurns] at h
  cases hs : step s <;> simp only [hs, reduceCtorEq] at h
  exact ⟨_, rfl, h⟩

theorem runTurns_take_of_none {s : State} (h : s.takeResponse = none) (turns : List HostTurn) :
    runTurns (.take :: turns) s = runTurns turns s := by
  simp only [runTurns, h]

theorem runTurns_take_of_some {s t u : State} {r : Response} {rs : List Response} {turns : List HostTurn}
    (h : s.takeResponse = some (r, t)) (ht : runTurns turns t = .next (rs, u)) :
    runTurns (.take :: turns) s = .next (r :: rs, u) := by
  simp only [runTurns, h, ht]

theorem runTurns_of_take {s t u : State} {r : Response} {rs : List Response} {turns : List HostTurn}
    (h : s.takeResponse = some (r, t)) (hu : runTurns (.take :: turns) s = .next (rs, u)) :
    ∃ rs', rs = r :: rs' ∧ runTurns turns t = .next (rs', u) := by
  simp only [runTurns, h] at hu
  split at hu
  · rename_i rs' u' ht
    obtain ⟨rfl, rfl⟩ := Prod.mk.inj (Host.Outcome.next.inj hu)
    exact ⟨rs', rfl, ht⟩
  · cases hu
  · cases hu

theorem takeResponse_queued_nil (s : State) (cs : List (Word32 × Bytes)) : (s.queued cs []).takeResponse = none :=
  State.takeResponse_eq_none.mpr (.inr rfl)

theorem State.Open.takeResponse_queued_cons {s : State} (hs : s.Open) (cs : List (Word32 × Bytes)) (r : Response)
    (o : List Response) : (s.queued cs (r :: o)).takeResponse = some (r, s.queued cs o) :=
  State.takeResponse_eq_some.mpr ⟨hs.rst, o, rfl, rfl⟩

/-- Whatever the turns, what the host has taken and what waits are the responses of the commands performed, in order: `pre`
was taken before these turns. -/
theorem runTurns_queued {turns : List HostTurn} {cs : List (Word32 × Bytes)} (hcs : ∀ c ∈ cs, c.2.length < 2 ^ 32)
    {s u : State} (hs : s.Open) {pre o taken : List Response} (hpre : pre ++ o = s.rspOut)
    (h : runTurns turns (s.queued cs o) = .next (taken, u)) :
    ∃ (n : Nat) (t : State), n ≤ cs.length ∧ runWords (cs.take n) s = .next t ∧
      pre ++ (taken ++ u.rspOut) = t.rspOut ∧ u = t.queued (cs.drop n) u.rspOut := by
  induction turns generalizing cs s pre o taken with
  | nil =>
    obtain ⟨rfl, rfl⟩ := Prod.mk.inj (Host.Outcome.next.inj h)
    exact ⟨0, s, Nat.zero_le _, rfl, hpre, rfl⟩
  | cons turn turns ih =>
    cases turn with
    | take =>
      cases o with
      | nil =>
        rw [runTurns_take_of_none (takeResponse_queued_nil s cs)] at h
        exact ih hcs hs hpre h
      | cons r o =>
        obtain ⟨rs, rfl, hrest⟩ := runTurns_of_take (hs.takeResponse_queued_cons cs r o) h
        obtain ⟨n, t, hn, hrun, ho, hu⟩ := ih hcs hs (pre := pre ++ [r]) (by rw [← hpre, List.append_assoc]; rfl) hrest
        exact ⟨n, t, hn, hrun, by rw [← ho, List.append_assoc]; rfl, hu⟩
    | step =>
      obtain ⟨v, hv, hrest⟩ := step_of_runTurns_step h
      have hidle (hwait : step (s.queued cs o) = .next (s.queued cs o)) : v = s.queued cs o :=
        Host.Outcome.next.inj (hv.symm.trans hwait)
      cases hh : (s.queued cs o).holding with
      | true =>
        obtain rfl := hidle (step_of_holding hs.rst hh)
        exact ih hcs hs hpre hrest
      | false =>
        cases cs with
        | nil =>
          obtain rfl := hidle (step_of_cmdIn_nil hs.rst rfl)
          exact ih hcs hs hpre hrest
        | cons c cs =>
          obtain ⟨t, r, ht, hr, rfl⟩ := execWord_of_step_queued hs (hcs c List.mem_cons_self) hh hv
          obtain ⟨n, t', hn, hrun, ho, hu⟩ := ih (fun c' hc' => hcs c' (List.mem_cons_of_mem c hc')) (hs.execWord ht).1
            (pre := pre) (by rw [hr, ← hpre, List.append_assoc]) hrest
          exact ⟨n + 1, t', Nat.succ_le_succ hn, by rw [List.take_succ_cons, runWords_cons_of_next ht, hrun], ho, hu⟩

/-- A host that takes after each step gets every response, whatever the depth: no response waits when a step begins. -/
theorem runTurns_step_take {cs : List (Word32 × Bytes)} (hcs : ∀ c ∈ cs, c.2.length < 2 ^ 32) {s t : State}
    {rs : List Response} (hs : s.Open) (h : Runs (fun c => execWord c.1 c.2) cs s rs t) :
    runTurns (cs.flatMap fun _ => [.step, .take]) (s.queued cs []) = .next (rs, t.queued [] []) ∧ t.Open := by
  induction h with
  | nil s => exact ⟨rfl, hs⟩
  | @cons c cs s u t r rs hc hr _ ih =>
    obtain ⟨hrest, ht⟩ := ih (fun c' hc' => hcs c' (List.mem_cons_of_mem c hc')) (hs.execWord hc).1
    have hh : (s.queued (c :: cs) []).holding = false := by
      rw [← Bool.not_eq_true, holding_iff]
      rintro ⟨d, -, hd⟩
      exact absurd hd (Nat.not_lt_zero d)
    have hstep := step_queued_of_next hs (hcs c List.mem_cons_self) hh hc hr
    refine ⟨?_, ht⟩
    rw [List.flatMap_cons, List.cons_append, runTurns_step_of_next hstep]
    exact runTurns_take_of_some ((hs.execWord hc).1.takeResponse_queued_cons cs r []) hrest

/-- Settles O14: the queue of submitted commands seen a step at a time, with no bound, in any turns, and in turns of a step
and a take; between them the commands' own run, a response each. -/
theorem commandsRunInSubmissionOrder : Obligations.CommandsRunInSubmissionOrder := by
  intro cs s hcs hcmd hrst
  have hs : s.Open := ⟨hrst, hcmd⟩
  rw [hs.submit_eq]
  refine ⟨run_queued_unbounded hcs hs, fun t ht n => runWords_take ht, fun turns taken u h => ?turns,
    fun t ho ht => ?drained⟩
  case turns =>
    obtain ⟨n, t, hn, hrun, hout, hu⟩ := runTurns_queued hcs hs (pre := []) rfl h
    exact ⟨n, t, hn, hrun, hout, hu⟩
  case drained =>
    obtain ⟨rs, hruns⟩ := runs_of_runWords ht
    obtain ⟨hturns, hopen⟩ := runTurns_step_take hcs hs hruns
    have hrs : t.rspOut = rs := by rw [hruns.rspOut_eq, ho, List.nil_append]
    rw [ho, hturns, hrs, State.queued, show commandsBytes [] = t.cmdIn from hopen.cmdIn.symm]

end Sys2Proof.Machine
end

section
/-! PROOF. How far a changed ciphertext byte reaches; how the inflater reads the start of a stream, and that it ends. -/

namespace Sys2Proof.Machine

/-! ## Error propagation (42_cipher.md R316) -/

/-- The plaintext of what stands in front of a byte, the byte's own, and that of what stands behind it. -/
theorem dec_append_cons (k : Secret) (sr : Block) (a : Bytes) (b : Byte) (c : Bytes) :
    (dec k sr (a ++ b :: c)).1 =
      (dec k sr a).1 ++ (b ^^^ keystreamByte k (dec k sr a).2) :: (dec k (shiftIn (dec k sr a).2 b) c).1 := by
  rw [dec_append, dec_cons]

/-- Two engines fed the same bytes agree from the seventeenth on, whatever their registers held. -/
theorem dec_drop_eq (k : Secret) (sr sr' : Block) (c : Bytes) :
    (dec k sr c).1.drop 16 = (dec k sr' c).1.drop 16 := by
  by_cases hc : c.length < 16
  · rw [List.drop_eq_nil_of_le (by rw [dec_length]; omega), List.drop_eq_nil_of_le (by rw [dec_length]; omega)]
  have hwindow : (c.take 16).length = 16 := by rw [List.length_take]; omega
  have hdrop (r : Block) : (dec k r c).1.drop 16 = (dec k (dec k r (c.take 16)).2 (c.drop 16)).1 := by
    conv_lhs => rw [← List.take_append_drop 16 c, dec_append]
    exact List.drop_left' (by rw [dec_length, hwindow])
  rw [hdrop, hdrop, dec_register_eq_of_long k sr sr' hwindow.ge]

/-- Settles O47: the plaintexts part by part; the changed byte is gone from the register after 16 more. -/
theorem errorPropagation : Obligations.ErrorPropagation := by
  intro k sr a b b' c p p'
  have ha : (dec k sr a).1.length = a.length := dec_length k sr a
  have hp : p = _ := dec_append_cons k sr a b c
  have hp' : p' = _ := dec_append_cons k sr a b' c
  rw [hp, hp']
  refine ⟨?before, ?changed, ?after, ?length⟩
  case before => rw [List.take_left' ha, List.take_left' ha]
  case changed =>
    simp only [List.getD_eq_getElem?_getD, ← ha, List.getElem?_append_right (Nat.le_refl _),
      Nat.sub_self, List.getElem?_cons_zero, Option.getD_some]
    generalize keystreamByte k (dec k sr a).2 = key
    rw [BitVec.xor_comm b' key, BitVec.xor_assoc, ← BitVec.xor_assoc key, BitVec.xor_self, BitVec.zero_xor]
  case after =>
    rw [← List.drop_drop, ← List.drop_drop, List.drop_left' ha, List.drop_left' ha]
    exact dec_drop_eq k _ _ c
  case length => simp

/-! ## The header of the first block (43_compression.md R350, R351) -/

/-- A field of a byte is its first bit and the field behind it. -/
theorem toNat_extractLsb'_succ (h : Byte) (pos n : Nat) :
    (h.extractLsb' pos (n + 1)).toNat = (h.getLsbD pos).toNat + 2 * (h.extractLsb' (pos + 1) n).toNat := by
  rw [BitVec.extractLsb'_toNat, BitVec.extractLsb'_toNat, BitVec.getLsbD, Nat.toNat_testBit, ← Nat.shiftRight_eq_div_pow,
    Nat.shiftRight_succ, Nat.pow_succ', Nat.mod_mul]

/-- The bits that are read within the first byte are its own. -/
theorem readBits_head (h : Byte) (body : Bytes) {n pos : Nat} (hn : pos + n ≤ 8) :
    readBits (h :: body) n pos = .ok ((h.extractLsb' pos n).toNat, pos + n) := by
  induction n generalizing pos with
  | zero => simp [readBits]
  | succ n ih =>
    have hbyte : pos / 8 = 0 := by omega
    have hbit : pos % 8 = pos := by omega
    simp only [readBits, readBit, hbyte, hbit, List.getElem?_cons_zero, ih (pos := pos + 1) (by omega),
      toNat_extractLsb'_succ]
    rw [Nat.add_assoc, Nat.add_comm 1]

/-- BFINAL is the first bit. -/
theorem readBits_final (h : Byte) (body : Bytes) :
    readBits (h :: body) 1 0 = .ok ((h.getLsbD 0).toNat, 1) := by
  rw [readBits_head h body (by decide), toNat_extractLsb'_succ]
  simp

/-- One turn of Inflate's loop past a block that reads. -/
theorem inflateFrom_of_block {inp out out' : Bytes} {fuel pos bfinal bodyPos btype dataPos q : Nat} {blocks : List BlockInfo}
    {kind : BlockKind} (hfinal : readBits inp 1 pos = .ok (bfinal, bodyPos))
    (htype : readBits inp 2 bodyPos = .ok (btype, dataPos)) (hb : blockBody inp btype dataPos out = .ok (kind, q, out')) :
    inflateFrom inp (fuel + 1) pos blocks out =
      if bfinal = 1 then
        if (q + 7) / 8 < inp.length then .error .trailingData
        else .ok (blocks ++ [⟨bfinal == 1, kind, pos⟩], out')
      else if (q + 7) / 8 = inp.length then .ok (blocks ++ [⟨bfinal == 1, kind, pos⟩], out')
      else inflateFrom inp fuel q (blocks ++ [⟨bfinal == 1, kind, pos⟩]) out' := by
  simp only [inflateFrom, hfinal, htype, hb]

/-- A block of the first header that does not read ends Inflate with its fault. -/
theorem inflate_cons_of_error {h : Byte} {body : Bytes} {btype : Nat} {e : DecodeCause}
    (htype : (h.extractLsb' 1 2).toNat = btype) (hb : blockBody (h :: body) btype 3 [] = .error e) :
    inflate (h :: body) = .error e := by
  subst htype
  simp only [inflate, inflateBlocks, inflateFrom, readBits_final, readBits_head h body (pos := 1) (n := 2) (by decide), hb]

/-- A block of the first header that reads: a final one ends the stream or leaves bytes behind it; one that is not final may
end it, and what follows only adds to its output. -/
theorem inflate_cons_of_ok {h : Byte} {body out : Bytes} {btype q : Nat} {kind : BlockKind}
    (htype : (h.extractLsb' 1 2).toNat = btype) (hb : blockBody (h :: body) btype 3 [] = .ok (kind, q, out)) :
    ((q + 7) / 8 = (h :: body).length → inflate (h :: body) = .ok out) ∧
      ((q + 7) / 8 < (h :: body).length → h.getLsbD 0 = true → inflate (h :: body) = .error .trailingData) ∧
      ∀ p, inflate (h :: body) = .ok p → out <+: p := by
  subst htype
  have hturn := inflateFrom_of_block (fuel := 8 * (h :: body).length) (blocks := []) (readBits_final h body)
    (readBits_head h body (pos := 1) (n := 2) (by decide)) hb
  rw [← inflateBlocks] at hturn
  refine ⟨fun hend => ?ends, fun hless hfinal => ?trailing, fun p hp => ?goesOn⟩
  case ends =>
    rw [if_neg (show ¬ (q + 7) / 8 < (h :: body).length by omega), if_pos hend, ite_id] at hturn
    rw [inflate, hturn]
  case trailing =>
    rw [if_pos (by simp [hfinal]), if_pos hless] at hturn
    rw [inflate, hturn]
  case goesOn =>
    unfold inflate at hp
    split at hp
    · cases hp
    rename_i blocks out' hread
    obtain rfl := Except.ok.inj hp
    rw [hturn] at hread
    split_ifs at hread
    · obtain ⟨-, rfl⟩ := Prod.mk.inj (Except.ok.inj hread)
      exact List.prefix_rfl
    · obtain ⟨-, rfl⟩ := Prod.mk.inj (Except.ok.inj hread)
      exact List.prefix_rfl
    · exact (inflateFrom_ok hread).2.1

/-! ## A stored block at the start (43_compression.md R352, R380) -/

/-- A stored block behind the first header, check by check: LEN and NLEN stand in the next four bytes, and the fields are
checked before the bytes are there to copy. -/
theorem storedBlock_head (h : Byte) (body : Bytes) :
    storedBlock (h :: body) 3 [] =
      if body.length < 4 then .error .truncated
      else if fromLE ((body.drop 2).take 2) ≠ fromLE (body.take 2) ^^^ 0xFFFF then .error .badStoredLen
      else if body.length < 4 + fromLE (body.take 2) then .error .truncated
      else .ok (fromLE (body.take 2), 40 + 8 * fromLE (body.take 2), (body.drop 4).take (fromLE (body.take 2))) := by
  have hLEN : fromLE (body.take 2) < 2 ^ 22 := by
    have hlt := fromLE_lt (body.take 2)
    have hpow : 256 ^ (body.take 2).length ≤ 256 ^ 2 := Nat.pow_le_pow_right (by decide) (List.length_take_le _ _)
    omega
  have hfits : fitsPlain (([] : Bytes).length + fromLE (body.take 2)) = true := by
    rw [fitsPlain_iff, List.length_nil, Nat.zero_add]
    exact hLEN.le.trans (Nat.le_add_right _ _)
  have hshort : 8 * (h :: body).length < 8 + 32 ↔ body.length < 4 := by
    rw [List.length_cons]
    omega
  have hmissing : (h :: body).length < 5 + fromLE (body.take 2) ↔ body.length < 4 + fromLE (body.take 2) := by
    rw [List.length_cons]
    omega
  unfold storedBlock
  simp only [show alignPos 3 = 8 from rfl, show 8 / 8 = 1 from rfl, show (8 + 32) / 8 = 5 from rfl, List.drop_succ_cons,
    List.drop_zero, Nat.reduceAdd, hshort, hmissing, hfits, Bool.true_eq_false, if_false, List.nil_append]

theorem blockBody_stored_of_error {inp out : Bytes} {pos : Nat} {e : DecodeCause}
    (h : storedBlock inp pos out = .error e) : blockBody inp 0 pos out = .error e := by
  simp [blockBody, h, bind, Except.bind]

theorem blockBody_stored_of_ok {inp out out' : Bytes} {pos len q : Nat}
    (h : storedBlock inp pos out = .ok (len, q, out')) : blockBody inp 0 pos out = .ok (.stored len, q, out') := by
  simp [blockBody, h, bind, Except.bind]

/-- Settles O51: the checks of the stored block, then what its end means for the stream. -/
theorem storedBlockReading : Obligations.StoredBlockReading := by
  intro h body htype len nlen
  have htype' : (h.extractLsb' 1 2).toNat = 0 := congrArg BitVec.toNat htype
  have hblock : storedBlock (h :: body) 3 [] = _ := storedBlock_head h body
  have hfault {e : DecodeCause} (he : storedBlock (h :: body) 3 [] = .error e) : inflate (h :: body) = .error e :=
    inflate_cons_of_error htype' (blockBody_stored_of_error he)
  split_ifs at hblock ⊢ with hshort hnlen hmissing hexact hfinal
  · exact hfault hblock
  · exact hfault hblock
  · exact hfault hblock
  all_goals
    obtain ⟨hends, htrailing, hgoesOn⟩ := inflate_cons_of_ok htype' (blockBody_stored_of_ok hblock)
    rw [List.length_cons] at hends htrailing
  · have hall : (body.drop 4).take len = body.drop 4 := List.take_of_length_le (by rw [List.length_drop]; omega)
    rw [hends (by omega), hall]
  · exact htrailing (by omega) hfinal
  · exact hgoesOn

/-! ## What Inflate refuses at once, and what it returns (43_compression.md R351, R380) -/

theorem inflate_nil : inflate [] = .error .truncated := rfl

/-- Settles O52: no bit to read, no block of type 3, and the bound that every output is checked against. -/
theorem inflateLimits : Obligations.InflateLimits := by
  refine ⟨inflate_nil, fun h body htype => ?badType, fun c p hp => ⟨?nonempty, inflate_length_le hp⟩⟩
  case badType => exact inflate_cons_of_error (congrArg BitVec.toNat htype) rfl
  case nonempty =>
    rintro rfl
    rw [inflate_nil] at hp
    cases hp

/-! ## The loops end (70_reset_and_hazards.md §4; log entry 8) -/

/-- Each turn of Huffman block data consumes a bit, and none is consumed past the end. -/
theorem blockDataEnds_of_turns (lit dist : Huffman) (inp : Bytes) {turns pos : Nat} (out : Bytes) (hturns : 0 < turns)
    (hbits : 8 * inp.length < pos + turns) : blockDataEnds lit dist inp turns pos out := by
  induction turns generalizing pos out with
  | zero => cases hturns
  | succ turns ih =>
    unfold blockDataEnds
    split
    · trivial
    · trivial
    · rename_i q out' hsymbol
      obtain ⟨hadvance, hend, -⟩ := blockSymbol_ok hsymbol
      exact ih out' (by omega) (by omega)

/-- Where block data ends within some turns, further turns change nothing. -/
theorem blockData_of_ends {lit dist : Huffman} {inp : Bytes} {turns more pos : Nat} {out : Bytes}
    (h : blockDataEnds lit dist inp turns pos out) (hle : turns ≤ more) :
    blockData lit dist inp more pos out = blockData lit dist inp turns pos out := by
  induction turns generalizing more pos out with
  | zero => cases h
  | succ turns ih =>
    obtain ⟨more, rfl⟩ := Nat.exists_eq_add_one.mpr (Nat.zero_lt_of_lt hle)
    unfold blockDataEnds at h
    unfold blockData
    split
    · rfl
    · rfl
    · rename_i q out' hsymbol
      simp only [hsymbol] at h
      exact ih h (Nat.le_of_succ_le_succ hle)

/-- Each block consumes its header bits, and none is consumed past the end. -/
theorem inflateEnds_of_turns (inp : Bytes) {turns pos : Nat} (out : Bytes) (hturns : 0 < turns)
    (hbits : 8 * inp.length < pos + turns) : inflateEnds inp turns pos out := by
  induction turns generalizing pos out with
  | zero => cases hturns
  | succ turns ih =>
    unfold inflateEnds
    split
    · trivial
    rename_i bfinal bodyPos hfinal
    split
    · trivial
    rename_i btype dataPos htype
    split
    · trivial
    rename_i kind q out' hbody
    obtain ⟨hbodyPos, -⟩ := readBits_ok hfinal
    obtain ⟨hdataPos, -⟩ := readBits_ok htype
    obtain ⟨hadvance, hend, -⟩ := blockBody_ok hbody
    exact .inr (.inr (ih out' (by omega) (by omega)))

/-- Where the loop over the blocks ends within some turns, further turns change nothing. -/
theorem inflateFrom_of_ends {inp : Bytes} {turns more pos : Nat} {blocks : List BlockInfo} {out : Bytes}
    (h : inflateEnds inp turns pos out) (hle : turns ≤ more) :
    inflateFrom inp more pos blocks out = inflateFrom inp turns pos blocks out := by
  induction turns generalizing more pos blocks out with
  | zero => cases h
  | succ turns ih =>
    obtain ⟨more, rfl⟩ := Nat.exists_eq_add_one.mpr (Nat.zero_lt_of_lt hle)
    unfold inflateEnds at h
    unfold inflateFrom
    split
    · rfl
    rename_i bfinal bodyPos hfinal
    split
    · rfl
    rename_i btype dataPos htype
    split
    · rfl
    rename_i kind q out' hbody
    simp only [hfinal, htype, hbody] at h
    dsimp only
    split_ifs with hlast _ hend
    · rfl
    · rfl
    · rfl
    · exact ih (by simpa [hlast, hend] using h) (Nat.le_of_succ_le_succ hle)

/-- Each turn over the code lengths adds one. -/
theorem readLensEnds_of_turns (clc : Huffman) (inp : Bytes) {n turns : Nat} {lens : List Nat} (pos : Nat)
    (hturns : n ≤ lens.length + turns) : readLensEnds clc inp n turns lens pos := by
  induction turns generalizing lens pos with
  | zero => exact hturns
  | succ turns ih =>
    refine or_iff_not_imp_left.mpr fun _ => ?_
    split
    · trivial
    · rename_i lens' q hsymbol
      obtain ⟨-, -, hmore⟩ := readLenSymbol_ok hsymbol
      exact ih q (by omega)

/-- Where the loop over the code lengths ends within some turns, further turns change nothing. -/
theorem readLens_of_ends {clc : Huffman} {inp : Bytes} {n turns more pos : Nat} {lens : List Nat}
    (h : readLensEnds clc inp n turns lens pos) (hle : turns ≤ more) :
    readLens clc inp n more lens pos = readLens clc inp n turns lens pos := by
  induction turns generalizing more lens pos with
  | zero =>
    have hdone : n ≤ lens.length := h
    cases more with
    | zero => rfl
    | succ more => simp only [readLens, hdone, if_true]
  | succ turns ih =>
    obtain ⟨more, rfl⟩ := Nat.exists_eq_add_one.mpr (Nat.zero_lt_of_lt hle)
    unfold readLensEnds at h
    unfold readLens
    split_ifs with hdone
    · rfl
    · have hnext := h.resolve_left hdone
      split
      · rfl
      · rename_i lens' q hsymbol
        simp only [hsymbol] at hnext
        exact ih hnext (Nat.le_of_succ_le_succ hle)

/-- Settles O54: one turn more than the input has bits, or as many as there are code lengths, are enough for each loop. -/
theorem inflateTerminates : Obligations.InflateTerminates := by
  refine ⟨fun inp => ?blocks, fun lit dist inp out pos => ?data, fun clc inp n pos => ?lens⟩
  case blocks =>
    have hends : inflateEnds inp (8 * inp.length + 1) 0 [] := inflateEnds_of_turns inp [] (by omega) (by omega)
    exact ⟨hends, fun _ => inflateFrom_of_ends hends⟩
  case data =>
    have hends : blockDataEnds lit dist inp (8 * inp.length + 1) pos out :=
      blockDataEnds_of_turns lit dist inp out (by omega) (by omega)
    exact ⟨hends, fun _ => blockData_of_ends hends⟩
  case lens =>
    have hends : readLensEnds clc inp n n [] pos := readLensEnds_of_turns clc inp pos (Nat.le_add_left _ _)
    exact ⟨hends, fun _ => readLens_of_ends hends⟩

end Sys2Proof.Machine
end
